-- ==== Sys2Proof/Word.lean ====
section
/-!
DEFINITION. The word types of the 80386 and the two values of a size attribute.

Bits are numbered from the low-order end, a byte is 8 bits, a word 16, a doubleword 32 (00_scope.md R11). Sums of
`BitVec` values are taken modulo `2^N`, as R12 says of `+` and `-`.
-/

namespace Sys2Proof

/-- A byte (R11). -/
abbrev Byte := BitVec 8

/-- A word (R11). -/
abbrev Word16 := BitVec 16

/-- A doubleword (R11): a general register, an offset, a linear address. -/
abbrev Word32 := BitVec 32

/-- The value of an operand-size, address-size or stack address-size attribute: 16 or 32 and no other
(00_scope.md R5, R6, R7). -/
inductive AttrSize where
  | s16
  | s32
deriving DecidableEq, Repr

/-- The number of bytes of an attribute's operands. -/
def AttrSize.bytes : AttrSize → Nat
  | .s16 => 2
  | .s32 => 4

/-- The number of bits of an attribute's operands. -/
abbrev AttrSize.bits (a : AttrSize) : Nat := 8 * a.bytes

/-- The value in {16, 32} other than the given one (R142, R143). -/
def AttrSize.other : AttrSize → AttrSize
  | .s16 => .s32
  | .s32 => .s16

/-- The width of an r/m, register, moffs or string operand: byte, word or doubleword (30_encoding.md R101, R103, R104, R108). -/
inductive OpWidth where
  | w8
  | w16
  | w32
deriving DecidableEq, Repr

/-- The bytes an operand of a width moves (20_memory.md R62). -/
def OpWidth.bytes : OpWidth → Nat
  | .w8 => 1
  | .w16 => 2
  | .w32 => 4

/-- The bits of an operand of a width. -/
abbrev OpWidth.bits (w : OpWidth) : Nat := 8 * w.bytes

end Sys2Proof
end

