-- ==== Sys2Proof/Config.lean ====
section
/-!
DEFINITION. What an implementation fixes: the parameters that the spec closes by a decision of its own.

The parameters it leaves open (the default sizes, the mode, the TSS type and base, the segment bases, `AccessCheck`,
the code region, `P_EndPc`) are launch state (70_reset_and_hazards.md R261) and stand in `Machine.State`.
-/

namespace Sys2Proof.Config

/-- `P_MaxInstrLen`: the longest instruction the decoder takes (30_encoding.md R112, decision D25). -/
def maxInstrLen : Nat := 15

/-- `P_IOMapBaseOffset`: the offset within the TSS of the I/O bitmap pointer (42_operation_primitives.md R203 (a),
decision D19). -/
def ioMapBaseOffset : Word32 := 0x66#32

/-- `P_IOAddrBits`: the width of an I/O address (20_memory.md R56, decision D27). -/
abbrev ioAddrBits : Nat := 16

/-- What a byte of memory or of the I/O space that is not listed reads as. DESIGN CHOICE (log entry 8): the spec
leaves every byte unspecified before it is written (10_state.md R40, R41). Unsafe. -/
def unlistedByte : Byte := 0#8

end Sys2Proof.Config
end

