-- ==== Sys2Proof/Syntax.lean ====
section
/-!
DEFINITION. The syntax of the 80386 instruction format: the rows of the opcode table, register and segment names, the
ModR/M and SIB bytes, the fields of an instruction and the record that describes an instruction form.
-/

namespace Sys2Proof

/-! ### Names -/

/-- The eight doubleword general registers, in code order 0 to 7 (10_state.md R20). -/
inductive Reg where
  | eax | ecx | edx | ebx | esp | ebp | esi | edi
deriving DecidableEq, Repr

/-- The six segment registers, in code order 0 to 5 (10_state.md R25). -/
inductive SegName where
  | es | cs | ss | ds | fs | gs
deriving DecidableEq, Repr

/-! ### The opcode table -/

/-- One constructor per row of spec/opcode_table.json. The row `CMC` is an instruction; the twelve others are
prefixes, each a byte of the instruction that follows it (40_prefixes.md R130). None has an operand. -/
inductive Instr where
  /-- `CMC`, F5 (R210). -/
  | cmc
  /-- `REP`, F3 (R131). -/
  | rep
  /-- `REPE/REPZ`, F3, the same byte as `REP` (R132, R118). -/
  | repeRepz
  /-- `REPNE/REPNZ`, F2 (R133). -/
  | repneRepnz
  /-- `LOCK`, F0 (R134). -/
  | lock
  /-- CS segment override, 2E (R135). -/
  | csOverride
  /-- SS segment override, 36 (R136). -/
  | ssOverride
  /-- DS segment override, 3E (R137). -/
  | dsOverride
  /-- ES segment override, 26 (R138). -/
  | esOverride
  /-- FS segment override, 64 (R139). -/
  | fsOverride
  /-- GS segment override, 65 (R140). -/
  | gsOverride
  /-- Operand-size override, 66 (R142). -/
  | opSize
  /-- Address-size override, 67 (R143). -/
  | adSize
deriving DecidableEq, Repr

/-- A whole instruction of the machine: its prefix bytes in memory order and the row of its opcode
(30_encoding.md R80; the fields after the opcode are empty for every opcode in scope, R113). -/
structure Insn where
  prefixes : List Instr
  op : Instr
deriving DecidableEq, Repr

/-! ### The decode state a prefix run sets -/

/-- The value of `pfx.rep` when a repeat byte was seen: F3 or F2 (40_prefixes.md R130). -/
inductive RepByte where
  | f3 | f2
deriving DecidableEq, Repr

/-- The transient decode state (10_state.md R36, 40_prefixes.md R130); the defaults are the values at the start of
every instruction. -/
structure Prefixes where
  rep : Option RepByte := none
  lock : Bool := false
  seg : Option SegName := none
  opsize : Bool := false
  adsize : Bool := false
deriving DecidableEq, Repr

/-! ### The address specifier -/

/-- The ModR/M byte: `mod` in bits 7:6, `reg` in bits 5:3, `rm` in bits 2:0 (30_encoding.md R86). -/
structure ModRM where
  mod : BitVec 2
  reg : BitVec 3
  rm : BitVec 3
deriving DecidableEq, Repr

/-- The SIB byte: `ss` in bits 7:6, `index` in bits 5:3, `base` in bits 2:0 (30_encoding.md R87). -/
structure SIB where
  ss : BitVec 2
  index : BitVec 3
  base : BitVec 3
deriving DecidableEq, Repr

/-- How wide a displacement is: absent, 8, 16 or 32 bits (30_encoding.md R81, R89). -/
inductive DispSize where
  | none | d8 | d16 | d32
deriving DecidableEq, Repr

/-- A displacement as it stands in the instruction. -/
inductive Disp where
  | none
  | d8 (v : Byte)
  | d16 (v : Word16)
  | d32 (v : Word32)
deriving DecidableEq, Repr

/-- The width of a displacement. -/
def Disp.size : Disp → DispSize
  | .none => .none
  | .d8 _ => .d8
  | .d16 _ => .d16
  | .d32 _ => .d32

/-- The address specifier: ModR/M byte, SIB byte if any, displacement if any (30_encoding.md R80, R83). -/
structure AddrSpec where
  modrm : ModRM
  sib : Option SIB
  disp : Disp
deriving DecidableEq, Repr

/-! ### The other fields -/

/-- The offset field of a moffs operand: AddressSize/8 bytes (30_encoding.md R108). -/
inductive MoffsField where
  | o16 (v : Word16)
  | o32 (v : Word32)
deriving DecidableEq, Repr

/-- A code offset field: cb, cw, cd or cp (30_encoding.md R92). -/
inductive CodeField where
  | cb (v : Byte)
  | cw (v : Word16)
  | cd (v : Word32)
  | cp (v : BitVec 48)
deriving DecidableEq, Repr

/-- An immediate field: ib, iw or id (30_encoding.md R93). -/
inductive ImmField where
  | ib (v : Byte)
  | iw (v : Word16)
  | id (v : Word32)
deriving DecidableEq, Repr

/-- Every field of an instruction after its prefixes, in memory order (30_encoding.md R80). -/
structure Fields where
  opcode : List Byte
  addr : Option AddrSpec := none
  moffs : Option MoffsField := none
  code : Option CodeField := none
  imms : List ImmField := []
deriving DecidableEq, Repr

/-! ### Instruction forms (30_encoding.md R110) -/

/-- A register code in the opcode byte: +rb, +rw, +rd (R94). -/
inductive OpReg where
  | none | rb | rw | rd
deriving DecidableEq, Repr

/-- The use of a ModR/M byte: none, /digit or /r (R90, R91). -/
inductive ModRMUse where
  | none
  | digit (d : BitVec 3)
  | slashR
deriving DecidableEq, Repr

/-- The file of a /r register operand (R91, R101, R109). -/
inductive RegClass where
  | r8 | r16 | r32 | sreg
deriving DecidableEq, Repr

/-- The class of an r/m operand (R103, R105, R106). -/
inductive RmClass where
  | rm8 | rm16 | rm32
  /-- m16:16, a far pointer in memory. -/
  | far16
  /-- m16:32, a far pointer in memory. -/
  | far32
  /-- m16 & 16. -/
  | pair16x16
  /-- m32 & 32. -/
  | pair32x32
  /-- m16 & 32. -/
  | pair16x32
deriving DecidableEq, Repr

/-- The classes whose operand must be in memory, mod <> 11 (R105, R106, R116). -/
def RmClass.memoryOnly : RmClass → Bool
  | .rm8 | .rm16 | .rm32 => false
  | .far16 | .far32 | .pair16x16 | .pair32x32 | .pair16x32 => true

/-- moffs8, moffs16, moffs32: the size of the variable (R108, 90_conflicts.md C9). -/
inductive MoffsClass where
  | moffs8 | moffs16 | moffs32
deriving DecidableEq, Repr

/-- The Opcode-column marks of a code offset (R92). -/
inductive CodeClass where
  | cb | cw | cd | cp
deriving DecidableEq, Repr

/-- The Opcode-column marks of an immediate (R93). -/
inductive ImmClass where
  | ib | iw | id
deriving DecidableEq, Repr

/-- Byte operands, or word or doubleword operands chosen by OperandSize (R121). -/
inductive FormSize where
  | byte
  | byOperandSize
deriving DecidableEq, Repr

/-- One row of an instruction page as far as decoding needs it (R110). -/
structure Form where
  opcode : List Byte
  opReg : OpReg := .none
  modrm : ModRMUse := .none
  regClass : Option RegClass := none
  rmClass : Option RmClass := none
  moffs : Option MoffsClass := none
  code : Option CodeClass := none
  imms : List ImmClass := []
  size : FormSize := .byOperandSize
deriving DecidableEq, Repr

/-- The two forms listed under the same opcode bytes, one for each operand size (R111, R121). -/
structure FormPair where
  at16 : Form
  at32 : Form
deriving DecidableEq, Repr

/-! ### Refusals of the decoder -/

/-- Why the decoder gives bytes no meaning (00_scope.md R15). -/
inductive DecodeStop where
  /-- Two prefix bytes of one group (R85). -/
  | prefixGroupRepeated
  /-- An opcode byte that no row has, or a reg field that no /digit row of it has (R90, R114, R115; log entry 46). -/
  | opcodeNotInSource (op : Byte)
  /-- Longer than `Config.maxInstrLen` (R112). -/
  | instructionTooLong
  /-- An Sreg operand with code 6 or 7 (R116). -/
  | sregCodeUnassigned
  /-- A memory-only operand with mod = 11 (R116). -/
  | registerWhereMemoryRequired
deriving DecidableEq, Repr

end Sys2Proof
end

