-- ==== Sys2Proof/WellFormed.lean ====
section
/-!
DEFINITION. Which instructions and which instruction forms are well formed.
-/

namespace Sys2Proof

/-- The four prefix groups (30_encoding.md R84). -/
inductive PrefixGroup where
  | repeatLock | segment | operandSize | addressSize
deriving DecidableEq, Repr

/-- The group of a prefix row; `none` for the row of an instruction (R84). -/
def Instr.group : Instr → Option PrefixGroup
  | .cmc => none
  | .rep | .repeRepz | .repneRepnz | .lock => some .repeatLock
  | .csOverride | .ssOverride | .dsOverride | .esOverride | .fsOverride | .gsOverride => some .segment
  | .opSize => some .operandSize
  | .adSize => some .addressSize

/-- The rows whose format is PREFIX. -/
def Instr.isPrefix (i : Instr) : Bool := i.group.isSome

/-- Every row of the list is a prefix and no two are of one group (R85). -/
def prefixRunWf : List Instr → Bool
  | [] => true
  | i :: rest => i.isPrefix && rest.all (fun j => j.group != i.group) && prefixRunWf rest

/-- A well-formed instruction: a well-formed prefix run and an opcode that is no prefix (R80, R85). Every operand
field of an opcode in scope is empty, so this is the whole check. -/
def Insn.wf (x : Insn) : Bool := prefixRunWf x.prefixes && !x.op.isPrefix

/-- A well-formed form record (R80, R88, R90, R91, R108): one or two opcode bytes; a register class exactly with /r;
an r/m class exactly with a ModR/M byte; no moffs beside a ModR/M byte. -/
def Form.wf (f : Form) : Bool :=
  (f.opcode.length == 1 || f.opcode.length == 2)
    && (f.regClass.isSome == (f.modrm == .slashR))
    && (f.rmClass.isSome == (f.modrm != .none))
    && !(f.moffs.isSome && f.modrm != .none)

end Sys2Proof
end

