-- ==== Sys2Proof/Decode.lean ====
section
/-!
DEFINITION. The decoder, total on any bytes, and the encoder.

The decoder reads a list of bytes, the first at the lowest address. It strips the prefix run (30_encoding.md R85),
finds the row of the opcode (R120), and reads the row's fields (R111). It answers an instruction, a refusal with a
name, or `short`: the bytes end before the instruction does.
-/

namespace Sys2Proof

/-! ### Little-endian fields (R59, R93) -/

/-- The number whose byte `k` is the `k`-th byte of the list. -/
def leNat : List Byte → Nat
  | [] => 0
  | b :: rest => b.toNat + 256 * leNat rest

/-- The `n` low bytes of a number, the low-order byte first. -/
def leBytes : Nat → Nat → List Byte
  | 0, _ => []
  | n + 1, v => BitVec.ofNat 8 v :: leBytes n (v / 256)

/-! ### Results of a parser -/

/-- What reading a field answers: the field and the bytes after it; that the bytes ended; or a refusal. -/
inductive Parse (α : Type) where
  | ok (a : α) (rest : List Byte)
  | short
  | refuse (r : DecodeStop)
deriving DecidableEq, Repr

/-- Read one field after another. -/
def Parse.andThen {α β : Type} : Parse α → (α → List Byte → Parse β) → Parse β
  | .ok a rest, f => f a rest
  | .short, _ => .short
  | .refuse r, _ => .refuse r

/-- One byte. -/
def takeByte : List Byte → Parse Byte
  | [] => .short
  | b :: rest => .ok b rest

/-- `n` bytes as they stand. -/
def takeBytes : Nat → List Byte → Parse (List Byte)
  | 0, bs => .ok [] bs
  | n + 1, bs => (takeByte bs).andThen fun b rest => (takeBytes n rest).andThen fun l rest' => .ok (b :: l) rest'

/-- A little-endian field of `n` bytes (R93). -/
def takeLE (n : Nat) (bs : List Byte) : Parse (BitVec (8 * n)) :=
  (takeBytes n bs).andThen fun l rest => .ok (BitVec.ofNat (8 * n) (leNat l)) rest

/-! ### The ModR/M and SIB bytes (R86, R87, R89) -/

/-- Split a ModR/M byte (R86). -/
def ModRM.ofByte (b : Byte) : ModRM :=
  { mod := b.extractLsb' 6 2, reg := b.extractLsb' 3 3, rm := b.extractLsb' 0 3 }

/-- `mod ++ reg ++ rm` (R86). -/
def ModRM.toByte (m : ModRM) : Byte := m.mod ++ m.reg ++ m.rm

/-- Split a SIB byte (R87). -/
def SIB.ofByte (b : Byte) : SIB :=
  { ss := b.extractLsb' 6 2, index := b.extractLsb' 3 3, base := b.extractLsb' 0 3 }

/-- `ss ++ index ++ base` (R87). -/
def SIB.toByte (x : SIB) : Byte := x.ss ++ x.index ++ x.base

/-- Whether a SIB byte follows the ModR/M byte (R89; 41_addressing.md R162). -/
def sibFollows : AttrSize → ModRM → Bool
  | .s16, _ => false
  | .s32, m => m.mod != 3#2 && m.rm == 4#3

/-- The displacement of an address specifier, the table of R89. `base` is the base field of the SIB byte where there
is one. -/
def dispSize (as : AttrSize) (m : ModRM) (base : Option (BitVec 3)) : DispSize :=
  match as, m.mod.toNat with
  | .s16, 0 => if m.rm = 6#3 then .d16 else .none
  | .s16, 1 => .d8
  | .s16, 2 => .d16
  | .s16, _ => .none
  | .s32, 0 => if m.rm = 5#3 then .d32 else if m.rm = 4#3 ∧ base = some 5#3 then .d32 else .none
  | .s32, 1 => .d8
  | .s32, 2 => .d32
  | .s32, _ => .none

/-- Read a displacement, little-endian (R83; 41_addressing.md R167). -/
def parseDisp : DispSize → List Byte → Parse Disp
  | .none, bs => .ok .none bs
  | .d8, bs => (takeLE 1 bs).andThen fun v rest => .ok (.d8 v) rest
  | .d16, bs => (takeLE 2 bs).andThen fun v rest => .ok (.d16 v) rest
  | .d32, bs => (takeLE 4 bs).andThen fun v rest => .ok (.d32 v) rest

/-- Read the SIB byte where one follows. -/
def parseSib (present : Bool) (bs : List Byte) : Parse (Option SIB) :=
  if present then (takeByte bs).andThen fun b rest => .ok (some (SIB.ofByte b)) rest else .ok none bs

/-- Read an address specifier: ModR/M, SIB, displacement (R80, R83, R111). -/
def parseAddrSpec (as : AttrSize) (bs : List Byte) : Parse AddrSpec :=
  (takeByte bs).andThen fun b rest =>
    let m := ModRM.ofByte b
    (parseSib (sibFollows as m) rest).andThen fun sib rest' =>
      (parseDisp (dispSize as m (sib.map SIB.base)) rest').andThen fun d rest'' =>
        .ok { modrm := m, sib := sib, disp := d } rest''

/-- Why an address specifier is no operand of a form (R116): an Sreg operand with code 6 or 7, a register where the
operand must be memory. -/
def addrRefusal (f : Form) (m : ModRM) : Option DecodeStop :=
  if f.regClass = some .sreg ∧ 6 ≤ m.reg.toNat then some .sregCodeUnassigned
  else if f.rmClass.any RmClass.memoryOnly ∧ m.mod = 3#2 then some .registerWhereMemoryRequired
  else none

/-! ### The other fields (R92, R93, R108) -/

/-- Read the address specifier of a form that has a ModR/M byte. -/
def parseAddr (f : Form) (as : AttrSize) (bs : List Byte) : Parse (Option AddrSpec) :=
  match f.modrm with
  | .none => .ok none bs
  | _ => (parseAddrSpec as bs).andThen fun a rest =>
      match addrRefusal f a.modrm with
      | some r => .refuse r
      | none => .ok (some a) rest

/-- Read the offset field of a moffs operand: AddressSize/8 bytes (R108). -/
def parseMoffs (c : Option MoffsClass) (as : AttrSize) (bs : List Byte) : Parse (Option MoffsField) :=
  match c, as with
  | none, _ => .ok none bs
  | some _, .s16 => (takeLE 2 bs).andThen fun v rest => .ok (some (.o16 v)) rest
  | some _, .s32 => (takeLE 4 bs).andThen fun v rest => .ok (some (.o32 v)) rest

/-- Read a code offset of 1, 2, 4 or 6 bytes (R92). -/
def parseCode (c : Option CodeClass) (bs : List Byte) : Parse (Option CodeField) :=
  match c with
  | none => .ok none bs
  | some .cb => (takeLE 1 bs).andThen fun v rest => .ok (some (.cb v)) rest
  | some .cw => (takeLE 2 bs).andThen fun v rest => .ok (some (.cw v)) rest
  | some .cd => (takeLE 4 bs).andThen fun v rest => .ok (some (.cd v)) rest
  | some .cp => (takeLE 6 bs).andThen fun v rest => .ok (some (.cp v)) rest

/-- Read one immediate of 1, 2 or 4 bytes (R93). -/
def parseImm (c : ImmClass) (bs : List Byte) : Parse ImmField :=
  match c with
  | .ib => (takeLE 1 bs).andThen fun v rest => .ok (.ib v) rest
  | .iw => (takeLE 2 bs).andThen fun v rest => .ok (.iw v) rest
  | .id => (takeLE 4 bs).andThen fun v rest => .ok (.id v) rest

/-- Read the immediates of a form in order; they are its last fields (R83, R111). -/
def parseImms : List ImmClass → List Byte → Parse (List ImmField)
  | [], bs => .ok [] bs
  | c :: cs, bs => (parseImm c bs).andThen fun i rest => (parseImms cs rest).andThen fun is rest' => .ok (i :: is) rest'

/-! ### Which bytes select a form (R90, R94, R152) -/

/-- An opcode byte of an instruction is the one of a form: the same byte, or with +rb, +rw or +rd one of the eight from
it on (R94). -/
def OpReg.admits (r : OpReg) (form byte : Byte) : Bool :=
  match r with
  | .none => byte == form
  | .rb | .rw | .rd => decide ((byte - form).toNat < 8)

/-- The opcode bytes of an instruction are those of a form; a register code stands in the last one (R80, R94). -/
def opcodeIs (r : OpReg) : List Byte → List Byte → Bool
  | [], [] => true
  | [a], [b] => r.admits a b
  | a :: as, b :: bs => b == a && opcodeIs r as bs
  | _, _ => false

/-- A reg field is the digit of a /digit form; a form without a digit leaves it free (R90, R152). -/
def Form.digitIs (f : Form) (reg : BitVec 3) : Bool :=
  match f.modrm with
  | .digit d => reg == d
  | .none | .slashR => true

/-- Fields select a form: by the opcode bytes, together with the reg field in a /digit form (R90, R94, R152). -/
def Form.selectedBy (f : Form) (x : Fields) : Bool :=
  opcodeIs f.opReg f.opcode x.opcode && x.addr.all fun a => f.digitIs a.modrm.reg

/-- The bytes from the first opcode byte on select a form. A /digit form needs the ModR/M byte for it (R90). -/
def Form.selects (f : Form) (bs : List Byte) : Parse Bool :=
  (takeBytes f.opcode.length bs).andThen fun op rest =>
    if opcodeIs f.opReg f.opcode op then
      match f.modrm with
      | .digit _ => (takeByte rest).andThen fun b rest' => .ok (f.digitIs (ModRM.ofByte b).reg) rest'
      | .none | .slashR => .ok true rest
    else .ok false rest

/-- Read every field of a form that the bytes select, from the first opcode byte on (R111). -/
def readFields (f : Form) (as : AttrSize) (bs : List Byte) : Parse Fields :=
  (takeBytes f.opcode.length bs).andThen fun op r1 =>
    (parseAddr f as r1).andThen fun addr r2 =>
      (parseMoffs f.moffs as r2).andThen fun moffs r3 =>
        (parseCode f.code r3).andThen fun code r4 =>
          (parseImms f.imms r4).andThen fun imms r5 =>
            .ok { opcode := op, addr := addr, moffs := moffs, code := code, imms := imms } r5

/-- Read a form: bytes that do not select it are no opcode of it (R90, R114; log entry 46). -/
def parseFields (f : Form) (as : AttrSize) (bs : List Byte) : Parse Fields :=
  (f.selects bs).andThen fun selected _ =>
    if selected then readFields f as bs else .refuse (.opcodeNotInSource (bs.headD 0#8))

/-- The register code that a +rb, +rw or +rd form holds in its last opcode byte (R94). -/
def Form.opRegCode (f : Form) (x : Fields) : BitVec 3 :=
  ((x.opcode.getLast?.getD 0#8) - (f.opcode.getLast?.getD 0#8)).setWidth 3

/-! ### Operand classes and the operand size (R91, R101 to R110, R121) -/

/-- The width of a word or doubleword operand under an operand size (R121). -/
def AttrSize.width : AttrSize → OpWidth
  | .s16 => .w16
  | .s32 => .w32

/-- The width of a form's operands: byte, or word or doubleword by the operand size (R110, R121). -/
def Form.width (f : Form) (os : AttrSize) : OpWidth :=
  match f.size with
  | .byte => .w8
  | .byOperandSize => os.width

/-- The width of the register that +rb, +rw or +rd names (R94). -/
def OpReg.width : OpReg → Option OpWidth
  | .none => .none
  | .rb => some .w8
  | .rw => some .w16
  | .rd => some .w32

/-- The width of a general register class; Sreg is no general register (R101, R109). -/
def RegClass.width : RegClass → Option OpWidth
  | .r8 => some .w8
  | .r16 => some .w16
  | .r32 => some .w32
  | .sreg => none

/-- The width of r/m8, r/m16 and r/m32; the memory-only operands have two parts (R103, R105, R106). -/
def RmClass.width : RmClass → Option OpWidth
  | .rm8 => some .w8
  | .rm16 => some .w16
  | .rm32 => some .w32
  | .far16 | .far32 | .pair16x16 | .pair32x32 | .pair16x32 => none

/-- The width of a moffs variable (R108). -/
def MoffsClass.width : MoffsClass → OpWidth
  | .moffs8 => .w8
  | .moffs16 => .w16
  | .moffs32 => .w32

/-- The width of the operand that imm16 or imm32 goes with; imm8 goes with every width (R102). -/
def ImmClass.width : ImmClass → Option OpWidth
  | .ib => none
  | .iw => some .w16
  | .id => some .w32

/-- The widths that the operand classes of a form name (R121). -/
def Form.operandWidths (f : Form) : List OpWidth :=
  f.opReg.width.toList ++ (f.regClass.bind RegClass.width).toList ++ (f.rmClass.bind RmClass.width).toList
    ++ (f.moffs.map MoffsClass.width).toList ++ f.imms.filterMap ImmClass.width

/-- The operand size that a two-part memory operand is used under; m16 & 32 is used under both (R97, R105, R106, R216). -/
def RmClass.usedUnder : RmClass → Option AttrSize
  | .far16 | .pair16x16 => some .s16
  | .far32 | .pair32x32 => some .s32
  | .rm8 | .rm16 | .rm32 | .pair16x32 => none

/-- The operand size that a code offset is used under: cw holds a rel16, cp a ptr16:32, cd a ptr16:16 or a rel32 (R92, R96,
R97). -/
def CodeClass.usedUnder : CodeClass → Option AttrSize
  | .cw => some .s16
  | .cp => some .s32
  | .cb | .cd => none

/-- The operand symbols of a form match an operand size (R111, R121). -/
def Form.matchesSize (f : Form) (os : AttrSize) : Bool :=
  f.operandWidths.all (fun w => w == f.width os) && (f.rmClass.bind RmClass.usedUnder).all (fun z => z == os)
    && (f.code.bind CodeClass.usedUnder).all (fun z => z == os)

/-- The class listed under OperandSize 32 where one is listed under OperandSize 16 (R94, R121). -/
def OpReg.widen : OpReg → OpReg
  | .rw => .rd
  | r => r

/-- The partner of r16 is r32 (R101, R121). -/
def RegClass.widen : RegClass → RegClass
  | .r16 => .r32
  | c => c

/-- The partner of r/m16 is r/m32, of m16:16 m16:32, of m16 & 16 m32 & 32 (R97, R103, R106, R121). -/
def RmClass.widen : RmClass → RmClass
  | .rm16 => .rm32
  | .far16 => .far32
  | .pair16x16 => .pair32x32
  | c => c

/-- The partner of moffs16 is moffs32 (R108, R121). -/
def MoffsClass.widen : MoffsClass → MoffsClass
  | .moffs16 => .moffs32
  | c => c

/-- The partner of cw (rel16) is cd (rel32), of cd (ptr16:16) cp (ptr16:32) (R96, R97, R111). -/
def CodeClass.widen : CodeClass → CodeClass
  | .cw => .cd
  | .cd => .cp
  | c => c

/-- The partner of iw is id (R102, R111). -/
def ImmClass.widen : ImmClass → ImmClass
  | .iw => .id
  | c => c

/-- The form listed under OperandSize 32 beside a form for OperandSize 16: the same opcode bytes, ModR/M use and byte or
not, with each word symbol replaced by its doubleword partner (R111, R121). -/
def Form.widen (f : Form) : Form :=
  { f with
    opReg := f.opReg.widen
    regClass := f.regClass.map RegClass.widen
    rmClass := f.rmClass.map RmClass.widen
    moffs := f.moffs.map MoffsClass.widen
    code := f.code.map CodeClass.widen
    imms := f.imms.map ImmClass.widen }

/-- A well-formed pair: two well-formed forms under the same opcode bytes, each with the symbols of its operand size, one
the partner of the other (R111, R121; log entry 47). -/
def FormPair.wf (p : FormPair) : Bool :=
  p.at16.wf && p.at16.matchesSize .s16 && p.at32.matchesSize .s32 && p.at32 == p.at16.widen

/-- The form of a pair that an operand size chooses (R111, R121). -/
def FormPair.choose (p : FormPair) : AttrSize → Form
  | .s16 => p.at16
  | .s32 => p.at32

/-! ### Encoding the fields -/

/-- The bytes of a displacement. -/
def encodeDisp : Disp → List Byte
  | .none => []
  | .d8 v => [v]
  | .d16 v => leBytes 2 v.toNat
  | .d32 v => leBytes 4 v.toNat

/-- The bytes of an address specifier (R80, R83). -/
def encodeAddrSpec (a : AddrSpec) : List Byte :=
  a.modrm.toByte :: ((a.sib.map SIB.toByte).toList ++ encodeDisp a.disp)

/-- The bytes of a moffs offset (R108). -/
def encodeMoffs : MoffsField → List Byte
  | .o16 v => leBytes 2 v.toNat
  | .o32 v => leBytes 4 v.toNat

/-- The bytes of a code offset (R92, R98). -/
def encodeCode : CodeField → List Byte
  | .cb v => [v]
  | .cw v => leBytes 2 v.toNat
  | .cd v => leBytes 4 v.toNat
  | .cp v => leBytes 6 v.toNat

/-- The bytes of an immediate (R93). -/
def encodeImm : ImmField → List Byte
  | .ib v => [v]
  | .iw v => leBytes 2 v.toNat
  | .id v => leBytes 4 v.toNat

/-- The bytes of every field, in the order of R80. -/
def encodeFields (x : Fields) : List Byte :=
  x.opcode ++ (x.addr.elim [] encodeAddrSpec) ++ (x.moffs.elim [] encodeMoffs) ++ (x.code.elim [] encodeCode)
    ++ (x.imms.flatMap encodeImm)

/-- The length of the fields: the sum of those present (R81). -/
def Fields.length (x : Fields) : Nat := (encodeFields x).length

/-! ### Which fields a form has -/

/-- An address specifier has the SIB byte and the displacement that R89 gives its ModR/M byte. -/
def AddrSpec.fits (as : AttrSize) (a : AddrSpec) : Bool :=
  (a.sib.isSome == sibFollows as a.modrm)
    && (a.disp.size == dispSize as a.modrm (a.sib.map SIB.base))

/-- A code offset is of a class. -/
def CodeField.is : CodeField → CodeClass → Bool
  | .cb _, .cb | .cw _, .cw | .cd _, .cd | .cp _, .cp => true
  | _, _ => false

/-- An immediate is of a class. -/
def ImmField.is : ImmField → ImmClass → Bool
  | .ib _, .ib | .iw _, .iw | .id _, .id => true
  | _, _ => false

/-- A list of immediates is of a list of classes, one by one. -/
def immsAre : List ImmField → List ImmClass → Bool
  | [], [] => true
  | i :: is, c :: cs => i.is c && immsAre is cs
  | _, _ => false

/-- An offset field is as wide as the address size (R108). -/
def MoffsField.fits : AttrSize → MoffsField → Bool
  | .s16, .o16 _ | .s32, .o32 _ => true
  | _, _ => false

/-- An address specifier stands exactly where the form has a ModR/M byte, is the one R89 gives, and is not refused by
R116. -/
def addrFits (f : Form) (as : AttrSize) (a : Option AddrSpec) : Bool :=
  match f.modrm, a with
  | .none, none => true
  | .none, some _ => false
  | _, none => false
  | _, some x => x.fits as && (addrRefusal f x.modrm).isNone

/-- An offset field stands exactly where the form has a moffs operand. -/
def moffsFits (as : AttrSize) (c : Option MoffsClass) (o : Option MoffsField) : Bool :=
  match c, o with
  | none, none => true
  | some _, some x => x.fits as
  | _, _ => false

/-- A code offset stands exactly where the form has one, of its class. -/
def codeFits (c : Option CodeClass) (o : Option CodeField) : Bool :=
  match c, o with
  | none, none => true
  | some k, some x => x.is k
  | _, _ => false

/-- The fields are those of a form under an address size: they select it (R90, R94), each stands where the form has it,
and none has a code or mode that R116 refuses. -/
def Fields.fits (f : Form) (as : AttrSize) (x : Fields) : Bool :=
  f.selectedBy x && addrFits f as x.addr && moffsFits as f.moffs x.moffs
    && codeFits f.code x.code && immsAre x.imms f.imms

/-! ### The opcode table (R113, R120) -/

/-- A row of spec/opcode_table.json: `mask` and `pat` are its mask and match; `form` is `none` for a prefix. -/
structure TableRow where
  instr : Instr
  pat : Byte
  mask : Byte := 0xFF#8
  form : Option FormPair := none
deriving DecidableEq, Repr

/-- CMC's form: one opcode byte F5 and nothing else, at either operand size (R113, 43_flag_control.md R210). -/
def cmcForm : FormPair := { at16 := { opcode := [0xF5#8] }, at32 := { opcode := [0xF5#8] } }

/-- The rows of spec/opcode_table.json, in its order. -/
def opcodeTable : List TableRow :=
  [ { instr := .cmc, pat := 0xF5#8, form := some cmcForm },
    { instr := .rep, pat := 0xF3#8 },
    { instr := .repeRepz, pat := 0xF3#8 },
    { instr := .repneRepnz, pat := 0xF2#8 },
    { instr := .lock, pat := 0xF0#8 },
    { instr := .csOverride, pat := 0x2E#8 },
    { instr := .ssOverride, pat := 0x36#8 },
    { instr := .dsOverride, pat := 0x3E#8 },
    { instr := .esOverride, pat := 0x26#8 },
    { instr := .fsOverride, pat := 0x64#8 },
    { instr := .gsOverride, pat := 0x65#8 },
    { instr := .opSize, pat := 0x66#8 },
    { instr := .adSize, pat := 0x67#8 } ]

/-- The row is selected by a byte: `byte AND mask = match` (R120). -/
def TableRow.selectedBy (r : TableRow) (b : Byte) : Bool := b &&& r.mask == r.pat

/-- The first row a byte selects. F3 has two rows, `REP` and `REPE/REPZ`; which name applies depends on a string
instruction that follows (R118) and none is in scope, so the decoder reads the first (log entry 11). -/
def rowOf (b : Byte) : Option TableRow := opcodeTable.find? fun r => r.selectedBy b

/-- The prefix row of a byte (R84). -/
def prefixRow (b : Byte) : Option Instr :=
  match rowOf b with
  | some { instr := i, form := none, .. } => some i
  | _ => none

/-- The instruction row of an opcode byte (R113). -/
def opcodeRow (b : Byte) : Option (Instr × FormPair) :=
  match rowOf b with
  | some { instr := i, form := some f, .. } => some (i, f)
  | _ => none

/-! ### The decode state (R85, R130 to R143) -/

/-- `pfx.rep <- r`, unless a repeat or LOCK byte was seen (R131 to R133, R85). -/
def Prefixes.withRep (r : RepByte) (p : Prefixes) : Option Prefixes :=
  if p.rep.isSome || p.lock then none else some { p with rep := some r }

/-- `pfx.lock <- true`, unless a repeat or LOCK byte was seen (R134, R85). -/
def Prefixes.withLock (p : Prefixes) : Option Prefixes :=
  if p.rep.isSome || p.lock then none else some { p with lock := true }

/-- `pfx.seg <- s`, unless a segment override was seen (R135 to R140, R85). -/
def Prefixes.withSeg (s : SegName) (p : Prefixes) : Option Prefixes :=
  if p.seg.isSome then none else some { p with seg := some s }

/-- `pfx.opsize <- true`, unless a 66H was seen (R142, R85). -/
def Prefixes.withOpSize (p : Prefixes) : Option Prefixes :=
  if p.opsize then none else some { p with opsize := true }

/-- `pfx.adsize <- true`, unless a 67H was seen (R143, R85). -/
def Prefixes.withAdSize (p : Prefixes) : Option Prefixes :=
  if p.adsize then none else some { p with adsize := true }

/-- The decode state after a prefix row; `none` where the prefix's group was already seen, and for a row that is no
prefix. -/
def recordPrefix : Instr → Prefixes → Option Prefixes
  | .cmc => fun _ => none
  | .rep => Prefixes.withRep .f3
  | .repeRepz => Prefixes.withRep .f3
  | .repneRepnz => Prefixes.withRep .f2
  | .lock => Prefixes.withLock
  | .csOverride => Prefixes.withSeg .cs
  | .ssOverride => Prefixes.withSeg .ss
  | .dsOverride => Prefixes.withSeg .ds
  | .esOverride => Prefixes.withSeg .es
  | .fsOverride => Prefixes.withSeg .fs
  | .gsOverride => Prefixes.withSeg .gs
  | .opSize => Prefixes.withOpSize
  | .adSize => Prefixes.withAdSize

/-- The number of prefix bytes a decode state stands for: one for each group seen (R85). -/
def Prefixes.count (p : Prefixes) : Nat :=
  p.rep.isSome.toNat + p.lock.toNat + p.seg.isSome.toNat + p.opsize.toNat + p.adsize.toNat

/-- The attribute of an instruction: the default, or the other value when its override was seen (10_state.md R35). -/
def sizeAttr (dflt : AttrSize) (overridden : Bool) : AttrSize := if overridden then dflt.other else dflt

/-- Strip the maximal prefix run, from a decode state on (R85, R111). A repeated group is refused at the byte that
repeats it (log entry 12). -/
def scanPrefixes (p : Prefixes) : List Byte → Parse (List Instr × Prefixes)
  | [] => .short
  | b :: rest =>
    match prefixRow b with
    | none => .ok ([], p) (b :: rest)
    | some i =>
      match recordPrefix i p with
      | none => .refuse .prefixGroupRepeated
      | some p' => (scanPrefixes p' rest).andThen fun x rest' => .ok (i :: x.1, x.2) rest'

/-! ### The decoder (R111, R120) -/

/-- A decoded instruction; `op` is what the opcode table gives for its opcode. -/
structure Decoded (α : Type) where
  prefixes : List Instr
  pfx : Prefixes
  operandSize : AttrSize
  addressSize : AttrSize
  op : α
  fields : Fields
  length : Nat
deriving DecidableEq, Repr

/-- The first form, among the rows of an opcode byte, that the bytes select at an operand size (R90, R120, R121); no
form is an opcode that is not in the source (R114, log entry 46). -/
def findForm {α : Type} (op : Byte) (os : AttrSize) : List (α × FormPair) → List Byte → Parse (α × Form)
  | [], _ => .refuse (.opcodeNotInSource op)
  | (a, pair) :: rows, bs =>
    ((pair.choose os).selects bs).andThen fun selected _ =>
      if selected then .ok (a, pair.choose os) bs else findForm op os rows bs

/-- The decode procedure over a table of forms: `find` gives the rows of an opcode byte. The attributes come from the
defaults and the prefixes; the form is the first that the bytes select at OperandSize; an instruction longer than
`Config.maxInstrLen` is refused (R112). -/
def decodeWith {α : Type} (find : Byte → List (α × FormPair)) (dOp dAddr : AttrSize) (bs : List Byte) :
    Parse (Decoded α) :=
  (scanPrefixes {} bs).andThen fun pre rest =>
    (takeByte rest).andThen fun op _ =>
      let os := sizeAttr dOp pre.2.opsize
      let as := sizeAttr dAddr pre.2.adsize
      (findForm op os (find op) rest).andThen fun row _ =>
        (parseFields row.2 as rest).andThen fun x rest' =>
          let len := pre.1.length + x.length
          if Config.maxInstrLen < len then .refuse .instructionTooLong
          else .ok { prefixes := pre.1, pfx := pre.2, operandSize := os, addressSize := as, op := row.1, fields := x,
                     length := len } rest'

/-- The decoder of the machine: the decode procedure over the opcode table, which has at most one row for an opcode byte
(R113, R120). -/
def decode (dOp dAddr : AttrSize) (bs : List Byte) : Parse (Decoded Instr) :=
  decodeWith (fun op => (opcodeRow op).toList) dOp dAddr bs

/-! ### The encoder (R84, R113) -/

/-- The byte of a row. -/
def encodeRow : Instr → Byte
  | .cmc => 0xF5#8
  | .rep => 0xF3#8
  | .repeRepz => 0xF3#8
  | .repneRepnz => 0xF2#8
  | .lock => 0xF0#8
  | .csOverride => 0x2E#8
  | .ssOverride => 0x36#8
  | .dsOverride => 0x3E#8
  | .esOverride => 0x26#8
  | .fsOverride => 0x64#8
  | .gsOverride => 0x65#8
  | .opSize => 0x66#8
  | .adSize => 0x67#8

/-- The bytes of an instruction: its prefixes in order, then its opcode (R80). -/
def encode (x : Insn) : List Byte := x.prefixes.map encodeRow ++ [encodeRow x.op]

/-- The row that the decoder reads from a row's byte: `REPE/REPZ` shares its byte with `REP` (R118). -/
def canonRow : Instr → Instr
  | .repeRepz => .rep
  | i => i

/-! ### The host's question about one row -/

/-- The bytes of a table row numbered as spec/opcode_table.json numbers its bits, then zeros up to the longest
instruction. -/
def tableBytes (nbits w : Nat) : List Byte := leBytes Config.maxInstrLen (w % 2 ^ nbits)

/-- The row the decoder reads first from a table word: the first prefix, or the opcode where there is none. A prefix
row's byte is a prefix row whatever follows it (R113), so it is answered even where the whole is refused, as it is
when zeros follow: 00 is no opcode in the source (log entry 10). -/
def decodeTableWord (nbits w : Nat) : Option Instr :=
  match decode .s16 .s16 (tableBytes nbits w) with
  | .ok d _ => (d.prefixes ++ [d.op]).head?
  | _ => (tableBytes nbits w).head?.bind prefixRow

end Sys2Proof
end

