-- ==== Sys2Proof/Machine/State.lean ====
section
/-!
DEFINITION. The machine's state, its faults and refusals, and the state after reset.

Every piece of state of 10_state.md R40 and every launch parameter of 70_reset_and_hazards.md R261 is a field, so that
a claim for every state is a claim for every launch state (R41). The state is plain data.
-/

namespace Sys2Proof.Machine

/-! ### Parts of the state -/

/-- The eight general registers (10_state.md R20). -/
structure Regs where
  eax : Word32
  ecx : Word32
  edx : Word32
  ebx : Word32
  esp : Word32
  ebp : Word32
  esi : Word32
  edi : Word32
deriving DecidableEq, Repr

/-- A segment register: the selector (R25) and `SegBase` (R26, 20_memory.md R52). -/
structure Seg where
  selector : Word16
  base : Word32
deriving DecidableEq, Repr

/-- The six segment registers (R25). -/
structure Segs where
  es : Seg
  cs : Seg
  ss : Seg
  ds : Seg
  fs : Seg
  gs : Seg
deriving DecidableEq, Repr

/-- A descriptor table register (R30). -/
structure TableReg where
  limit : Word16
  base : Word32
deriving DecidableEq, Repr

/-- `P_Mode` (00_scope.md R8, 10_state.md R34). -/
inductive Mode where
  | realAddress | protected386 | virtual8086
deriving DecidableEq, Repr

/-- `P_TSSType` (R9, R33). -/
inductive TSSType where
  | tss286 | tss386
deriving DecidableEq, Repr

/-- The nine exceptions of Table 17-6 (60_exceptions.md R231). -/
inductive ExnName where
  /-- Invalid opcode. -/
  | ud
  /-- Coprocessor not available. -/
  | nm
  /-- Double fault. -/
  | df
  /-- Invalid TSS. -/
  | ts
  /-- Segment or gate not present. -/
  | np
  /-- Stack fault. -/
  | ss
  /-- General protection fault. -/
  | gp
  /-- Page fault. -/
  | pf
  /-- Math (coprocessor) fault. -/
  | mf
deriving DecidableEq, Repr

/-- An exception: a mnemonic and an optional error code, of a width the spec does not give (R230). -/
structure Exn where
  name : ExnName
  code : Option Nat
deriving DecidableEq, Repr

/-- The kinds of access that `AccessCheck` tells apart (20_memory.md R53). -/
inductive AccessKind where
  | read | write | fetch
deriving DecidableEq, Repr

/-- A part of `AccessCheck` (R53): the accesses of one kind through one segment register, at an offset in
`offLo .. offHi` and of a size in `nLo .. nHi`, end in an exception. Any function of (segment, offset, size, kind) to
"ok or an exception" is a finite list of such rules (log entry 5). -/
structure AccessRule where
  seg : SegName
  kind : AccessKind
  offLo : Word32
  offHi : Word32
  nLo : Nat
  nHi : Nat
  exn : Exn
deriving DecidableEq, Repr

/-- A range of linear addresses, both ends in it. -/
structure Region where
  lo : Word32
  hi : Word32
deriving DecidableEq, Repr

/-- A memory: pairs of an address and a byte, in the canonical form of `Memory.wf` (Machine/Memory.lean). -/
abbrev Memory := List Host.Cell

/-! ### The state -/

/-- The state of the machine (10_state.md R40, 70_reset_and_hazards.md R261). -/
structure State where
  /-- The general registers (R20 to R23). -/
  regs : Regs
  /-- The segment registers (R25, R26). -/
  segs : Segs
  /-- The carry flag (R27). -/
  cf : Bool
  /-- The other flags, which no rule reads or writes (R27, U12); the width is PRESUMED (log entry 4). -/
  otherFlags : BitVec 31
  /-- The instruction pointer, an offset in CS (R28). -/
  pc : Word32
  /-- Global Descriptor Table Register (R30). -/
  gdtr : TableReg
  /-- Interrupt Descriptor Table Register (R30). -/
  idtr : TableReg
  /-- `P_Mode` (R34). -/
  mode : Mode
  /-- `P_DefaultOperandSize` (R5). -/
  defaultOperandSize : AttrSize
  /-- `P_DefaultAddressSize` (R6). -/
  defaultAddressSize : AttrSize
  /-- `P_StackAddrSize` (R7). -/
  stackAddrSize : AttrSize
  /-- `P_TSSType` (R33). -/
  tssType : TSSType
  /-- `TSSBase` (R33). -/
  tssBase : Word32
  /-- `AccessCheck` (20_memory.md R53): the first rule that applies gives the exception, none means ok. -/
  access : List AccessRule
  /-- The code region (20_memory.md R68, R261). -/
  codeRegion : List Region
  /-- `P_EndPc` (R263). -/
  endPc : Word32
  /-- The transient decode state (R36). -/
  pfx : Prefixes
  /-- Memory, by linear address (R50, R57). -/
  mem : Memory
  /-- The I/O address space, by port (R50, R56). -/
  io : Memory
deriving DecidableEq, Repr

/-! ### Stops -/

/-- A fault: `raise` ends the run with it (60_exceptions.md R241). -/
inductive Fault where
  /-- `Fault(number, code)`: raised by every access that `AccessCheck` turns down (R233). Safe: the 80386 goes on in a
  handler, which the spec does not give, and the model stops and exposes no state. -/
  | exception (number : Nat) (code : Option Nat)
deriving DecidableEq, Repr

/-- A refusal: the spec gives the bytes or the operation no meaning (00_scope.md R15). All are safe: a refused step has
no next state. -/
inductive Refusal where
  /-- An instruction whose meaning is not written. No arm of `exec` answers it. Safe. -/
  | notModelled (mnemonic : String)
  /-- Two prefix bytes of one group (30_encoding.md R85); the decoder and the prefix rows. Safe. -/
  | prefixGroupRepeated
  /-- An opcode byte without a row, or a reg field that no /digit row of it has (R90, R114, R115); the decoder. Safe. -/
  | opcodeNotInSource (op : Byte)
  /-- Longer than 15 bytes (R112); the decoder. Safe. -/
  | instructionTooLong
  /-- Sreg code 6 or 7 (R116); the decoder and the Sreg operand. Safe. -/
  | sregCodeUnassigned
  /-- mod = 11 where the operand must be in memory (R116); the decoder and the memory operand forms. Safe. -/
  | registerWhereMemoryRequired
  /-- A repeat prefix before CMC (40_prefixes.md R145); CMC. Safe. -/
  | repOnNonString
  /-- LOCK before CMC (R145); CMC. Safe. -/
  | lockNotDefined
  /-- `Addr` of a register operand (42_operation_primitives.md R191). Safe. -/
  | addrOfRegister
  /-- ZeroExtend or SignExtend of a value wider than OperandSize (R192, R193). Safe. -/
  | extendOfWiderValue
  /-- A bit offset beyond a register (R198). Safe. -/
  | bitOffsetBeyondRegister
  /-- Switch-Tasks (R204). Safe. -/
  | taskSwitchNotInSource
  /-- A write to a byte of the code region (20_memory.md R68). Safe. -/
  | storeIntoCode
  /-- A string operand under AddressSize = 32, whose registers are not in the source (44_named_instructions.md R220). Safe. -/
  | stringAddressNotInSource
deriving DecidableEq, Repr

/-- What an operation answers: a value, a fault or a refusal (R15). -/
abbrev Res (α : Type) := Host.Outcome α Fault Refusal

/-! ### Reset -/

/-- The machine after reset. The spec gives no reset value (R40, R260); the values are the family's as G22 of
93_implementation_defined.md lists them (PRESUMED, log entry 2), and where G22 is silent the model's (DESIGN CHOICE,
log entries 3 and 5 to 9). Unsafe. -/
def State.reset : State where
  regs := { eax := 0#32, ecx := 0#32, edx := 0x300#32, ebx := 0#32, esp := 0#32, ebp := 0#32, esi := 0#32, edi := 0#32 }
  segs :=
    { es := { selector := 0#16, base := 0#32 }
      cs := { selector := 0xF000#16, base := 0xFFFF0000#32 }
      ss := { selector := 0#16, base := 0#32 }
      ds := { selector := 0#16, base := 0#32 }
      fs := { selector := 0#16, base := 0#32 }
      gs := { selector := 0#16, base := 0#32 } }
  cf := false
  otherFlags := 1#31
  pc := 0xFFF0#32
  gdtr := { limit := 0#16, base := 0#32 }
  idtr := { limit := 0x3FF#16, base := 0#32 }
  mode := .realAddress
  defaultOperandSize := .s16
  defaultAddressSize := .s16
  stackAddrSize := .s16
  tssType := .tss386
  tssBase := 0#32
  access := []
  codeRegion := []
  endPc := 0#32
  pfx := {}
  mem := []
  io := []

end Sys2Proof.Machine
end

