-- ==== Sys2Proof/Machine/Memory.lean ====
section
/-!
DEFINITION. A memory as a list in canonical form, and MemRead and MemWrite over its bytes (20_memory.md R57, R58).
-/

namespace Sys2Proof.Machine

/-- The byte at an address; an unlisted address reads `Config.unlistedByte` (log entry 8). -/
def Memory.get : Memory → Nat → Byte
  | [], _ => Config.unlistedByte
  | (a, b) :: rest, x => if a = x then b else Memory.get rest x

/-- The memory with one byte written. Writing what an unlisted address reads as removes the entry. -/
def Memory.set : Memory → Nat → Byte → Memory
  | [], x, v => if v = Config.unlistedByte then [] else [(x, v)]
  | (a, b) :: rest, x, v =>
    if x < a then (if v = Config.unlistedByte then (a, b) :: rest else (x, v) :: (a, b) :: rest)
    else if x = a then (if v = Config.unlistedByte then rest else (x, v) :: rest)
    else (a, b) :: Memory.set rest x v

/-- The addresses rise strictly from `lo` and stay below `lim`, and no entry equals what an unlisted address reads as. -/
def Memory.wfFrom (lim : Nat) : Nat → Memory → Bool
  | _, [] => true
  | lo, (a, b) :: rest => decide (lo ≤ a) && decide (a < lim) && b != Config.unlistedByte && Memory.wfFrom lim (a + 1) rest

/-- The canonical form of memory: 2^32 linear addresses (R56). -/
def Memory.wf (m : Memory) : Bool := Memory.wfFrom (2 ^ 32) 0 m

/-- The canonical form of the I/O space: 2^16 ports (R56). -/
def Memory.ioWf (m : Memory) : Bool := Memory.wfFrom (2 ^ Config.ioAddrBits) 0 m

/-- The byte at a linear address. -/
def Memory.byteAt (m : Memory) (a : Word32) : Byte := m.get a.toNat

/-- The `n` bytes from a linear address on, at `trunc_32(a + k)` (R57). -/
def Memory.bytesAt (m : Memory) (a : Word32) : Nat → List Byte
  | 0 => []
  | n + 1 => m.byteAt a :: Memory.bytesAt m (a + 1#32) n

/-- `MemRead(a, n)`: byte `k` of the value is the byte at `trunc_32(a + k)` (R57, R60). -/
def Memory.read (m : Memory) (a : Word32) (n : Nat) : BitVec (8 * n) := BitVec.ofNat (8 * n) (leNat (m.bytesAt a n))

/-- The memory with the bytes of a list written from a linear address on, modulo 2^32. -/
def Memory.put (m : Memory) (a : Word32) : List Byte → Memory
  | [] => m
  | b :: rest => Memory.put (m.set a.toNat b) (a + 1#32) rest

/-- `MemWrite(a, n, v)` on the bytes alone: the byte at `trunc_32(a + k)` becomes byte `k` of the value (R58, R60). -/
def Memory.write (m : Memory) (a : Word32) (n : Nat) (v : BitVec (8 * n)) : Memory := m.put a (leBytes n v.toNat)

end Sys2Proof.Machine
end

