-- ==== Sys2Proof/Machine/Registers.lean ====
section
/-!
DEFINITION. Reading and writing the register files: doubleword, word and byte general registers and their overlap, and
the segment registers (10_state.md R20 to R25).
-/

namespace Sys2Proof.Machine

/-- The register with a code (R20). -/
def regOfCode (c : BitVec 3) : Reg :=
  match c.toNat with
  | 0 => .eax
  | 1 => .ecx
  | 2 => .edx
  | 3 => .ebx
  | 4 => .esp
  | 5 => .ebp
  | 6 => .esi
  | _ => .edi

/-- The code of a register (R20). -/
def codeOfReg : Reg → BitVec 3
  | .eax => 0#3
  | .ecx => 1#3
  | .edx => 2#3
  | .ebx => 3#3
  | .esp => 4#3
  | .ebp => 5#3
  | .esi => 6#3
  | .edi => 7#3

/-- The value of a doubleword register (R20). -/
def Regs.get (r : Regs) : Reg → Word32
  | .eax => r.eax
  | .ecx => r.ecx
  | .edx => r.edx
  | .ebx => r.ebx
  | .esp => r.esp
  | .ebp => r.ebp
  | .esi => r.esi
  | .edi => r.edi

/-- The registers with one doubleword register written. -/
def Regs.set (r : Regs) (n : Reg) (v : Word32) : Regs :=
  match n with
  | .eax => { r with eax := v }
  | .ecx => { r with ecx := v }
  | .edx => { r with edx := v }
  | .ebx => { r with ebx := v }
  | .esp => { r with esp := v }
  | .ebp => { r with ebp := v }
  | .esi => { r with esi := v }
  | .edi => { r with edi := v }

/-- `r32[c]` (R13, R23). -/
def Regs.r32 (r : Regs) (c : BitVec 3) : Word32 := r.get (regOfCode c)

/-- `r16[c]`: bits 15 to 0 of the register (R23). -/
def Regs.r16 (r : Regs) (c : BitVec 3) : Word16 := (r.r32 c).extractLsb' 0 16

/-- `r8[c]`: bits 7 to 0 of register `c` for codes 0 to 3, bits 15 to 8 of register `c - 4` for codes 4 to 7 (R22, R23). -/
def Regs.r8 (r : Regs) (c : BitVec 3) : Byte :=
  if c.toNat < 4 then (r.r32 c).extractLsb' 0 8 else (r.r32 (c - 4#3)).extractLsb' 8 8

/-- `r32[c] <- v`. -/
def Regs.setR32 (r : Regs) (c : BitVec 3) (v : Word32) : Regs := r.set (regOfCode c) v

/-- `r16[c] <- v`: bits 31 to 16 stay (R23). -/
def Regs.setR16 (r : Regs) (c : BitVec 3) (v : Word16) : Regs :=
  r.setR32 c ((r.r32 c).extractLsb' 16 16 ++ v)

/-- `r8[c] <- v`: the other 24 bits stay (R23). -/
def Regs.setR8 (r : Regs) (c : BitVec 3) (v : Byte) : Regs :=
  if c.toNat < 4 then r.setR32 c ((r.r32 c).extractLsb' 8 24 ++ v)
  else r.setR32 (c - 4#3) ((r.r32 (c - 4#3)).extractLsb' 16 16 ++ v ++ (r.r32 (c - 4#3)).extractLsb' 0 8)

/-- `r8`, `r16` or `r32` by the width of the operand (41_addressing.md R153, R171). -/
def Regs.read (r : Regs) (w : OpWidth) (c : BitVec 3) : BitVec w.bits :=
  match w with
  | .w8 => r.r8 c
  | .w16 => r.r16 c
  | .w32 => r.r32 c

/-- A write by the width of the operand. -/
def Regs.write (r : Regs) (w : OpWidth) (c : BitVec 3) (v : BitVec w.bits) : Regs :=
  match w, v with
  | .w8, v => r.setR8 c v
  | .w16, v => r.setR16 c v
  | .w32, v => r.setR32 c v

/-- The segment register with an Sreg code; 6 and 7 name none (R25, 30_encoding.md R109). -/
def segOfCode (c : BitVec 3) : Option SegName :=
  match c.toNat with
  | 0 => some .es
  | 1 => some .cs
  | 2 => some .ss
  | 3 => some .ds
  | 4 => some .fs
  | 5 => some .gs
  | _ => none

/-- The Sreg code of a segment register (R25). -/
def codeOfSeg : SegName → BitVec 3
  | .es => 0#3
  | .cs => 1#3
  | .ss => 2#3
  | .ds => 3#3
  | .fs => 4#3
  | .gs => 5#3

/-- A segment register (R25). -/
def Segs.get (t : Segs) : SegName → Seg
  | .es => t.es
  | .cs => t.cs
  | .ss => t.ss
  | .ds => t.ds
  | .fs => t.fs
  | .gs => t.gs

/-- `sreg[c]`: the selector, refused for codes 6 and 7 (R25, R116). -/
def sregRead (s : State) (c : BitVec 3) : Res Word16 :=
  match segOfCode c with
  | some n => .next (s.segs.get n).selector
  | none => .refused .sregCodeUnassigned

end Sys2Proof.Machine
end

