-- ==== Sys2Proof/Machine/Ops.lean ====
section
/-!
DEFINITION. The shared operations: exceptions, segment-relative access, completing an instruction, noting a prefix, and
the functions of the "Operation" sections (20_memory.md, 42_operation_primitives.md, 60_exceptions.md).
-/

namespace Sys2Proof.Machine

/-- Go on with a value, or stop as the first operation stopped. -/
def andThen {α β : Type} : Res α → (α → Res β) → Res β
  | .next a, f => f a
  | .fault r, _ => .fault r
  | .refused r, _ => .refused r

/-! ### Taking an exception (60_exceptions.md) -/

/-- The interrupt number of an exception, Table 17-6 (R231). -/
def ExnName.number : ExnName → Nat
  | .ud => 6
  | .nm => 7
  | .df => 8
  | .ts => 10
  | .np => 11
  | .ss => 12
  | .gp => 13
  | .pf => 14
  | .mf => 16

/-- `raise #XX(code)`: the outcome `Fault(number, code)`, which ends the run (R241). This is the whole of taking an
exception in the spec: nothing is saved, no handler is entered, and there is no return (R234, R241, R242). -/
def raise {α : Type} (e : Exn) : Res α := .fault (.exception e.name.number e.code)

/-! ### The attributes of the instruction that executes (10_state.md R35) -/

/-- `OperandSize`. -/
def State.operandSize (s : State) : AttrSize := sizeAttr s.defaultOperandSize s.pfx.opsize

/-- `AddressSize`. -/
def State.addressSize (s : State) : AttrSize := sizeAttr s.defaultAddressSize s.pfx.adsize

/-- `VM`: 1 exactly in Virtual-8086 mode (R34). -/
def State.vm (s : State) : Bool := s.mode == .virtual8086

/-! ### Segment-relative access (20_memory.md R52, R53) -/

/-- A rule of `AccessCheck` applies to an access. -/
def AccessRule.applies (r : AccessRule) (seg : SegName) (off : Word32) (n : Nat) (k : AccessKind) : Bool :=
  r.seg == seg && r.kind == k && decide (r.offLo.toNat ≤ off.toNat) && decide (off.toNat ≤ r.offHi.toNat)
    && decide (r.nLo ≤ n) && decide (n ≤ r.nHi)

/-- `AccessCheck(seg, off, n, kind)`: `none` is ok, `some e` the exception (R53). -/
def accessCheck (s : State) (seg : SegName) (off : Word32) (n : Nat) (k : AccessKind) : Option Exn :=
  (s.access.find? fun r => r.applies seg off n k).map AccessRule.exn

/-- `Lin(seg, off)`: the base plus the offset, modulo 2^32 (R52). -/
def lin (s : State) (seg : SegName) (off : Word32) : Word32 := (s.segs.get seg).base + off

/-- A linear address lies in the code region (R68). -/
def inCode (s : State) (a : Word32) : Bool :=
  s.codeRegion.any fun r => decide (r.lo.toNat ≤ a.toNat) && decide (a.toNat ≤ r.hi.toNat)

/-- One of the `n` bytes from a linear address on lies in the code region. -/
def touchesCode (s : State) (a : Word32) : Nat → Bool
  | 0 => false
  | n + 1 => inCode s a || touchesCode s (a + 1#32) n

/-- `MemWrite(a, n, v)` (R58), refused where it would write into code (R68). -/
def memWrite (s : State) (a : Word32) (n : Nat) (v : BitVec (8 * n)) : Res State :=
  if touchesCode s a n then .refused .storeIntoCode else .next { s with mem := s.mem.write a n v }

/-- `SegRead(seg, off, n)`: the check, then the read (R14, R53). -/
def segRead (s : State) (seg : SegName) (off : Word32) (n : Nat) : Res (BitVec (8 * n)) :=
  match accessCheck s seg off n .read with
  | some e => raise e
  | none => .next (s.mem.read (lin s seg off) n)

/-- `SegWrite(seg, off, n, v)`: the check, then the write (R14, R53). -/
def segWrite (s : State) (seg : SegName) (off : Word32) (n : Nat) (v : BitVec (8 * n)) : Res State :=
  match accessCheck s seg off n .write with
  | some e => raise e
  | none => memWrite s (lin s seg off) n v

/-! ### Completing an instruction; noting a prefix -/

/-- An instruction completes without a transfer of control: `pc <- trunc_32(pc + L)`, where L is the number of prefix
bytes plus the bytes from the opcode on (10_state.md R29, 40_prefixes.md R130), and the decode state is cleared (R36). -/
def complete (fieldBytes : Nat) (s : State) : State :=
  { s with pc := s.pc + BitVec.ofNat 32 (s.pfx.count + fieldBytes), pfx := {} }

/-- A prefix byte sets its field of the decode state and nothing else; a repeated group is refused (R130, 30_encoding.md R85). -/
def notePrefix (f : Prefixes → Option Prefixes) (s : State) : Res State :=
  match f s.pfx with
  | some p => .next { s with pfx := p }
  | none => .refused .prefixGroupRepeated

/-! ### Width conversions (42_operation_primitives.md R190, R192, R193) -/

/-- Truncate to 16 bits (R190). -/
def truncate16 {n : Nat} (v : BitVec n) : Word16 := v.setWidth 16

/-- ZeroExtend to the operand size; a wider value is refused (R192). -/
def zeroExtend (os : AttrSize) {n : Nat} (v : BitVec n) : Res (BitVec os.bits) :=
  if n ≤ os.bits then .next (v.setWidth os.bits) else .refused .extendOfWiderValue

/-- SignExtend to the operand size; a wider value is refused (R193). -/
def signExtend (os : AttrSize) {n : Nat} (v : BitVec n) : Res (BitVec os.bits) :=
  if n ≤ os.bits then .next (v.signExtend os.bits) else .refused .extendOfWiderValue

/-! ### The stack (R194 to R196) -/

/-- The offset in SS of the top of the stack: SP zero-extended, or ESP (R55, R196 (b)). -/
def stackTop (s : State) : Word32 :=
  match s.stackAddrSize with
  | .s16 => (s.regs.r16 4#3).setWidth 32
  | .s32 => s.regs.r32 4#3

/-- Move the stack pointer: SP modulo 2^16 with bits 31 to 16 of ESP as they are, or ESP modulo 2^32 (R196). -/
def moveStack (s : State) (d : Word32) : State :=
  match s.stackAddrSize with
  | .s16 => { s with regs := s.regs.setR16 4#3 (s.regs.r16 4#3 + d.setWidth 16) }
  | .s32 => { s with regs := s.regs.setR32 4#3 (s.regs.r32 4#3 + d) }

/-- Push: the pointer goes down by OperandSize/8, then the value is stored at SS:[SP] or SS:[ESP] (R194). -/
def push (s : State) (os : AttrSize) (v : BitVec os.bits) : Res State :=
  let s' := moveStack s (0#32 - BitVec.ofNat 32 os.bytes)
  segWrite s' .ss (stackTop s') os.bytes v

/-- Pop: the value at SS:[SP] or SS:[ESP], then the pointer goes up by OperandSize/8 (R195). -/
def pop (s : State) (os : AttrSize) : Res (BitVec os.bits × State) :=
  andThen (segRead s .ss (stackTop s) os.bytes) fun v => .next (v, moveStack s (BitVec.ofNat 32 os.bytes))

/-! ### Bit strings (R197 to R200) -/

/-- DIV: signed division with rounding towards negative infinity (R199, R200). -/
def bitDiv (a n : Int) : Int := a.fdiv n

/-- MOD: `a - n * (a DIV n)` (R200). -/
def bitMod (a n : Int) : Int := a - n * bitDiv a n

/-- A bit address: a container and a bit number in it (R197). -/
inductive BitAddr where
  /-- A bit of a register. -/
  | reg (c : BitVec 3) (bit : Nat)
  /-- A bit of the memory byte at an offset of the operand's segment. -/
  | mem (off : Word32) (bit : Nat)
deriving DecidableEq, Repr

/-- `Bit[r, k]` with a doubleword or word register; an offset beyond the register is refused (R198). -/
def bitOfReg (os : AttrSize) (c : BitVec 3) (k : Nat) : Res BitAddr :=
  if k < os.bits then .next (.reg c k) else .refused .bitOffsetBeyondRegister

/-- `Bit[BitBase, BitOffset]` with a memory base: the byte at BitBase + (BitOffset DIV 8), modulo 2^AddressSize, and the
bit BitOffset MOD 8 (R199). -/
def bitOfMem (as : AttrSize) (base : Word32) (offset : Word32) : BitAddr :=
  let a := base + BitVec.ofInt 32 (bitDiv offset.toInt 8)
  let off := match as with
    | .s16 => (a.setWidth 16).setWidth 32
    | .s32 => a
  .mem off (bitMod offset.toInt 8).toNat

/-- The value of an addressed bit; a bit in memory is in the byte at its offset of the operand's segment (R197, R199). -/
def readBit (s : State) (seg : SegName) : BitAddr → Res Bool
  | .reg c k => .next ((s.regs.r32 c).getLsbD k)
  | .mem off k => andThen (segRead s seg off 1) fun b => .next (b.getLsbD k)

/-! ### I/O permission (R202, R203) -/

/-- The width of an I/O access (R202). -/
inductive IOWidth where
  | byte | word | dword
deriving DecidableEq, Repr

/-- `nBitMask` (R202). -/
def IOWidth.mask : IOWidth → Nat
  | .byte => 1
  | .word => 3
  | .dword => 15

/-- The number of ports of an access. -/
def IOWidth.ports : IOWidth → Nat
  | .byte => 1
  | .word => 2
  | .dword => 4

/-- I-O-Permission(A, width): TRUE says only that the bitmap does not forbid the access (R202, R203). -/
def ioPermission (s : State) (a : BitVec Config.ioAddrBits) (w : IOWidth) : Bool :=
  match s.tssType with
  | .tss286 => false
  | .tss386 =>
    let ptr := s.mem.read (s.tssBase + Config.ioMapBaseOffset) 2
    let bitStringAddr := a.toNat / 8 + ptr.toNat
    let mask := w.mask <<< (a.toNat % 8)
    let checkString := (s.mem.read (s.tssBase + BitVec.ofNat 32 bitStringAddr) 2).toNat &&& mask
    checkString == 0

/-! ### Task switch (R204) -/

/-- Switch-Tasks: no meaning in the spec (R204). -/
def switchTasks (_ : State) : Res State := .refused .taskSwitchNotInSource

/-! ### What the decoder's refusals are in the machine -/

/-- The refusal of the machine for a refusal of the decoder. -/
def refusalOf : DecodeStop → Refusal
  | .prefixGroupRepeated => .prefixGroupRepeated
  | .opcodeNotInSource op => .opcodeNotInSource op
  | .instructionTooLong => .instructionTooLong
  | .sregCodeUnassigned => .sregCodeUnassigned
  | .registerWhereMemoryRequired => .registerWhereMemoryRequired

end Sys2Proof.Machine
end

