-- ==== Sys2Proof/Machine/Flags.lean ====
section
/-!
DEFINITION. The flag computations. The spec names one flag, the carry flag, and one computation on it (10_state.md R27,
43_flag_control.md R210).
-/

namespace Sys2Proof.Machine

/-- `CF <- NOT CF` (R210). -/
def complementCarry (s : State) : State := { s with cf := !s.cf }

end Sys2Proof.Machine
end

