-- ==== Sys2Proof/Machine/FlagControl.lean ====
section
/-!
DEFINITION. The meaning of the flag-control row: CMC (43_flag_control.md R210, R211).
-/

namespace Sys2Proof.Machine

/-- CMC: `CF <- NOT CF; pc <- trunc_32(pc + L)`, with one opcode byte after the prefixes (R210). A segment override, 66H
or 67H changes the length alone (R144, R211); a repeat prefix and LOCK are refused (R145). -/
def execCmc (s : State) : Res State :=
  if s.pfx.rep.isSome then .refused .repOnNonString
  else if s.pfx.lock then .refused .lockNotDefined
  else .next (complete 1 (complementCarry s))

end Sys2Proof.Machine
end

