-- ==== Sys2Proof/Machine/PrefixRows.lean ====
section
/-!
DEFINITION. The meanings of the twelve prefix rows (40_prefixes.md R130 to R143).

A prefix byte has one effect: it sets its field of the decode state. It does not move `pc`; the instruction it belongs
to does, by a length that counts it (R130, R146). Each row has a definition of its own over `notePrefix`.
-/

namespace Sys2Proof.Machine

/-- REP: `pfx.rep <- F3` (R131). -/
def execRep (s : State) : Res State := notePrefix (Prefixes.withRep .f3) s

/-- REPE, REPZ: `pfx.rep <- F3` (R132). -/
def execRepeRepz (s : State) : Res State := notePrefix (Prefixes.withRep .f3) s

/-- REPNE, REPNZ: `pfx.rep <- F2` (R133). -/
def execRepneRepnz (s : State) : Res State := notePrefix (Prefixes.withRep .f2) s

/-- LOCK: `pfx.lock <- true` (R134). -/
def execLock (s : State) : Res State := notePrefix Prefixes.withLock s

/-- CS segment override: `pfx.seg <- CS` (R135). -/
def execCsOverride (s : State) : Res State := notePrefix (Prefixes.withSeg .cs) s

/-- SS segment override: `pfx.seg <- SS` (R136). -/
def execSsOverride (s : State) : Res State := notePrefix (Prefixes.withSeg .ss) s

/-- DS segment override: `pfx.seg <- DS` (R137). -/
def execDsOverride (s : State) : Res State := notePrefix (Prefixes.withSeg .ds) s

/-- ES segment override: `pfx.seg <- ES` (R138). -/
def execEsOverride (s : State) : Res State := notePrefix (Prefixes.withSeg .es) s

/-- FS segment override: `pfx.seg <- FS` (R139). -/
def execFsOverride (s : State) : Res State := notePrefix (Prefixes.withSeg .fs) s

/-- GS segment override: `pfx.seg <- GS` (R140). -/
def execGsOverride (s : State) : Res State := notePrefix (Prefixes.withSeg .gs) s

/-- Operand-size override: `pfx.opsize <- true` (R142). -/
def execOpSize (s : State) : Res State := notePrefix Prefixes.withOpSize s

/-- Address-size override: `pfx.adsize <- true` (R143). -/
def execAdSize (s : State) : Res State := notePrefix Prefixes.withAdSize s

end Sys2Proof.Machine
end

