-- ==== Sys2Proof/Machine/Dispatch.lean ====
section
/-!
DEFINITION. One arm per row of spec/opcode_table.json, each one call of its meaning.
-/

namespace Sys2Proof.Machine

/-- The meaning of a row. -/
def exec (i : Instr) (s : State) : Host.Outcome State Fault Refusal :=
  match i with
  | .cmc => Sys2Proof.Machine.execCmc s
  | .rep => Sys2Proof.Machine.execRep s
  | .repeRepz => Sys2Proof.Machine.execRepeRepz s
  | .repneRepnz => Sys2Proof.Machine.execRepneRepnz s
  | .lock => Sys2Proof.Machine.execLock s
  | .csOverride => Sys2Proof.Machine.execCsOverride s
  | .ssOverride => Sys2Proof.Machine.execSsOverride s
  | .dsOverride => Sys2Proof.Machine.execDsOverride s
  | .esOverride => Sys2Proof.Machine.execEsOverride s
  | .fsOverride => Sys2Proof.Machine.execFsOverride s
  | .gsOverride => Sys2Proof.Machine.execGsOverride s
  | .opSize => Sys2Proof.Machine.execOpSize s
  | .adSize => Sys2Proof.Machine.execAdSize s

end Sys2Proof.Machine
end

