-- ==== Sys2Proof/Machine/Fetch.lean ====
section
/-!
DEFINITION. Fetching an instruction and running it: the window of bytes at `pc`, and the step over any meaning of the
rows (10_state.md R28, 30_encoding.md R120, 60_exceptions.md R240).
-/

namespace Sys2Proof.Machine

/-- The bytes at an offset of CS, up to a number of them, each after its own check; and the exception of the first byte
that may not be fetched (R28, R53, R240). -/
def fetchFrom (s : State) : Nat → Word32 → List Byte × Option Exn
  | 0, _ => ([], none)
  | n + 1, off =>
    match accessCheck s .cs off 1 .fetch with
    | some e => ([], some e)
    | none =>
      let w := fetchFrom s n (off + 1#32)
      (s.mem.byteAt (lin s .cs off) :: w.1, w.2)

/-- The decode state at the start of every instruction (R36, R130). -/
def startInstr (s : State) : State := { s with pfx := {} }

/-- Run rows one after another, each on the state the one before it left. -/
def runRows (f : Instr → State → Res State) : List Instr → State → Res State
  | [], s => .next s
  | i :: rest, s => andThen (f i s) (runRows f rest)

/-- One whole instruction: fetch, decode, then the prefix rows in order and the opcode's row. A byte the decoder needs
and may not fetch raises its exception (R146, R240); bytes that never end are too long (R112). -/
def stepWith (f : Instr → State → Res State) (s : State) : Res State :=
  let w := fetchFrom s Config.maxInstrLen s.pc
  match decode s.defaultOperandSize s.defaultAddressSize w.1 with
  | .ok d _ => runRows f (d.prefixes ++ [d.op]) (startInstr s)
  | .refuse r => .refused (refusalOf r)
  | .short =>
    match w.2 with
    | some e => raise e
    | none => .refused .instructionTooLong

/-- The state with bytes stored where the next instruction is fetched: the first at `Lin(CS, pc)`. -/
def placeAtFetch (s : State) (bs : List Byte) : State := { s with mem := s.mem.put (lin s .cs s.pc) bs }

end Sys2Proof.Machine
end

