-- ==== Sys2Proof/Machine/Step.lean ====
section
/-!
DEFINITION. The step: one whole instruction at `pc` (log entry 1); and where the host stores an instruction.
-/

namespace Sys2Proof.Machine

/-- One step of the machine. -/
def step (s : State) : Host.Outcome State Fault Refusal := stepWith exec s

/-- The state with a table word stored where the next instruction is fetched (log entry 10). -/
def State.withFetchWord (s : State) (nbits w : Nat) : State := placeAtFetch s (tableBytes nbits w)

end Sys2Proof.Machine
end

