-- ==== Sys2Proof/Machine/Operands.lean ====
section
/-!
DEFINITION. The operand forms: effective addresses and their segments (41_addressing.md), r/m, moffs, string, immediate,
far-pointer and paired operands, and relative code addresses (30_encoding.md R96 to R109, 44_named_instructions.md).
-/

namespace Sys2Proof.Machine

/-! ### Displacements -/

/-- The displacement as a 16-bit term: disp8 sign-extended, disp16 as it is, none 0 (R157, R167). -/
def disp16Of : Disp → Word16
  | .none => 0#16
  | .d8 v => v.signExtend 16
  | .d16 v => v
  | .d32 v => v.setWidth 16

/-- The displacement as a 32-bit term: disp8 sign-extended, disp32 as it is, none 0 (R165, R167). -/
def disp32Of : Disp → Word32
  | .none => 0#32
  | .d8 v => v.signExtend 32
  | .d16 v => v.setWidth 32
  | .d32 v => v

/-! ### 16-bit addressing (R154 to R158) -/

/-- The registers of a 16-bit form, by r/m; r/m 110 has none under mod 00 (R157). -/
def regs16 (r : Regs) (mod : BitVec 2) (rm : BitVec 3) : Word16 :=
  let bx := r.r16 3#3
  let bp := r.r16 5#3
  let si := r.r16 6#3
  let di := r.r16 7#3
  match rm.toNat with
  | 0 => bx + si
  | 1 => bx + di
  | 2 => bp + si
  | 3 => bp + di
  | 4 => si
  | 5 => di
  | 6 => if mod = 0#2 then 0#16 else bp
  | _ => bx

/-- The 16-bit effective address: sums modulo 2^16, zero-extended (R157). -/
def ea16 (r : Regs) (a : AddrSpec) : Word32 := (regs16 r a.modrm.mod a.modrm.rm + disp16Of a.disp).setWidth 32

/-- The default segment of a 16-bit form: SS for those with BP, DS for the others (R158). -/
def defaultSeg16 (a : AddrSpec) : SegName :=
  if a.modrm.rm = 2#3 ∨ a.modrm.rm = 3#3 ∨ (a.modrm.rm = 6#3 ∧ a.modrm.mod ≠ 0#2) then .ss else .ds

/-! ### 32-bit addressing (R159 to R166) -/

/-- The scaled index of a SIB byte; index 100 means none under every scale (R163). -/
def scaledIndex (r : Regs) (x : SIB) : Word32 :=
  if x.index = 4#3 then 0#32 else r.r32 x.index * BitVec.ofNat 32 (2 ^ x.ss.toNat)

/-- The base register of a SIB byte; base 101 means none under mod 00 (R164). -/
def sibBase (r : Regs) (mod : BitVec 2) (x : SIB) : Word32 :=
  if x.base = 5#3 ∧ mod = 0#2 then 0#32 else r.r32 x.base

/-- The registers of a 32-bit form (R165). -/
def regs32 (r : Regs) (a : AddrSpec) : Word32 :=
  match a.sib with
  | some x => sibBase r a.modrm.mod x + scaledIndex r x
  | none => if a.modrm.mod = 0#2 ∧ a.modrm.rm = 5#3 then 0#32 else r.r32 a.modrm.rm

/-- The 32-bit effective address: products and sums modulo 2^32 (R165). -/
def ea32 (r : Regs) (a : AddrSpec) : Word32 := regs32 r a + disp32Of a.disp

/-- The default segment of a 32-bit form: SS when the base register is EBP or ESP, DS otherwise (R166). -/
def defaultSeg32 (a : AddrSpec) : SegName :=
  match a.sib with
  | some x => if x.base = 4#3 ∨ (x.base = 5#3 ∧ a.modrm.mod ≠ 0#2) then .ss else .ds
  | none => if a.modrm.rm = 5#3 ∧ a.modrm.mod ≠ 0#2 then .ss else .ds

/-! ### The address of an operand (R141, R171, R191) -/

/-- The effective address by the address size (R171). -/
def ea (s : State) (a : AddrSpec) : Word32 :=
  match s.addressSize with
  | .s16 => ea16 s.regs a
  | .s32 => ea32 s.regs a

/-- The default segment by the address size (R158, R166). -/
def defaultSeg (s : State) (a : AddrSpec) : SegName :=
  match s.addressSize with
  | .s16 => defaultSeg16 a
  | .s32 => defaultSeg32 a

/-- The segment of an overridable operand: the override if there is one (40_prefixes.md R141). -/
def segOrOverride (s : State) (dflt : SegName) : SegName := s.pfx.seg.getD dflt

/-- The segment and offset of an operand that must be in memory; mod = 11 is refused (30_encoding.md R116). -/
def memOperand (s : State) (a : AddrSpec) : Res (SegName × Word32) :=
  if a.modrm.mod = 3#2 then .refused .registerWhereMemoryRequired
  else .next (segOrOverride s (defaultSeg s a), ea s a)

/-- Addr(operand): the effective address, not a linear address; refused for a register (R191). -/
def addrOf (s : State) (a : AddrSpec) : Res Word32 :=
  if a.modrm.mod = 3#2 then .refused .addrOfRegister else .next (ea s a)

/-! ### r/m operands (R171) -/

/-- ReadRM: the register with code r/m under mod 11, else memory (R171). -/
def readRM (s : State) (w : OpWidth) (a : AddrSpec) : Res (BitVec w.bits) :=
  if a.modrm.mod = 3#2 then .next (s.regs.read w a.modrm.rm)
  else segRead s (segOrOverride s (defaultSeg s a)) (ea s a) w.bytes

/-- WriteRM (R171). -/
def writeRM (s : State) (w : OpWidth) (a : AddrSpec) (v : BitVec w.bits) : Res State :=
  if a.modrm.mod = 3#2 then .next { s with regs := s.regs.write w a.modrm.rm v }
  else segWrite s (segOrOverride s (defaultSeg s a)) (ea s a) w.bytes v

/-- The register operand of a /r form, by the reg field (R151). -/
def readReg (s : State) (w : OpWidth) (a : AddrSpec) : BitVec w.bits := s.regs.read w a.modrm.reg

/-- The Sreg operand of a /r form, by the reg field (R109, R151). -/
def readSreg (s : State) (a : AddrSpec) : Res Word16 := sregRead s a.modrm.reg

/-- The +rb, +rw or +rd operand of a form, by the code in its opcode byte (R94). -/
def readOpReg (s : State) (w : OpWidth) (f : Form) (x : Fields) : BitVec w.bits := s.regs.read w (f.opRegCode x)

/-! ### moffs operands (R108, R172) -/

/-- The effective address of a moffs operand: its offset, zero-extended (R172). -/
def moffsEA : MoffsField → Word32
  | .o16 v => v.setWidth 32
  | .o32 v => v

/-- Read a moffs variable: DS or the override (R172). -/
def readMoffs (s : State) (w : OpWidth) (o : MoffsField) : Res (BitVec w.bits) :=
  segRead s (segOrOverride s .ds) (moffsEA o) w.bytes

/-- Write a moffs variable (R172). -/
def writeMoffs (s : State) (w : OpWidth) (o : MoffsField) (v : BitVec w.bits) : Res State :=
  segWrite s (segOrOverride s .ds) (moffsEA o) w.bytes v

/-! ### String operands (R104, R220) -/

/-- The DS:SI operand: DS or the override. The registers under AddressSize = 32 are not in the source (R220). -/
def stringSource (s : State) : Res (SegName × Word32) :=
  match s.addressSize with
  | .s16 => .next (segOrOverride s .ds, (s.regs.r16 6#3).setWidth 32)
  | .s32 => .refused .stringAddressNotInSource

/-- The ES:DI operand, which no override changes (R141, R220). -/
def stringDest (s : State) : Res (SegName × Word32) :=
  match s.addressSize with
  | .s16 => .next (.es, (s.regs.r16 7#3).setWidth 32)
  | .s32 => .refused .stringAddressNotInSource

/-- Read an m8, m16 or m32 string operand at a segment and offset (R104). -/
def readString (s : State) (w : OpWidth) (at' : Res (SegName × Word32)) : Res (BitVec w.bits) :=
  andThen at' fun p => segRead s p.1 p.2 w.bytes

/-- Write an m8, m16 or m32 string operand (R104). -/
def writeString (s : State) (w : OpWidth) (at' : Res (SegName × Word32)) (v : BitVec w.bits) : Res State :=
  andThen at' fun p => segWrite s p.1 p.2 w.bytes v

/-! ### Immediates (R102) -/

/-- imm8 with an operand of a width: sign-extended to a word or doubleword, itself with a byte (R102). -/
def imm8With (w : OpWidth) (v : Byte) : BitVec w.bits := v.signExtend w.bits

/-! ### Far pointers (R97, R98, R105) -/

/-- A far pointer: selector and offset (R97). -/
structure FarPtr where
  selector : Word16
  offset : Word32
deriving DecidableEq, Repr

/-- ptr16:16 and m16:16: the offset in the low word, the selector above it (R98). -/
def farOf16 (v : Word32) : FarPtr := { selector := v.extractLsb' 16 16, offset := (v.extractLsb' 0 16).setWidth 32 }

/-- ptr16:32 and m16:32: the offset in the low doubleword, the selector above it (R98). -/
def farOf32 (v : BitVec 48) : FarPtr := { selector := v.extractLsb' 32 16, offset := v.extractLsb' 0 32 }

/-- The far pointer in a code offset: cd under OperandSize 16, cp under OperandSize 32 (R92, R97). -/
def farOfCode (os : AttrSize) (c : CodeField) : Option FarPtr :=
  match os, c with
  | .s16, .cd v => some (farOf16 v)
  | .s32, .cp v => some (farOf32 v)
  | _, _ => none

/-- m16:16 or m16:32, by the operand size (R105, R62). -/
def readFar (s : State) (os : AttrSize) (a : AddrSpec) : Res FarPtr :=
  andThen (memOperand s a) fun p =>
    match os with
    | .s16 => andThen (segRead s p.1 p.2 4) fun v => .next (farOf16 v)
    | .s32 => andThen (segRead s p.1 p.2 6) fun v => .next (farOf32 v)

/-! ### Paired operands (R106, R107) -/

/-- m16 & 16: the lower bound at the lower address (R107). -/
def readPair16 (s : State) (a : AddrSpec) : Res (Word16 × Word16) :=
  andThen (memOperand s a) fun p =>
    andThen (segRead s p.1 p.2 4) fun v => .next (v.extractLsb' 0 16, v.extractLsb' 16 16)

/-- m32 & 32 (R107). -/
def readPair32 (s : State) (a : AddrSpec) : Res (Word32 × Word32) :=
  andThen (memOperand s a) fun p =>
    andThen (segRead s p.1 p.2 8) fun v => .next (v.extractLsb' 0 32, v.extractLsb' 32 32)

/-- m16 & 32: the limit word at the operand, the base doubleword at the operand + 2, two reads as R217 writes them. -/
def readTable (s : State) (a : AddrSpec) : Res TableReg :=
  andThen (memOperand s a) fun p =>
    andThen (segRead s p.1 p.2 2) fun limit =>
      andThen (segRead s p.1 (p.2 + 2#32) 4) fun base => .next { limit := limit, base := base }

/-! ### Operands by their class (R91, R94, R103, R105, R106, R108, R121) -/

/-- The value of an operand: a byte, word or doubleword, or the two parts of a memory-only operand. -/
inductive OperandValue where
  | byte (v : Byte)
  | word (v : Word16)
  | dword (v : Word32)
  | far (p : FarPtr)
  | bounds16 (lower upper : Word16)
  | bounds32 (lower upper : Word32)
  | table (t : TableReg)
deriving DecidableEq, Repr

/-- A value of a width, as an operand value. -/
def valueOf (w : OpWidth) (v : BitVec w.bits) : OperandValue :=
  match w, v with
  | .w8, v => .byte v
  | .w16, v => .word v
  | .w32, v => .dword v

/-- The register operand of a /r form, in the file its class names (R91, R121, R151). -/
def readRegOf (s : State) (c : RegClass) (a : AddrSpec) : Res OperandValue :=
  match c.width with
  | some w => .next (valueOf w (readReg s w a))
  | none => andThen (readSreg s a) fun v => .next (.word v)

/-- The r/m operand of a form, at the width or in the two parts that its class names (R103, R105, R106, R121, R171). -/
def readRmOf (s : State) (c : RmClass) (a : AddrSpec) : Res OperandValue :=
  match c with
  | .rm8 => andThen (readRM s .w8 a) fun v => .next (.byte v)
  | .rm16 => andThen (readRM s .w16 a) fun v => .next (.word v)
  | .rm32 => andThen (readRM s .w32 a) fun v => .next (.dword v)
  | .far16 => andThen (readFar s .s16 a) fun p => .next (.far p)
  | .far32 => andThen (readFar s .s32 a) fun p => .next (.far p)
  | .pair16x16 => andThen (readPair16 s a) fun p => .next (.bounds16 p.1 p.2)
  | .pair32x32 => andThen (readPair32 s a) fun p => .next (.bounds32 p.1 p.2)
  | .pair16x32 => andThen (readTable s a) fun t => .next (.table t)

/-- The register that the opcode byte of a +rb, +rw or +rd form names; no other form has one (R94, R121). -/
def readOpRegOf (s : State) (f : Form) (x : Fields) : Option OperandValue :=
  f.opReg.width.map fun w => valueOf w (readOpReg s w f x)

/-- The variable of a moffs operand, at the width its class names (R108, R172). -/
def readMoffsOf (s : State) (c : MoffsClass) (o : MoffsField) : Res OperandValue :=
  andThen (readMoffs s c.width o) fun v => .next (valueOf c.width v)

/-! ### Relative code addresses (R96) -/

/-- The displacement of a relative code address; cp holds a far pointer (R92, R96). -/
def relOfCode : CodeField → Option Word32
  | .cb v => some (v.signExtend 32)
  | .cw v => some (v.signExtend 32)
  | .cd v => some v
  | .cp _ => none

/-- The target offset: the end of the instruction plus the displacement, modulo 2^32, cut to 16 bits when
OperandSize = 16 (R96, decision D5). -/
def relTarget (os : AttrSize) (endOfInstr : Word32) (rel : Word32) : Word32 :=
  match os with
  | .s16 => ((endOfInstr + rel).setWidth 16).setWidth 32
  | .s32 => endOfInstr + rel

end Sys2Proof.Machine
end

