-- ==== Sys2Proof/Machine/AddressTables.lean ====
section
/-!
DEFINITION. Tables 17-2, 17-3 and 17-4 row by row, as 41_addressing.md R168, R169 and R170 print them.

The effective addresses of Machine/Operands.lean follow the pseudocode of R157 and R165; these rows follow the tables.
Statements say that the two agree.
-/

namespace Sys2Proof.Machine

/-- A row of Table 17-2 or 17-3: its mod and r/m, the registers of its effective address, its displacement, its default
segment, and whether a SIB byte gives the rest ("[--][--]"). -/
structure AddrRow where
  mod : BitVec 2
  rm : BitVec 3
  regs : List Reg
  disp : DispSize := .none
  seg : SegName := .ds
  sib : Bool := false
deriving DecidableEq, Repr

/-- The 24 indexing rows of Table 17-2 (R168). -/
def table17_2 : List AddrRow :=
  [ { mod := 0#2, rm := 0#3, regs := [.ebx, .esi] },
    { mod := 0#2, rm := 1#3, regs := [.ebx, .edi] },
    { mod := 0#2, rm := 2#3, regs := [.ebp, .esi], seg := .ss },
    { mod := 0#2, rm := 3#3, regs := [.ebp, .edi], seg := .ss },
    { mod := 0#2, rm := 4#3, regs := [.esi] },
    { mod := 0#2, rm := 5#3, regs := [.edi] },
    { mod := 0#2, rm := 6#3, regs := [], disp := .d16 },
    { mod := 0#2, rm := 7#3, regs := [.ebx] },
    { mod := 1#2, rm := 0#3, regs := [.ebx, .esi], disp := .d8 },
    { mod := 1#2, rm := 1#3, regs := [.ebx, .edi], disp := .d8 },
    { mod := 1#2, rm := 2#3, regs := [.ebp, .esi], disp := .d8, seg := .ss },
    { mod := 1#2, rm := 3#3, regs := [.ebp, .edi], disp := .d8, seg := .ss },
    { mod := 1#2, rm := 4#3, regs := [.esi], disp := .d8 },
    { mod := 1#2, rm := 5#3, regs := [.edi], disp := .d8 },
    { mod := 1#2, rm := 6#3, regs := [.ebp], disp := .d8, seg := .ss },
    { mod := 1#2, rm := 7#3, regs := [.ebx], disp := .d8 },
    { mod := 2#2, rm := 0#3, regs := [.ebx, .esi], disp := .d16 },
    { mod := 2#2, rm := 1#3, regs := [.ebx, .edi], disp := .d16 },
    { mod := 2#2, rm := 2#3, regs := [.ebp, .esi], disp := .d16, seg := .ss },
    { mod := 2#2, rm := 3#3, regs := [.ebp, .edi], disp := .d16, seg := .ss },
    { mod := 2#2, rm := 4#3, regs := [.esi], disp := .d16 },
    { mod := 2#2, rm := 5#3, regs := [.edi], disp := .d16 },
    { mod := 2#2, rm := 6#3, regs := [.ebp], disp := .d16, seg := .ss },
    { mod := 2#2, rm := 7#3, regs := [.ebx], disp := .d16 } ]

/-- The 24 indexing rows of Table 17-3 (R169). -/
def table17_3 : List AddrRow :=
  [ { mod := 0#2, rm := 0#3, regs := [.eax] },
    { mod := 0#2, rm := 1#3, regs := [.ecx] },
    { mod := 0#2, rm := 2#3, regs := [.edx] },
    { mod := 0#2, rm := 3#3, regs := [.ebx] },
    { mod := 0#2, rm := 4#3, regs := [], sib := true },
    { mod := 0#2, rm := 5#3, regs := [], disp := .d32 },
    { mod := 0#2, rm := 6#3, regs := [.esi] },
    { mod := 0#2, rm := 7#3, regs := [.edi] },
    { mod := 1#2, rm := 0#3, regs := [.eax], disp := .d8 },
    { mod := 1#2, rm := 1#3, regs := [.ecx], disp := .d8 },
    { mod := 1#2, rm := 2#3, regs := [.edx], disp := .d8 },
    { mod := 1#2, rm := 3#3, regs := [.ebx], disp := .d8 },
    { mod := 1#2, rm := 4#3, regs := [], disp := .d8, sib := true },
    { mod := 1#2, rm := 5#3, regs := [.ebp], disp := .d8, seg := .ss },
    { mod := 1#2, rm := 6#3, regs := [.esi], disp := .d8 },
    { mod := 1#2, rm := 7#3, regs := [.edi], disp := .d8 },
    { mod := 2#2, rm := 0#3, regs := [.eax], disp := .d32 },
    { mod := 2#2, rm := 1#3, regs := [.ecx], disp := .d32 },
    { mod := 2#2, rm := 2#3, regs := [.edx], disp := .d32 },
    { mod := 2#2, rm := 3#3, regs := [.ebx], disp := .d32 },
    { mod := 2#2, rm := 4#3, regs := [], disp := .d32, sib := true },
    { mod := 2#2, rm := 5#3, regs := [.ebp], disp := .d32, seg := .ss },
    { mod := 2#2, rm := 6#3, regs := [.esi], disp := .d32 },
    { mod := 2#2, rm := 7#3, regs := [.edi], disp := .d32 } ]

/-- A row of Table 17-4: ss and index, and the scaled index they give. -/
structure ScaleRow where
  ss : BitVec 2
  index : BitVec 3
  scaled : Option (Reg × Nat)
deriving DecidableEq, Repr

/-- The 32 rows of Table 17-4 (R170). -/
def table17_4 : List ScaleRow :=
  [ { ss := 0#2, index := 0#3, scaled := some (.eax, 1) },
    { ss := 0#2, index := 1#3, scaled := some (.ecx, 1) },
    { ss := 0#2, index := 2#3, scaled := some (.edx, 1) },
    { ss := 0#2, index := 3#3, scaled := some (.ebx, 1) },
    { ss := 0#2, index := 4#3, scaled := none },
    { ss := 0#2, index := 5#3, scaled := some (.ebp, 1) },
    { ss := 0#2, index := 6#3, scaled := some (.esi, 1) },
    { ss := 0#2, index := 7#3, scaled := some (.edi, 1) },
    { ss := 1#2, index := 0#3, scaled := some (.eax, 2) },
    { ss := 1#2, index := 1#3, scaled := some (.ecx, 2) },
    { ss := 1#2, index := 2#3, scaled := some (.edx, 2) },
    { ss := 1#2, index := 3#3, scaled := some (.ebx, 2) },
    { ss := 1#2, index := 4#3, scaled := none },
    { ss := 1#2, index := 5#3, scaled := some (.ebp, 2) },
    { ss := 1#2, index := 6#3, scaled := some (.esi, 2) },
    { ss := 1#2, index := 7#3, scaled := some (.edi, 2) },
    { ss := 2#2, index := 0#3, scaled := some (.eax, 4) },
    { ss := 2#2, index := 1#3, scaled := some (.ecx, 4) },
    { ss := 2#2, index := 2#3, scaled := some (.edx, 4) },
    { ss := 2#2, index := 3#3, scaled := some (.ebx, 4) },
    { ss := 2#2, index := 4#3, scaled := none },
    { ss := 2#2, index := 5#3, scaled := some (.ebp, 4) },
    { ss := 2#2, index := 6#3, scaled := some (.esi, 4) },
    { ss := 2#2, index := 7#3, scaled := some (.edi, 4) },
    { ss := 3#2, index := 0#3, scaled := some (.eax, 8) },
    { ss := 3#2, index := 1#3, scaled := some (.ecx, 8) },
    { ss := 3#2, index := 2#3, scaled := some (.edx, 8) },
    { ss := 3#2, index := 3#3, scaled := some (.ebx, 8) },
    { ss := 3#2, index := 4#3, scaled := none },
    { ss := 3#2, index := 5#3, scaled := some (.ebp, 8) },
    { ss := 3#2, index := 6#3, scaled := some (.esi, 8) },
    { ss := 3#2, index := 7#3, scaled := some (.edi, 8) } ]

/-- The eight base columns of Table 17-4, "[*]" being EBP or nothing (R164, R170). -/
def baseColumn (mod : BitVec 2) (base : BitVec 3) : Option Reg :=
  match base.toNat with
  | 0 => some .eax
  | 1 => some .ecx
  | 2 => some .edx
  | 3 => some .ebx
  | 4 => some .esp
  | 5 => if mod = 0#2 then none else some .ebp
  | 6 => some .esi
  | _ => some .edi

/-- The row of a table for a mod and r/m; there is none for mod 11. -/
def AddrRow.find (t : List AddrRow) (mod : BitVec 2) (rm : BitVec 3) : Option AddrRow :=
  t.find? fun r => r.mod == mod && r.rm == rm

/-- The cell of a row for a reg field: the ModR/M byte `64*mod + 8*reg + rm` (R150). -/
def AddrRow.cell (r : AddrRow) (reg : BitVec 3) : Nat := 64 * r.mod.toNat + 8 * reg.toNat + r.rm.toNat

/-- The row of Table 17-4 for a SIB byte. -/
def ScaleRow.find (ss : BitVec 2) (index : BitVec 3) : Option ScaleRow :=
  table17_4.find? fun r => r.ss == ss && r.index == index

/-- The cell of a row for a base column: the SIB byte `64*ss + 8*index + base` (R87, R170). -/
def ScaleRow.cell (r : ScaleRow) (base : BitVec 3) : Nat := 64 * r.ss.toNat + 8 * r.index.toNat + base.toNat

/-- A displacement as a number: disp8 the signed value of its byte, disp16 and disp32 as they are; sums are taken
modulo 2^16 or 2^32 (R155, R156, R160, R161). -/
def dispValue : Disp → Int
  | .none => 0
  | .d8 v => v.toInt
  | .d16 v => v.toNat
  | .d32 v => v.toNat

/-- A Table 17-2 row as a number: the low halves of its registers and the displacement, added modulo 2^16. -/
def AddrRow.value16 (r : AddrRow) (g : Regs) (d : Disp) : Int :=
  (((r.regs.map fun x => (g.get x).toNat % 2 ^ 16).sum : Nat) + dispValue d) % 2 ^ 16

/-- A Table 17-3 row without SIB as a number: its register and the displacement, added modulo 2^32. -/
def AddrRow.value32 (r : AddrRow) (g : Regs) (d : Disp) : Int :=
  (((r.regs.map fun x => (g.get x).toNat).sum : Nat) + dispValue d) % 2 ^ 32

/-- A Table 17-4 form as a number: base column, scaled index and displacement, added modulo 2^32. -/
def ScaleRow.value32 (r : ScaleRow) (g : Regs) (mod : BitVec 2) (base : BitVec 3) (d : Disp) : Int :=
  ((((baseColumn mod base).elim 0 fun x => (g.get x).toNat) + (r.scaled.elim 0 fun p => (g.get p.1).toNat * p.2) : Nat)
    + dispValue d) % 2 ^ 32

end Sys2Proof.Machine
end

