-- ==== Sys2Proof/Machine/Run.lean ====
section
/-!
DEFINITION. A run and its end (70_reset_and_hazards.md R263).
-/

namespace Sys2Proof.Machine

/-- How a run of at most some number of steps ended. -/
inductive RunEnd where
  /-- `pc = P_EndPc` at the start of a step: the normal end (R263). -/
  | ended (s : State)
  /-- A fault (60_exceptions.md R241). -/
  | fault (f : Fault)
  /-- A refusal (00_scope.md R15). -/
  | refused (r : Refusal)
  /-- The steps allowed were used up. -/
  | running (s : State)
deriving DecidableEq, Repr

/-- A run of at most `fuel` steps: it ends where `pc` is `P_EndPc` at the start of a step, or at a fault or a refusal (R263). -/
def runSteps : Nat → State → RunEnd
  | 0, s => if s.pc = s.endPc then .ended s else .running s
  | n + 1, s =>
    if s.pc = s.endPc then .ended s
    else
      match step s with
      | .next s' => runSteps n s'
      | .fault f => .fault f
      | .refused r => .refused r

end Sys2Proof.Machine
end

