-- ==== Sys2Proof/Machine/SystemTables.lean ====
section
/-!
DEFINITION. What the spec says of the instructions it names without an opcode (44_named_instructions.md R215 to R222).

None of them has a row in the opcode table, so no step reaches these operations; they are the effects and operands that
the spec does fix. String, moffs, far-pointer, paired and code-offset operands are in Machine/Operands.lean.
-/

namespace Sys2Proof.Machine

/-- LGDT's effect: limit and base of GDTR from an m16 & 32 operand (R217, 10_state.md R30). -/
def loadGDTR (s : State) (a : AddrSpec) : Res State :=
  andThen (readTable s a) fun t => .next { s with gdtr := t }

/-- LIDT's effect: limit and base of IDTR from an m16 & 32 operand (R218). -/
def loadIDTR (s : State) (a : AddrSpec) : Res State :=
  andThen (readTable s a) fun t => .next { s with idtr := t }

/-- BOUND's operand: lower and upper bound, words or doublewords by the operand size, zero-extended here to 32 bits for
one type (R216; the comparison is not in the source). -/
def boundOperand (s : State) (os : AttrSize) (a : AddrSpec) : Res (Word32 × Word32) :=
  match os with
  | .s16 => andThen (readPair16 s a) fun p => .next (p.1.setWidth 32, p.2.setWidth 32)
  | .s32 => readPair32 s a

end Sys2Proof.Machine
end

