-- ==== Sys2Proof/Machine/Timing.lean ====
section
/-!
DEFINITION. The "Clocks" column: what 70_reset_and_hazards.md R266 to R271 fix. No step reads any of it: the machine has
no time (R272).
-/

namespace Sys2Proof.Machine

/-- A clock count of an instruction page: one number, or one for a register and one for a memory operand (R267). -/
inductive Clocks where
  | fixed (n : Nat)
  | slash (regOperand memOperand : Nat)
deriving DecidableEq, Repr

/-- The count that applies, by the kind of the r/m operand (R267). -/
def Clocks.count (c : Clocks) (memory : Bool) : Nat :=
  match c with
  | .fixed n => n
  | .slash r m => if memory then m else r

/-- The clocks of a row; a prefix row has no count in the source. CMC takes 2 in every mode (R271). -/
def clocksOf : Instr → Option Clocks
  | .cmc => some (.fixed 2)
  | .rep | .repeRepz | .repneRepnz | .lock | .csOverride | .ssOverride | .dsOverride | .esOverride | .fsOverride
  | .gsOverride | .opSize | .adSize => none

/-- `m`, the number of components of an instruction: the whole displacement is one, the whole immediate data is one, and
every other byte is one (R268). -/
def components (prefixBytes : Nat) (x : Fields) : Nat :=
  prefixBytes + x.opcode.length
    + (match x.addr with
        | none => 0
        | some a => 1 + a.sib.isSome.toNat + (a.disp != .none).toNat)
    + (if x.moffs.isSome then 1 else 0)
    + (if x.code.isSome then 1 else 0)
    + (if x.imms.isEmpty then 0 else 1)

/-- A task as Table 17-5 tells tasks apart: 386 TSS with VM = 0 or 1, or 286 TSS (R269, R270). -/
inductive TaskKind where
  | tss386vm0 | tss386vm1 | tss286
deriving DecidableEq, Repr

/-- Table 17-5, clocks of a task switch to a 386 TSS with VM = 0, by the old task (R270). -/
def taskSwitchClocks : TaskKind → Nat
  | .tss386vm0 => 309
  | .tss386vm1 => 314
  | .tss286 => 307

/-- The second number of each row of Table 17-5, whose column the source does not tell (R270, decision D31). -/
def taskSwitchClocksUncertain : TaskKind → Nat
  | .tss386vm0 => 282
  | .tss386vm1 => 231
  | .tss286 => 282

end Sys2Proof.Machine
end

