-- ==== Sys2Proof/Safety.lean ====
section
/-!
DEFINITION. What counts as a good state and a safe run, in the terms the statements use.
-/

namespace Sys2Proof.Machine

/-- The invariant of the machine: memory and the I/O space are in canonical form, and between instructions the decode
state is clear (10_state.md R36). -/
def State.inv (s : State) : Bool := s.mem.wf && s.io.ioWf && s.pfx == {}

/-- The bytes `bs` stand at the fetch position and each may be fetched (20_memory.md R53, 10_state.md R28). -/
def State.holdsCode (s : State) (bs : List Byte) : Prop :=
  ∀ k, k < bs.length →
    accessCheck s .cs (s.pc + BitVec.ofNat 32 k) 1 .fetch = none
      ∧ bs[k]? = some (s.mem.byteAt (lin s .cs (s.pc + BitVec.ofNat 32 k)))

/-- The state a step or an operation answers, if it answers one. -/
def nextOf {α : Type} : Res α → Option α
  | .next a => some a
  | _ => none

/-- The fault an operation ends in. -/
def faultOf {α : Type} : Res α → Option Fault
  | .fault f => some f
  | _ => none

/-- The refusal an operation ends in. -/
def refusalOfRes {α : Type} : Res α → Option Refusal
  | .refused r => some r
  | _ => none

/-- A safe step: it neither faults nor is refused. -/
def State.stepsSafely (s : State) : Bool := (nextOf (step s)).isSome

end Sys2Proof.Machine
end

