-- ==== Sys2Proof/Certificates/Slice0/Obligations.lean ====
section
/-!
DEFINITION. The statements for the provers. Each is about the instruction set or the machine, for every state and every
operand; a statement that rests on a decision the spec marks as its own, or on a choice of the model, says so.
-/

open Sys2Proof Sys2Proof.Machine

/-! ### The rows of the opcode table -/

/-- CMC completes in every state whose decode state holds no repeat prefix and no LOCK: CF is complemented, `pc` moves by
the prefix bytes plus one, the decode state is cleared, and nothing else changes. That nothing else changes, and the
advance of `pc`, are the spec's own decisions D20 and D5. -/
def Obligations.CmcComplementsCarryAndAdvancesPc : Prop :=
  ∀ s : State, s.pfx.rep = none → s.pfx.lock = false →
    exec .cmc s =
      .next { s with cf := !s.cf, pc := s.pc + BitVec.ofNat 32 (s.pfx.count + 1), pfx := {} }

/-- CMC after a repeat prefix, or after LOCK, is refused (the spec's own decision D32). -/
def Obligations.CmcIsRefusedAfterRepeatOrLock : Prop :=
  ∀ s : State,
    (s.pfx.rep.isSome = true → exec .cmc s = .refused .repOnNonString)
      ∧ (s.pfx.rep = none → s.pfx.lock = true → exec .cmc s = .refused .lockNotDefined)

/-- REP, REPE/REPZ and REPNE/REPNZ complete where no repeat or LOCK byte was seen (one of a group at most is the spec's own
decision D9): `pfx.rep` becomes F3, F3, F2 and nothing else changes, no flag among it; before CMC, the opcode in scope, each is
refused (decision D32). -/
def Obligations.RepeatRowsSetRepAndNothingElse : Prop :=
  ∀ s : State, s.pfx.rep = none → s.pfx.lock = false →
    exec .rep s = .next { s with pfx := { s.pfx with rep := some .f3 } }
      ∧ exec .repeRepz s = .next { s with pfx := { s.pfx with rep := some .f3 } }
      ∧ exec .repneRepnz s = .next { s with pfx := { s.pfx with rep := some .f2 } }
      ∧ ∀ i ∈ [Instr.rep, .repeRepz, .repneRepnz], andThen (exec i s) (exec .cmc) = .refused .repOnNonString

/-- LOCK completes where no repeat or LOCK byte was seen (decision D9): `pfx.lock` becomes true and nothing else changes;
before CMC, the opcode in scope, it is refused (decision D32). -/
def Obligations.LockRowSetsLockAndNothingElse : Prop :=
  ∀ s : State, s.pfx.rep = none → s.pfx.lock = false →
    exec .lock s = .next { s with pfx := { s.pfx with lock := true } }
      ∧ andThen (exec .lock s) (exec .cmc) = .refused .lockNotDefined

/-- Each segment override completes where no override was seen (one at most is the spec's own decision D9): `pfx.seg` becomes
its segment and nothing else changes. -/
def Obligations.SegmentOverrideRowsSetSegAndNothingElse : Prop :=
  ∀ s : State, s.pfx.seg = none →
    exec .csOverride s = .next { s with pfx := { s.pfx with seg := some .cs } }
      ∧ exec .ssOverride s = .next { s with pfx := { s.pfx with seg := some .ss } }
      ∧ exec .dsOverride s = .next { s with pfx := { s.pfx with seg := some .ds } }
      ∧ exec .esOverride s = .next { s with pfx := { s.pfx with seg := some .es } }
      ∧ exec .fsOverride s = .next { s with pfx := { s.pfx with seg := some .fs } }
      ∧ exec .gsOverride s = .next { s with pfx := { s.pfx with seg := some .gs } }

/-- The operand-size override completes where no 66H was seen: `pfx.opsize` becomes true, the operand size, the default until
then, becomes the other value, and nothing else changes (that the override selects the other value is the spec's own decision
D1). -/
def Obligations.OperandSizeRowSelectsTheOtherSize : Prop :=
  ∀ s : State, s.pfx.opsize = false →
    ∃ t, exec .opSize s = .next t ∧ t = { s with pfx := { s.pfx with opsize := true } }
      ∧ t.operandSize = s.operandSize.other ∧ t.addressSize = s.addressSize ∧ t.stackAddrSize = s.stackAddrSize
      ∧ s.operandSize = s.defaultOperandSize ∧ t.operandSize ≠ s.defaultOperandSize

/-- The address-size override completes where no 67H was seen: `pfx.adsize` becomes true, the address size, the default until
then, becomes the other value, the operand size and the stack address size stay, and nothing else changes (decisions D2,
D3). -/
def Obligations.AddressSizeRowSelectsTheOtherSize : Prop :=
  ∀ s : State, s.pfx.adsize = false →
    ∃ t, exec .adSize s = .next t ∧ t = { s with pfx := { s.pfx with adsize := true } }
      ∧ t.addressSize = s.addressSize.other ∧ t.operandSize = s.operandSize ∧ t.stackAddrSize = s.stackAddrSize
      ∧ s.addressSize = s.defaultAddressSize ∧ t.addressSize ≠ s.defaultAddressSize

/-- A prefix row whose group was already seen is refused (the spec's own decision D9). -/
def Obligations.RepeatedGroupRowsAreRefused : Prop :=
  ∀ s : State,
    (s.pfx.rep.isSome = true ∨ s.pfx.lock = true →
        ∀ i ∈ [Instr.rep, .repeRepz, .repneRepnz, .lock], exec i s = .refused .prefixGroupRepeated)
      ∧ (s.pfx.seg.isSome = true →
        ∀ i ∈ [Instr.csOverride, .ssOverride, .dsOverride, .esOverride, .fsOverride, .gsOverride],
          exec i s = .refused .prefixGroupRepeated)
      ∧ (s.pfx.opsize = true → exec .opSize s = .refused .prefixGroupRepeated)
      ∧ (s.pfx.adsize = true → exec .adSize s = .refused .prefixGroupRepeated)

/-- A prefix row that answers a next state changed the decode state alone and counts one more byte: no prefix moves `pc`,
a register, a flag or memory (that a prefix is a row of its own with this effect is the model's reading, log entry 1). -/
def Obligations.PrefixRowsChangeOnlyTheDecodeState : Prop :=
  ∀ (i : Instr) (s t : State), i.isPrefix = true → exec i s = .next t →
    t = { s with pfx := t.pfx } ∧ t.pfx.count = s.pfx.count + 1

/-! ### The step -/

/-- A step runs the decoded instruction: where the decoder reads an instruction from the bytes fetched at `pc`, the step is
the meaning of its prefix rows in order and then of its opcode's row, from the state with a clear decode state (a step is one
whole instruction: the model's reading, log entry 1). -/
def Obligations.StepRunsTheDecodedRows : Prop :=
  ∀ (s : State) (d : Decoded Instr) (rest : List Byte),
    decode s.defaultOperandSize s.defaultAddressSize (fetchFrom s Config.maxInstrLen s.pc).1 = .ok d rest →
      step s = runRows exec (d.prefixes ++ [d.op]) (startInstr s)
        ∧ (d.prefixes = [] → step s = exec d.op (startInstr s))

/-- A step runs the instruction whose encoding stands at `pc`, for every well-formed instruction (log entry 1; which prefix runs
are well formed is decision D9). -/
def Obligations.StepRunsTheEncodedInstruction : Prop :=
  ∀ (s : State) (x : Insn), x.wf = true → s.holdsCode (encode x) →
    step s = runRows exec (x.prefixes ++ [x.op]) (startInstr s)

/-- A step over CMC with any run of segment and size overrides, one of each at most and in any order, complements CF, moves
`pc` by the length of the whole encoding, and changes nothing else (the spec's own decisions D9 and D10). -/
def Obligations.StepOverCmcWithUnusedPrefixes : Prop :=
  ∀ (s : State) (x : Insn), x.wf = true → x.op = .cmc →
    (∀ i ∈ x.prefixes, i.group ≠ some .repeatLock) → s.holdsCode (encode x) →
      step s = .next { s with cf := !s.cf, pc := s.pc + BitVec.ofNat 32 (encode x).length, pfx := {} }

/-- A step over CMC with a repeat prefix or LOCK among its prefixes is refused (the spec's own decision D32). -/
def Obligations.StepOverCmcWithRepeatOrLockIsRefused : Prop :=
  ∀ (s : State) (x : Insn), x.wf = true → x.op = .cmc → s.holdsCode (encode x) →
    ((∃ i ∈ x.prefixes, i = .rep ∨ i = .repeRepz ∨ i = .repneRepnz) → step s = .refused .repOnNonString)
      ∧ (.lock ∈ x.prefixes → step s = .refused .lockNotDefined)

/-- A run of prefix bytes in which two are of one group is refused, whatever follows (the spec's own decision D9; at the byte
that repeats the group, log entry 12). -/
def Obligations.StepOverARepeatedPrefixGroupIsRefused : Prop :=
  ∀ (s : State) (l : List Instr), (∀ i ∈ l, i.isPrefix = true) → prefixRunWf l = false →
    s.holdsCode (l.map encodeRow) → step s = .refused .prefixGroupRepeated

/-- After any well-formed prefix run, a byte that no row of the opcode table has is refused with its value (the spec's own
decision D11). -/
def Obligations.StepOverAnUnlistedOpcodeIsRefused : Prop :=
  ∀ (s : State) (l : List Instr) (b : Byte), prefixRunWf l = true → rowOf b = none →
    s.holdsCode (l.map encodeRow ++ [b]) → step s = .refused (.opcodeNotInSource b)

/-- After any well-formed prefix run, the empty one among them, a next byte that may not be fetched raises the fetch's
exception (the spec marks this as its own inference; decision D21 for the outcome). -/
def Obligations.StepRaisesTheFetchException : Prop :=
  ∀ (s : State) (l : List Instr) (e : Exn), prefixRunWf l = true → s.holdsCode (l.map encodeRow) →
    accessCheck s .cs (s.pc + BitVec.ofNat 32 l.length) 1 .fetch = some e →
      step s = .fault (.exception e.name.number e.code)

/-- Whatever a step does, it changes CF, `pc` and the decode state alone: CF is complemented, `pc` moves by 1 to 4 bytes
modulo 2^32, and every register, selector, base, flag, table register, parameter and byte of memory stays (decisions D5,
D20, D24). -/
def Obligations.EveryStepChangesOnlyCarryAndPc : Prop :=
  ∀ s t : State, step s = .next t →
    ∃ n, 1 ≤ n ∧ n ≤ 4 ∧ t = { s with cf := !s.cf, pc := s.pc + BitVec.ofNat 32 n, pfx := {} }

/-- A fault of a step is the exception of the first of its instruction's bytes that may not be fetched; it lies among the
first five (decisions D16, D21). -/
def Obligations.EveryFaultComesFromTheFirstFailingFetch : Prop :=
  ∀ (s : State) (f : Fault), step s = .fault f →
    ∃ k e, k ≤ 4 ∧ accessCheck s .cs (s.pc + BitVec.ofNat 32 k) 1 .fetch = some e
      ∧ (∀ j, j < k → accessCheck s .cs (s.pc + BitVec.ofNat 32 j) 1 .fetch = none)
      ∧ f = .exception e.name.number e.code

/-- A step does not depend on the default sizes, the stack address size or the mode: changing them changes the outcome in
those fields alone (decisions D20, D28). -/
def Obligations.StepDoesNotDependOnSizesOrMode : Prop :=
  ∀ (s : State) (a b c : AttrSize) (m : Mode),
    step { s with defaultOperandSize := a, defaultAddressSize := b, stackAddrSize := c, mode := m } =
      andThen (step s) fun t =>
        .next { t with defaultOperandSize := a, defaultAddressSize := b, stackAddrSize := c, mode := m }

/-- The invariant holds after reset: nothing is listed in memory and in the I/O space, the model's choices of log entries 8
and 9, and the decode state is clear (10_state.md R36). -/
def Obligations.ResetSatisfiesTheInvariant : Prop := State.reset.inv = true

/-- Every step keeps the invariant: memory and the I/O space stay in canonical form, and the decode state is clear between
instructions (the canonical form is the model's own, log entry 8). -/
def Obligations.EveryStepKeepsTheInvariant : Prop :=
  ∀ s t : State, s.inv = true → step s = .next t → t.inv = true

/-- A run that ends normally ends with `pc` at `P_EndPc`, and of the whole state it changed CF, `pc` and the decode state
alone (the stopping rule is the spec's own decision D34). -/
def Obligations.ARunThatEndsChangedOnlyCarryAndPc : Prop :=
  ∀ (n : Nat) (s t : State), runSteps n s = .ended t →
    t.pc = s.endPc ∧ t = { s with cf := t.cf, pc := t.pc, pfx := t.pfx }

/-! ### Encoding -/

/-- Decode and encode agree: the decoder reads every well-formed instruction from its encoding, whatever follows it and
whatever the defaults, with its prefixes in order (REPE/REPZ is read under the name REP, whose byte it is), its opcode byte as the
one field, and its length; nothing of what follows is taken. OperandSize is the default exactly where no 66H stands among the
prefixes, AddressSize where no 67H does, each the other value otherwise (decisions D1, D2); the decode state says which prefixes
stand there (log entry 11 for F3; which prefix runs are well formed is decision D9). -/
def Obligations.DecodeOfEncodeIsTheInstruction : Prop :=
  ∀ (x : Insn) (a b : AttrSize) (rest : List Byte), x.wf = true →
    ∃ d, decode a b (encode x ++ rest) = .ok d rest
      ∧ d.prefixes = x.prefixes.map canonRow ∧ d.op = x.op ∧ d.length = (encode x).length
      ∧ d.fields = { opcode := [encodeRow x.op] }
      ∧ (d.operandSize = a ↔ Instr.opSize ∉ x.prefixes) ∧ (d.addressSize = b ↔ Instr.adSize ∉ x.prefixes)
      ∧ (d.pfx.opsize = true ↔ Instr.opSize ∈ x.prefixes) ∧ (d.pfx.adsize = true ↔ Instr.adSize ∈ x.prefixes)
      ∧ (d.pfx.lock = true ↔ Instr.lock ∈ x.prefixes)
      ∧ (d.pfx.rep = some .f3 ↔ Instr.rep ∈ x.prefixes ∨ Instr.repeRepz ∈ x.prefixes)
      ∧ (d.pfx.rep = some .f2 ↔ Instr.repneRepnz ∈ x.prefixes)
      ∧ (d.pfx.seg = some .cs ↔ Instr.csOverride ∈ x.prefixes) ∧ (d.pfx.seg = some .ss ↔ Instr.ssOverride ∈ x.prefixes)
      ∧ (d.pfx.seg = some .ds ↔ Instr.dsOverride ∈ x.prefixes) ∧ (d.pfx.seg = some .es ↔ Instr.esOverride ∈ x.prefixes)
      ∧ (d.pfx.seg = some .fs ↔ Instr.fsOverride ∈ x.prefixes) ∧ (d.pfx.seg = some .gs ↔ Instr.gsOverride ∈ x.prefixes)

/-- The other direction: bytes that the decoder reads as an instruction are that instruction's encoding, and the
instruction is well formed (decision D9). -/
def Obligations.DecodedBytesAreTheEncoding : Prop :=
  ∀ (a b : AttrSize) (bs rest : List Byte) (d : Decoded Instr), decode a b bs = .ok d rest →
    (Insn.mk d.prefixes d.op).wf = true ∧ bs = encode (Insn.mk d.prefixes d.op) ++ rest
      ∧ d.length = (encode (Insn.mk d.prefixes d.op)).length

/-- Every field of every instruction form is read back from its encoding: opcode, ModR/M, SIB, displacement, moffs, code
offset and immediates, at every value, under either address size, whatever follows (the record of forms is the spec's own
inference; what is refused is decision D13). Among rows, the FIRST one that the bytes select is found: the model's choice, log entry
46. A row before it is passed over where its opcode bytes, one or two, are not those that stand there, or where they are
and its digit is not the reg field of the byte after them; the row found may have a ModR/M byte or none. Where every row is passed
over, the opcode is refused as not in the source (log entry 46 too). -/
def Obligations.FieldsOfEncodedFieldsAreTheFields : Prop :=
  (∀ (f : Form) (as : AttrSize) (x : Fields) (rest : List Byte), x.fits f as = true →
      parseFields f as (encodeFields x ++ rest) = .ok x rest)
    ∧ ∀ (α : Type) (op : Byte) (os : AttrSize) (pre : List (α × FormPair)) (bs : List Byte),
        (∀ q ∈ pre, ∃ g n, g = q.2.choose os ∧ n = g.opcode.length ∧ n ≤ bs.length
          ∧ (opcodeIs g.opReg g.opcode (bs.take n) = false
            ∨ ∃ d m, g.modrm = .digit d ∧ bs[n]? = some m ∧ (ModRM.ofByte m).reg ≠ d)) →
          findForm op os pre bs = .refuse (.opcodeNotInSource op)
            ∧ ∀ (post : List (α × FormPair)) (a : α) (p : FormPair) (as : AttrSize) (x : Fields) (rest : List Byte),
                x.fits (p.choose os) as = true → bs = encodeFields x ++ rest →
                  findForm op os (pre ++ (a, p) :: post) bs = .ok (a, p.choose os) bs

/-- The other direction: fields that are read from bytes are the form's and are encoded by those bytes (decision D13 for what is
refused); the opcode bytes are the form's, but for the register code of +rb, +rw or +rd, and the reg field of a /digit form is
its digit; a /digit form refuses every other reg field, as an opcode without a row (log entry 46). What the decode procedure
answers over any table of forms is a well-formed prefix run (decision D9) and a row of its opcode byte, with fields that select and
fit its form at the sizes that the defaults and the prefixes give (the default exactly where no 66H, or no 67H, stands among them;
decisions D1, D2); its length is the number of prefixes plus the fields' bytes, at most 15. And a form that is found after a
well-formed prefix run is decoded where that length is at most 15 and refused as too long where it is more (the limit is the spec's
own decision D25, PRESUMED, log entry 14). -/
def Obligations.ParsedFieldsEncodeToTheBytes : Prop :=
  (∀ (f : Form) (as : AttrSize) (bs rest : List Byte) (x : Fields), parseFields f as bs = .ok x rest →
      x.fits f as = true ∧ bs = encodeFields x ++ rest
        ∧ (∀ d, f.modrm = .digit d → ∃ a, x.addr = some a ∧ a.modrm.reg = d)
        ∧ (f.opReg = .none → x.opcode = f.opcode)
        ∧ (∀ b, f.opReg ≠ .none → f.opcode = [b] → ∃ c : BitVec 3, x.opcode = [b + c.setWidth 8]))
    ∧ (∀ (f : Form) (as : AttrSize) (b m : Byte) (d : BitVec 3) (rest : List Byte), f.opcode = [b] → f.opReg = .none →
        f.modrm = .digit d → (ModRM.ofByte m).reg ≠ d → parseFields f as (b :: m :: rest) = .refuse (.opcodeNotInSource b))
    ∧ (∀ (α : Type) (find : Byte → List (α × FormPair)) (dOp dAddr : AttrSize) (bs rest : List Byte) (d : Decoded α),
        decodeWith find dOp dAddr bs = .ok d rest →
          bs = d.prefixes.map encodeRow ++ (encodeFields d.fields ++ rest)
            ∧ (∃ b p, (encodeFields d.fields ++ rest).head? = some b ∧ (d.op, p) ∈ find b
              ∧ d.fields.fits (p.choose d.operandSize) d.addressSize = true)
            ∧ prefixRunWf d.prefixes = true
            ∧ (d.operandSize = dOp ↔ Instr.opSize ∉ d.prefixes) ∧ (d.addressSize = dAddr ↔ Instr.adSize ∉ d.prefixes)
            ∧ d.length = d.prefixes.length + (encodeFields d.fields).length ∧ d.length ≤ 15)
    ∧ ∀ (α : Type) (find : Byte → List (α × FormPair)) (dOp dAddr os as : AttrSize) (l : List Instr) (x : Fields)
        (rest r : List Byte) (b : Byte) (a : α) (f : Form),
        prefixRunWf l = true → (os = dOp ↔ Instr.opSize ∉ l) → (as = dAddr ↔ Instr.adSize ∉ l) →
        (encodeFields x ++ rest).head? = some b → prefixRow b = none →
        findForm b os (find b) (encodeFields x ++ rest) = .ok (a, f) r → x.fits f as = true →
          (l.length + (encodeFields x).length ≤ 15 →
              ∃ d, decodeWith find dOp dAddr (l.map encodeRow ++ (encodeFields x ++ rest)) = .ok d rest
                ∧ d.prefixes = l.map canonRow ∧ d.op = a ∧ d.fields = x ∧ d.operandSize = os ∧ d.addressSize = as)
            ∧ (15 < l.length + (encodeFields x).length →
              decodeWith find dOp dAddr (l.map encodeRow ++ (encodeFields x ++ rest)) = .refuse .instructionTooLong)

/-- The ModR/M byte is mod, reg, r/m and the SIB byte ss, index, base, from the top: a byte's value is 64*mod + 8*reg + rm, or
64*ss + 8*index + base; splitting and joining agree; and every ModR/M value with mod <> 11 has its row in Tables 17-2 and 17-3
(mod = 11 is a register in both), every SIB value its row in Table 17-4. -/
def Obligations.ModRMAndSIBByteLayout : Prop :=
  ∀ b : Byte,
    (b.toNat = 64 * (ModRM.ofByte b).mod.toNat + 8 * (ModRM.ofByte b).reg.toNat + (ModRM.ofByte b).rm.toNat
      ∧ (ModRM.ofByte b).toByte = b ∧ (∀ m : ModRM, ModRM.ofByte m.toByte = m)
      ∧ ((ModRM.ofByte b).mod ≠ 3#2 →
          (AddrRow.find table17_2 (ModRM.ofByte b).mod (ModRM.ofByte b).rm).isSome = true
            ∧ (AddrRow.find table17_3 (ModRM.ofByte b).mod (ModRM.ofByte b).rm).isSome = true))
      ∧ b.toNat = 64 * (SIB.ofByte b).ss.toNat + 8 * (SIB.ofByte b).index.toNat + (SIB.ofByte b).base.toNat
      ∧ (SIB.ofByte b).toByte = b ∧ (∀ x : SIB, SIB.ofByte x.toByte = x)
      ∧ (ScaleRow.find (SIB.ofByte b).ss (SIB.ofByte b).index).isSome = true

/-- The prefix bytes are the eleven values of the source's list, each with its name and its group, and no other byte is a
prefix; F3 stands twice, for REP and for REPE/REPZ, and is read under the name REP (the model's choice, log entry 11). -/
def Obligations.PrefixBytesAreTheEleven : Prop :=
  (∀ b : Byte, (prefixRow b).isSome = true ↔
      b ∈ [0x26#8, 0x2E#8, 0x36#8, 0x3E#8, 0x64#8, 0x65#8, 0x66#8, 0x67#8, 0xF0#8, 0xF2#8, 0xF3#8])
    ∧ [0xF3#8, 0xF2#8, 0xF0#8, 0x2E#8, 0x36#8, 0x3E#8, 0x26#8, 0x64#8, 0x65#8, 0x66#8, 0x67#8].map prefixRow =
        [some .rep, some .repneRepnz, some .lock, some .csOverride, some .ssOverride, some .dsOverride, some .esOverride,
          some .fsOverride, some .gsOverride, some .opSize, some .adSize]
    ∧ encodeRow .repeRepz = 0xF3#8
    ∧ (∀ i ∈ [Instr.rep, .repeRepz, .repneRepnz, .lock], i.group = some .repeatLock)
    ∧ (∀ i ∈ [Instr.csOverride, .ssOverride, .dsOverride, .esOverride, .fsOverride, .gsOverride], i.group = some .segment)
    ∧ Instr.group .opSize = some .operandSize ∧ Instr.group .adSize = some .addressSize

/-- The opcode map by first byte: the eleven prefixes (F3 under the name REP, the model's choice, log entry 11), F5 for CMC with
one opcode byte and no other field at either size, its length 1 plus its prefixes, and no row for the other 244 values. -/
def Obligations.OpcodeMapByFirstByte : Prop :=
  (∀ b : Byte, (rowOf b).isSome = true ↔
      b ∈ [0x26#8, 0x2E#8, 0x36#8, 0x3E#8, 0x64#8, 0x65#8, 0x66#8, 0x67#8, 0xF0#8, 0xF2#8, 0xF3#8, 0xF5#8])
    ∧ [0x26#8, 0x2E#8, 0x36#8, 0x3E#8, 0x64#8, 0x65#8, 0x66#8, 0x67#8, 0xF0#8, 0xF2#8, 0xF3#8].map prefixRow =
        [some .esOverride, some .csOverride, some .ssOverride, some .dsOverride, some .fsOverride, some .gsOverride,
          some .opSize, some .adSize, some .lock, some .repneRepnz, some .rep]
    ∧ opcodeRow 0xF5#8 = some (.cmc, cmcForm)
    ∧ (∀ (os as : AttrSize) (rest : List Byte),
        parseFields (cmcForm.choose os) as (0xF5#8 :: rest) = .ok { opcode := [0xF5#8] } rest)
    ∧ ∀ (a b : AttrSize) (bs rest : List Byte) (d : Decoded Instr), decode a b bs = .ok d rest →
        d.op = .cmc ∧ d.fields = { opcode := [0xF5#8] } ∧ d.length = 1 + d.prefixes.length

/-- The fourteen rows that say whether a SIB byte and how many displacement bytes follow a ModR/M byte. -/
def Obligations.SibAndDisplacementPresence : Prop :=
  ∀ (m : ModRM) (o : Option (BitVec 3)),
    sibFollows .s16 m = false
      ∧ (m.mod = 0#2 → m.rm ≠ 6#3 → dispSize .s16 m o = .none)
      ∧ (m.mod = 0#2 → m.rm = 6#3 → dispSize .s16 m o = .d16)
      ∧ (m.mod = 1#2 → dispSize .s16 m o = .d8)
      ∧ (m.mod = 2#2 → dispSize .s16 m o = .d16)
      ∧ (m.mod = 3#2 → dispSize .s16 m o = .none)
      ∧ (m.mod = 0#2 → m.rm ≠ 4#3 → m.rm ≠ 5#3 → sibFollows .s32 m = false ∧ dispSize .s32 m o = .none)
      ∧ (m.mod = 0#2 → m.rm = 5#3 → sibFollows .s32 m = false ∧ dispSize .s32 m o = .d32)
      ∧ (m.mod = 0#2 → m.rm = 4#3 → sibFollows .s32 m = true
          ∧ (∀ b, b ≠ 5#3 → dispSize .s32 m (some b) = .none) ∧ dispSize .s32 m (some 5#3) = .d32)
      ∧ (m.mod = 1#2 → m.rm ≠ 4#3 → sibFollows .s32 m = false ∧ dispSize .s32 m o = .d8)
      ∧ (m.mod = 1#2 → m.rm = 4#3 → sibFollows .s32 m = true ∧ dispSize .s32 m o = .d8)
      ∧ (m.mod = 2#2 → m.rm ≠ 4#3 → sibFollows .s32 m = false ∧ dispSize .s32 m o = .d32)
      ∧ (m.mod = 2#2 → m.rm = 4#3 → sibFollows .s32 m = true ∧ dispSize .s32 m o = .d32)
      ∧ (m.mod = 3#2 → sibFollows .s32 m = false ∧ dispSize .s32 m o = .none)

/-- The opcode bytes of a form stand in memory order, and every multi-byte field of an instruction (displacement, moffs, code
offset, immediate) has its low-order byte first, at every value. -/
def Obligations.InstructionFieldsAreLittleEndian : Prop :=
  ∀ (a b c d e f : Byte) (rest : List Byte),
    takeBytes 2 (a :: b :: rest) = .ok [a, b] rest
      ∧ parseDisp .d8 (a :: rest) = .ok (.d8 a) rest
      ∧ parseDisp .d16 (a :: b :: rest) = .ok (.d16 (b ++ a)) rest
      ∧ parseDisp .d32 (a :: b :: c :: d :: rest) = .ok (.d32 (d ++ c ++ b ++ a)) rest
      ∧ (∀ k, parseMoffs (some k) .s16 (a :: b :: rest) = .ok (some (.o16 (b ++ a))) rest)
      ∧ (∀ k, parseMoffs (some k) .s32 (a :: b :: c :: d :: rest) = .ok (some (.o32 (d ++ c ++ b ++ a))) rest)
      ∧ parseCode (some .cb) (a :: rest) = .ok (some (.cb a)) rest
      ∧ parseCode (some .cw) (a :: b :: rest) = .ok (some (.cw (b ++ a))) rest
      ∧ parseCode (some .cd) (a :: b :: c :: d :: rest) = .ok (some (.cd (d ++ c ++ b ++ a))) rest
      ∧ parseCode (some .cp) (a :: b :: c :: d :: e :: f :: rest) = .ok (some (.cp (f ++ e ++ d ++ c ++ b ++ a))) rest
      ∧ parseImm .ib (a :: rest) = .ok (.ib a) rest
      ∧ parseImm .iw (a :: b :: rest) = .ok (.iw (b ++ a)) rest
      ∧ parseImm .id (a :: b :: c :: d :: rest) = .ok (.id (d ++ c ++ b ++ a)) rest

/-- A few words written out from the spec's encodings decode to what they stand for, with their lengths (decisions D10, D11). -/
def Obligations.KnownWordsDecode : Prop :=
  (∃ d, decode .s32 .s32 [0xF5#8] = .ok d [] ∧ d.op = .cmc ∧ d.prefixes = [] ∧ d.length = 1)
    ∧ (∃ d, decode .s32 .s32 [0x3E#8, 0xF5#8] = .ok d [] ∧ d.op = .cmc ∧ d.prefixes = [.dsOverride] ∧ d.length = 2)
    ∧ (∃ d, decode .s16 .s16 [0x66#8, 0x67#8, 0x26#8, 0xF5#8] = .ok d [] ∧ d.op = .cmc
        ∧ d.prefixes = [.opSize, .adSize, .esOverride] ∧ d.length = 4)
    ∧ decode .s32 .s32 [0x0F#8, 0x00#8] = .refuse (.opcodeNotInSource 0x0F#8)

/-! ### Addressing forms -/

/-- Every 16-bit form is the row of Table 17-2 for its mod and r/m: there is a row exactly when mod <> 11, its registers'
low halves and displacement, disp8 as a signed byte, added modulo 2^16 are the effective address, its displacement is the one that follows, and its
cell for the reg field is the ModR/M byte (the modulus is the spec's own decision D6). -/
def Obligations.SixteenBitFormsFollowTable17_2 : Prop :=
  ∀ (g : Regs) (a : AddrSpec),
    ((AddrRow.find table17_2 a.modrm.mod a.modrm.rm).isSome = true ↔ a.modrm.mod ≠ 3#2)
      ∧ ∀ r, AddrRow.find table17_2 a.modrm.mod a.modrm.rm = some r →
          ((ea16 g a).toNat : Int) = r.value16 g a.disp ∧ dispSize .s16 a.modrm none = r.disp
            ∧ sibFollows .s16 a.modrm = false ∧ a.modrm.toByte.toNat = r.cell a.modrm.reg

/-- The default segment of a 16-bit form is SS where the row's registers have BP, and DS for every other memory form. -/
def Obligations.SixteenBitDefaultSegmentIsSSWithBP : Prop :=
  ∀ (a : AddrSpec) (r : AddrRow), AddrRow.find table17_2 a.modrm.mod a.modrm.rm = some r →
    (Reg.ebp ∈ r.regs → defaultSeg16 a = .ss) ∧ (Reg.ebp ∉ r.regs → defaultSeg16 a = .ds) ∧ defaultSeg16 a = r.seg

/-- Every 32-bit form without a SIB byte is the row of Table 17-3 for its mod and r/m, disp8 a signed byte (modulus: decision
D6; default segment: decision D7). -/
def Obligations.ThirtyTwoBitFormsFollowTable17_3 : Prop :=
  ∀ (g : Regs) (a : AddrSpec) (r : AddrRow), AddrRow.find table17_3 a.modrm.mod a.modrm.rm = some r →
    sibFollows .s32 a.modrm = r.sib ∧ a.modrm.toByte.toNat = r.cell a.modrm.reg
      ∧ (r.sib = false → a.fits .s32 = true →
          ((ea32 g a).toNat : Int) = r.value32 g a.disp ∧ a.disp.size = r.disp ∧ defaultSeg32 a = r.seg)

/-- Every 32-bit form with a SIB byte is the row and column of Table 17-4: base column, scaled index and displacement, disp8 a
signed byte, added modulo 2^32; the default segment is SS when the base is ESP, or EBP with a displacement, and DS otherwise
(decisions D6, D7). -/
def Obligations.ScaledIndexFormsFollowTable17_4 : Prop :=
  ∀ (g : Regs) (a : AddrSpec) (x : SIB) (r : ScaleRow), a.sib = some x → ScaleRow.find x.ss x.index = some r →
    ((ea32 g a).toNat : Int) = r.value32 g a.modrm.mod x.base a.disp ∧ x.toByte.toNat = r.cell x.base
      ∧ defaultSeg32 a =
          if baseColumn a.modrm.mod x.base = some .esp ∨ baseColumn a.modrm.mod x.base = some .ebp then .ss else .ds

/-- The scaled index: none for index 100 under every scale, else the register times 1, 2, 4 or 8; every SIB byte has its
row of Table 17-4. -/
def Obligations.ScaledIndexIsRegisterTimesScale : Prop :=
  ∀ (g : Regs) (x : SIB),
    (x.index = 4#3 → scaledIndex g x = 0#32)
      ∧ (x.index ≠ 4#3 → scaledIndex g x = g.r32 x.index * BitVec.ofNat 32 (2 ^ x.ss.toNat))
      ∧ ∃ r, ScaleRow.find x.ss x.index = some r
          ∧ r.scaled = if x.index = 4#3 then none else some (regOfCode x.index, 2 ^ x.ss.toNat)

/-- A memory operand uses the overriding segment where an override was seen and its default segment where none was, at its
effective address; so do a moffs operand (at its offset; that its default is DS is decision D7, log entry 25) and the DS:SI string
operand (at SI), and the ES:DI operand is in ES whatever the override (decision D8). The effective address and the default segment
are those of the 16-bit form under AddressSize 16 and of the 32-bit form under AddressSize 32. With mod = 11 a memory operand is
refused (decision D13). Addr is the effective address and refuses mod = 11 (42_operation_primitives.md R191; the refusal is log entry
45's). A string operand of a width is read and written at its segment and offset; under AddressSize 32 it is refused (log entry
16). -/
def Obligations.MemoryOperandUsesTheOverride : Prop :=
  ∀ (s : State) (a : AddrSpec),
    (s.addressSize = .s16 → ea s a = ea16 s.regs a ∧ defaultSeg s a = defaultSeg16 a)
      ∧ (s.addressSize = .s32 → ea s a = ea32 s.regs a ∧ defaultSeg s a = defaultSeg32 a)
      ∧ (a.modrm.mod = 3#2 → memOperand s a = .refused .registerWhereMemoryRequired ∧ addrOf s a = .refused .addrOfRegister)
      ∧ (a.modrm.mod ≠ 3#2 → addrOf s a = .next (ea s a)
          ∧ (∀ g, s.pfx.seg = some g → memOperand s a = .next (g, ea s a))
          ∧ (s.pfx.seg = none → memOperand s a = .next (defaultSeg s a, ea s a)))
      ∧ (∀ (w : OpWidth) (o : MoffsField) (v : BitVec w.bits) (g : SegName) (off : Word32),
          (s.pfx.seg = some g ∨ s.pfx.seg = none ∧ g = .ds) →
          (∀ u, o = .o16 u → off.toNat = u.toNat) → (∀ u, o = .o32 u → off = u) →
            readMoffs s w o = segRead s g off w.bytes ∧ writeMoffs s w o v = segWrite s g off w.bytes v)
      ∧ (∀ (w : OpWidth) (v : BitVec w.bits) (g : SegName) (off : Word32), readString s w (.next (g, off)) = segRead s g off w.bytes
          ∧ writeString s w (.next (g, off)) v = segWrite s g off w.bytes v)
      ∧ (s.addressSize = .s16 →
          (∀ g, s.pfx.seg = some g → stringSource s = .next (g, (s.regs.esi.extractLsb' 0 16).setWidth 32))
            ∧ (s.pfx.seg = none → stringSource s = .next (.ds, (s.regs.esi.extractLsb' 0 16).setWidth 32))
            ∧ stringDest s = .next (.es, (s.regs.edi.extractLsb' 0 16).setWidth 32))
      ∧ (s.addressSize = .s32 → stringSource s = .refused .stringAddressNotInSource
          ∧ stringDest s = .refused .stringAddressNotInSource)

/-! ### Registers -/

/-- The codes of the doubleword, word and byte registers wherever a code stands (reg field, r/m field with mod = 11, SIB base and
index, and the last opcode byte of a +rb, +rw or +rd form, the byte of the form plus the code); doubleword registers are written by
code too; that a word register is bits 15 to 0 and a byte register bits 7 to 0 or 15 to 8 is decision D4. The codes of the segment
registers are read through the reg field, where 6 and 7 are refused (decision D13). The class of an operand gives its width: r8, r/m8,
+rb and moffs8 a byte, r16, r/m16, +rw and moffs16 a word, r32, r/m32, +rd and moffs32 a doubleword, Sreg a selector; a form without
+rb, +rw or +rd names no register in its opcode; a moffs variable of 1, 2 or 4 bytes is read in the overriding segment (decision D8,
log entry 26) or DS (decision D7, log entry 25). In a well-formed pair of forms, which have the same opcode bytes, a byte class stands
in a byte form alone, a word class (imm16 among them) under OperandSize 16 alone and a doubleword class (imm32 among them) under
OperandSize 32 alone, so every class of the form that OperandSize chooses has the one width; m16:16, m16 & 16 and cw stand under
OperandSize 16 alone, m16:32, m32 & 32 and cp under OperandSize 32 alone (which pairs are well formed is the model's reading, log
entry 47). -/
def Obligations.RegisterCodesNameTheRegisters : Prop :=
  (∀ r : Regs,
      [0#3, 1#3, 2#3, 3#3, 4#3, 5#3, 6#3, 7#3].map r.r32 = [r.eax, r.ecx, r.edx, r.ebx, r.esp, r.ebp, r.esi, r.edi]
      ∧ [0#3, 1#3, 2#3, 3#3, 4#3, 5#3, 6#3, 7#3].map r.r16 =
          [r.eax, r.ecx, r.edx, r.ebx, r.esp, r.ebp, r.esi, r.edi].map (fun v => v.extractLsb' 0 16)
      ∧ [0#3, 1#3, 2#3, 3#3].map r.r8 = [r.eax, r.ecx, r.edx, r.ebx].map (fun v => v.extractLsb' 0 8)
      ∧ [4#3, 5#3, 6#3, 7#3].map r.r8 = [r.eax, r.ecx, r.edx, r.ebx].map (fun v => v.extractLsb' 8 8))
    ∧ (∀ (r : Regs) (c d : BitVec 3) (v : Word32), (r.setR32 c v).r32 d = if d = c then v else r.r32 d)
    ∧ (∀ (s : State) (a : AddrSpec), readReg s .w32 a = s.regs.r32 a.modrm.reg ∧ readReg s .w16 a = s.regs.r16 a.modrm.reg
        ∧ readReg s .w8 a = s.regs.r8 a.modrm.reg
        ∧ (a.modrm.mod = 3#2 → readRM s .w32 a = .next (s.regs.r32 a.modrm.rm)
            ∧ readRM s .w16 a = .next (s.regs.r16 a.modrm.rm) ∧ readRM s .w8 a = .next (s.regs.r8 a.modrm.rm)))
    ∧ (∀ (s : State) (a : AddrSpec), readRegOf s .r8 a = .next (.byte (s.regs.r8 a.modrm.reg))
        ∧ readRegOf s .r16 a = .next (.word (s.regs.r16 a.modrm.reg))
        ∧ readRegOf s .r32 a = .next (.dword (s.regs.r32 a.modrm.reg))
        ∧ readRegOf s .sreg a = andThen (readSreg s a) (fun v => .next (.word v))
        ∧ (a.modrm.mod = 3#2 → readRmOf s .rm8 a = .next (.byte (s.regs.r8 a.modrm.rm))
            ∧ readRmOf s .rm16 a = .next (.word (s.regs.r16 a.modrm.rm))
            ∧ readRmOf s .rm32 a = .next (.dword (s.regs.r32 a.modrm.rm)))
        ∧ readRmOf s .rm8 a = andThen (readRM s .w8 a) (fun v => .next (.byte v))
        ∧ readRmOf s .rm16 a = andThen (readRM s .w16 a) (fun v => .next (.word v))
        ∧ readRmOf s .rm32 a = andThen (readRM s .w32 a) (fun v => .next (.dword v)))
    ∧ (∀ (s : State) (o : MoffsField) (g : SegName) (off : Word32), (s.pfx.seg = some g ∨ s.pfx.seg = none ∧ g = .ds) →
        (∀ u, o = .o16 u → off.toNat = u.toNat) → (∀ u, o = .o32 u → off = u) →
          readMoffsOf s .moffs8 o = andThen (segRead s g off 1) (fun v => .next (.byte v))
            ∧ readMoffsOf s .moffs16 o = andThen (segRead s g off 2) (fun v => .next (.word v))
            ∧ readMoffsOf s .moffs32 o = andThen (segRead s g off 4) (fun v => .next (.dword v)))
    ∧ (∀ (p : FormPair) (os : AttrSize) (f : Form), p.wf = true → f = p.choose os →
        f.opcode = p.at16.opcode ∧ f.modrm = p.at16.modrm ∧ f.size = p.at16.size
          ∧ ∀ w : OpWidth, (f.opReg.width = some w ∨ (∃ c, f.regClass = some c ∧ c.width = some w)
              ∨ (∃ c, f.rmClass = some c ∧ c.width = some w) ∨ (∃ c, f.moffs = some c ∧ c.width = w)) →
            (f.size = .byte → w = .w8) ∧ (f.size = .byOperandSize → os = .s16 → w = .w16)
              ∧ (f.size = .byOperandSize → os = .s32 → w = .w32))
    ∧ (∀ (p : FormPair) (os : AttrSize) (f : Form), p.wf = true → f = p.choose os →
        (f.opReg = .rb ∨ f.regClass = some .r8 ∨ f.rmClass = some .rm8 ∨ f.moffs = some .moffs8 → f.size = .byte)
          ∧ (f.opReg = .rw ∨ f.regClass = some .r16 ∨ f.rmClass = some .rm16 ∨ f.moffs = some .moffs16 ∨ .iw ∈ f.imms →
              f.size = .byOperandSize ∧ os = .s16)
          ∧ (f.opReg = .rd ∨ f.regClass = some .r32 ∨ f.rmClass = some .rm32 ∨ f.moffs = some .moffs32 ∨ .id ∈ f.imms →
              f.size = .byOperandSize ∧ os = .s32)
          ∧ (f.rmClass = some .far16 ∨ f.rmClass = some .pair16x16 ∨ f.code = some .cw → os = .s16)
          ∧ (f.rmClass = some .far32 ∨ f.rmClass = some .pair32x32 ∨ f.code = some .cp → os = .s32))
    ∧ (∀ (s : State) (f : Form) (x : Fields), f.opReg = .none → readOpRegOf s f x = none)
    ∧ (∀ (s : State) (f : Form) (x : Fields) (b : Byte) (c : BitVec 3), f.opcode.getLast? = some b →
        x.opcode.getLast? = some (b + c.setWidth 8) →
          f.opRegCode x = c ∧ readOpReg s .w32 f x = s.regs.r32 c ∧ readOpReg s .w16 f x = s.regs.r16 c
            ∧ readOpReg s .w8 f x = s.regs.r8 c
            ∧ (f.opReg = .rb → readOpRegOf s f x = some (.byte (s.regs.r8 c)))
            ∧ (f.opReg = .rw → readOpRegOf s f x = some (.word (s.regs.r16 c)))
            ∧ (f.opReg = .rd → readOpRegOf s f x = some (.dword (s.regs.r32 c)))
            ∧ (f.opReg ≠ .none → f.opcode = [b] → x.opcode = [b + c.setWidth 8] → opcodeIs f.opReg f.opcode x.opcode = true))
    ∧ (∀ (r : Regs) (m : BitVec 2) (x : SIB), (x.base ≠ 5#3 ∨ m ≠ 0#2 → sibBase r m x = r.r32 x.base)
        ∧ (x.index ≠ 4#3 → x.ss = 0#2 → scaledIndex r x = r.r32 x.index))
    ∧ ∀ (s : State) (a : AddrSpec),
        (a.modrm.reg = 0#3 → readSreg s a = .next s.segs.es.selector)
          ∧ (a.modrm.reg = 1#3 → readSreg s a = .next s.segs.cs.selector)
          ∧ (a.modrm.reg = 2#3 → readSreg s a = .next s.segs.ss.selector)
          ∧ (a.modrm.reg = 3#3 → readSreg s a = .next s.segs.ds.selector)
          ∧ (a.modrm.reg = 4#3 → readSreg s a = .next s.segs.fs.selector)
          ∧ (a.modrm.reg = 5#3 → readSreg s a = .next s.segs.gs.selector)
          ∧ (6 ≤ a.modrm.reg.toNat → readSreg s a = .refused .sregCodeUnassigned)

/-- A word register is bits 15 to 0 of the doubleword register of its code; a byte register is bits 7 to 0 of the doubleword
register of its code for codes 0 to 3, and bits 15 to 8 of the one four codes below for codes 4 to 7. A byte write reaches its byte
and no other, a word write bits 15 to 0 and no other: the register reads as written, every other byte, every other register and the
high half stay (the overlap is the spec's own decision D4). -/
def Obligations.NarrowWritesLeaveTheOtherBits : Prop :=
  ∀ (r : Regs) (c : BitVec 3) (v : Byte) (w : Word16),
    r.r16 c = (r.r32 c).extractLsb' 0 16
      ∧ (c.toNat < 4 → r.r8 c = (r.r32 c).extractLsb' 0 8)
      ∧ (4 ≤ c.toNat → r.r8 c = (r.r32 (c - 4#3)).extractLsb' 8 8)
      ∧ (r.setR8 c v).r8 c = v ∧ (∀ d, d ≠ c → (r.setR8 c v).r8 d = r.r8 d)
      ∧ (∀ d, ((r.setR8 c v).r32 d).extractLsb' 16 16 = (r.r32 d).extractLsb' 16 16)
      ∧ (∀ d : BitVec 3, 4 ≤ d.toNat → (r.setR8 c v).r32 d = r.r32 d)
      ∧ (r.setR16 c w).r16 c = w ∧ (∀ d, d ≠ c → (r.setR16 c w).r32 d = r.r32 d)
      ∧ ((r.setR16 c w).r32 c).extractLsb' 16 16 = (r.r32 c).extractLsb' 16 16

/-! ### Memory -/

/-- MemRead: bits 8k+7 to 8k of the value are the byte at the address plus k, modulo 2^32, for every k below n. -/
def Obligations.MemReadAssemblesItsBytes : Prop :=
  ∀ (m : Memory) (a : Word32) (n k : Nat), k < n →
    (m.read a n).extractLsb' (8 * k) 8 = m.byteAt (a + BitVec.ofNat 32 k)

/-- MemWrite of 1, 2, 4, 6 or 8 bytes: the byte at the address plus k, modulo 2^32, becomes bits 8k+7 to 8k of the value, and
no other byte changes. -/
def Obligations.MemWriteStoresItsBytesAndNoOther : Prop :=
  ∀ (m : Memory) (a : Word32) (n : Nat) (v : BitVec (8 * n)), m.wf = true → n ≤ 8 →
    (∀ k, k < n → (m.write a n v).byteAt (a + BitVec.ofNat 32 k) = v.extractLsb' (8 * k) 8)
      ∧ ∀ b, (∀ k, k < n → b ≠ a + BitVec.ofNat 32 k) → (m.write a n v).byteAt b = m.byteAt b

/-- A read of what was written gives the value, at any address and alignment, across the top of memory too; and the write
keeps the canonical form (decisions D14, D15). -/
def Obligations.MemReadAfterMemWriteGivesTheValue : Prop :=
  ∀ (m : Memory) (a : Word32) (n : Nat) (v : BitVec (8 * n)), m.wf = true → n ≤ 8 →
    (m.write a n v).read a n = v ∧ (m.write a n v).wf = true

/-- A segment-relative access that AccessCheck turns down ends in its exception; a write that would touch the code region is
refused; every other access is done at the linear address, and a write then changes memory alone (decisions D16, D24). -/
def Obligations.SegmentAccessChecksThenAccesses : Prop :=
  ∀ (s : State) (g : SegName) (off : Word32) (n : Nat) (v : BitVec (8 * n)),
    (∀ e, accessCheck s g off n .read = some e → segRead s g off n = .fault (.exception e.name.number e.code))
      ∧ (accessCheck s g off n .read = none → segRead s g off n = .next (s.mem.read ((s.segs.get g).base + off) n))
      ∧ (∀ e, accessCheck s g off n .write = some e → segWrite s g off n v = .fault (.exception e.name.number e.code))
      ∧ (accessCheck s g off n .write = none →
          ((∃ k, k < n ∧ inCode s ((s.segs.get g).base + off + BitVec.ofNat 32 k) = true) →
              segWrite s g off n v = .refused .storeIntoCode)
            ∧ ((∀ k, k < n → inCode s ((s.segs.get g).base + off + BitVec.ofNat 32 k) = false) →
              segWrite s g off n v = .next { s with mem := s.mem.write ((s.segs.get g).base + off) n v }))

/-! ### Operands -/

/-- With mod <> 11, ReadRM and WriteRM are the checked read and write of 1, 2 or 4 bytes at the effective address in the overriding
or default segment, with their faults and the refusal of a store into code; with mod = 11, those of the register of the r/m code.
WriteRM then ReadRM gives the value, for a register operand always, and for a memory operand where the write and the read are
admitted and no byte is code; a register write changes the register of the r/m code alone, in its bits alone, and a memory write no
register (decisions D4, D8, D14, D16, D24). -/
def Obligations.ReadRMAfterWriteRMGivesTheValue : Prop :=
  ∀ (s : State) (w : OpWidth) (a : AddrSpec) (v : BitVec w.bits),
    ((w = .w8 → w.bytes = 1) ∧ (w = .w16 → w.bytes = 2) ∧ (w = .w32 → w.bytes = 4))
      ∧ (a.modrm.mod = 3#2 → readRM s w a = .next (s.regs.read w a.modrm.rm))
      ∧ (a.modrm.mod ≠ 3#2 →
          readRM s w a = segRead s (segOrOverride s (defaultSeg s a)) (ea s a) w.bytes
            ∧ writeRM s w a v = segWrite s (segOrOverride s (defaultSeg s a)) (ea s a) w.bytes v
            ∧ (∀ g, s.pfx.seg = some g → segOrOverride s (defaultSeg s a) = g)
            ∧ (s.pfx.seg = none → segOrOverride s (defaultSeg s a) = defaultSeg s a))
      ∧ (a.modrm.mod = 3#2 →
        ∃ t, writeRM s w a v = .next t ∧ t = { s with regs := s.regs.write w a.modrm.rm v } ∧ readRM t w a = .next v
          ∧ (w ≠ .w8 → ∀ d, d ≠ a.modrm.rm → t.regs.r32 d = s.regs.r32 d)
          ∧ (w ≠ .w32 → ∀ d, (t.regs.r32 d).extractLsb' 16 16 = (s.regs.r32 d).extractLsb' 16 16)
          ∧ (w = .w8 → (∀ d, d ≠ a.modrm.rm → t.regs.r8 d = s.regs.r8 d)
              ∧ ∀ d : BitVec 3, 4 ≤ d.toNat → t.regs.r32 d = s.regs.r32 d))
      ∧ (a.modrm.mod ≠ 3#2 → s.mem.wf = true →
          accessCheck s (segOrOverride s (defaultSeg s a)) (ea s a) w.bytes .write = none →
          accessCheck s (segOrOverride s (defaultSeg s a)) (ea s a) w.bytes .read = none →
          touchesCode s (lin s (segOrOverride s (defaultSeg s a)) (ea s a)) w.bytes = false →
          ∃ t, writeRM s w a v = .next t ∧ t = { s with mem := t.mem } ∧ readRM t w a = .next v
            ∧ ∀ b, (∀ k, k < w.bytes →
                  b ≠ lin s (segOrOverride s (defaultSeg s a)) (ea s a) + BitVec.ofNat 32 k) →
                t.mem.byteAt b = s.mem.byteAt b)

/-- The two-part operands. A far pointer in the instruction is a cd under OperandSize 16 and a cp under OperandSize 32, no other
code offset, and has its offset in the first 2 or 4 bytes and its selector in the 2 after them; so has a far pointer in memory
(decision D17). BOUND's operand has the lower bound in its first half and the upper in its second (decision D18), words being answered
zero-extended to 32 bits (the model's choice, log entry 44). Those in memory are read as one access of the whole size (the model's
reading, log entry 19): where AccessCheck turns it down its exception is raised (decision D16), and a register is refused (decision
D13). Each class of these r/m operands reads its own operand: m16:16 and m16:32 the far pointer, m16 & 16 and m32 & 32 the two
halves at their own width. -/
def Obligations.TwoPartOperandsLayout : Prop :=
  (∀ b0 b1 b2 b3 b4 b5 : Byte,
      farOfCode .s16 (.cd (b3 ++ b2 ++ b1 ++ b0)) = some { offset := (b1 ++ b0).setWidth 32, selector := b3 ++ b2 }
        ∧ farOfCode .s32 (.cp (b5 ++ b4 ++ b3 ++ b2 ++ b1 ++ b0)) =
            some { offset := b3 ++ b2 ++ b1 ++ b0, selector := b5 ++ b4 })
    ∧ (∀ c : CodeField, ((∀ v, c ≠ .cd v) → farOfCode .s16 c = none) ∧ ((∀ v, c ≠ .cp v) → farOfCode .s32 c = none))
    ∧ (∀ (s : State) (a : AddrSpec) (os : AttrSize), a.modrm.mod = 3#2 →
        readFar s os a = .refused .registerWhereMemoryRequired ∧ boundOperand s os a = .refused .registerWhereMemoryRequired
          ∧ readRmOf s .pair16x16 a = .refused .registerWhereMemoryRequired
          ∧ readRmOf s .pair32x32 a = .refused .registerWhereMemoryRequired)
    ∧ (∀ (s : State) (a : AddrSpec), readRmOf s .far16 a = andThen (readFar s .s16 a) (fun p => .next (.far p))
        ∧ readRmOf s .far32 a = andThen (readFar s .s32 a) (fun p => .next (.far p)))
    ∧ ∀ (s : State) (a : AddrSpec) (g : SegName) (off : Word32), memOperand s a = .next (g, off) →
      (accessCheck s g off 4 .read = none →
          readFar s .s16 a = .next { offset := (s.mem.read (lin s g off) 2).setWidth 32,
                                     selector := s.mem.read (lin s g off + 2#32) 2 }
            ∧ boundOperand s .s16 a = .next ((s.mem.read (lin s g off) 2).setWidth 32,
                                             (s.mem.read (lin s g off + 2#32) 2).setWidth 32)
            ∧ readRmOf s .pair16x16 a = .next (.bounds16 (s.mem.read (lin s g off) 2) (s.mem.read (lin s g off + 2#32) 2)))
        ∧ (accessCheck s g off 6 .read = none →
          readFar s .s32 a = .next { offset := s.mem.read (lin s g off) 4,
                                     selector := s.mem.read (lin s g off + 4#32) 2 })
        ∧ (accessCheck s g off 8 .read = none →
          boundOperand s .s32 a = .next (s.mem.read (lin s g off) 4, s.mem.read (lin s g off + 4#32) 4)
            ∧ readRmOf s .pair32x32 a = .next (.bounds32 (s.mem.read (lin s g off) 4) (s.mem.read (lin s g off + 4#32) 4)))
        ∧ (∀ e, accessCheck s g off 4 .read = some e → readFar s .s16 a = .fault (.exception e.name.number e.code)
            ∧ boundOperand s .s16 a = .fault (.exception e.name.number e.code)
            ∧ readRmOf s .pair16x16 a = .fault (.exception e.name.number e.code))
        ∧ (∀ e, accessCheck s g off 6 .read = some e → readFar s .s32 a = .fault (.exception e.name.number e.code))
        ∧ ∀ e, accessCheck s g off 8 .read = some e → boundOperand s .s32 a = .fault (.exception e.name.number e.code)
            ∧ readRmOf s .pair32x32 a = .fault (.exception e.name.number e.code)

/-- LGDT's and LIDT's effect: the limit from the word, the base from the doubleword two bytes on, and nothing else changes;
the first read that is turned down ends it with its exception (decisions D16, D18; two reads, as the rule writes them, log entry
19). A register is refused (decision D13). An r/m operand of the class m16 & 32 reads that limit and base, and stops as they do. -/
def Obligations.DescriptorTableLoadsSetLimitAndBase : Prop :=
  ∀ (s : State) (a : AddrSpec),
    (a.modrm.mod = 3#2 → loadGDTR s a = .refused .registerWhereMemoryRequired
        ∧ loadIDTR s a = .refused .registerWhereMemoryRequired
        ∧ readRmOf s .pair16x32 a = .refused .registerWhereMemoryRequired)
    ∧ ∀ (g : SegName) (off : Word32), memOperand s a = .next (g, off) →
    (accessCheck s g off 2 .read = none → accessCheck s g (off + 2#32) 4 .read = none →
        loadGDTR s a = .next { s with gdtr := { limit := s.mem.read (lin s g off) 2,
                                                base := s.mem.read (lin s g (off + 2#32)) 4 } }
          ∧ loadIDTR s a = .next { s with idtr := { limit := s.mem.read (lin s g off) 2,
                                                    base := s.mem.read (lin s g (off + 2#32)) 4 } }
          ∧ readRmOf s .pair16x32 a = .next (.table { limit := s.mem.read (lin s g off) 2,
                                                      base := s.mem.read (lin s g (off + 2#32)) 4 }))
      ∧ ∀ e, (accessCheck s g off 2 .read = some e
            ∨ accessCheck s g off 2 .read = none ∧ accessCheck s g (off + 2#32) 4 .read = some e) →
          loadGDTR s a = .fault (.exception e.name.number e.code)
            ∧ loadIDTR s a = .fault (.exception e.name.number e.code)
            ∧ readRmOf s .pair16x32 a = .fault (.exception e.name.number e.code)

/-- A relative target lies its signed displacement from the end of the instruction, modulo 2^32 under OperandSize 32 and
modulo 2^16 under OperandSize 16; a rel8 is its signed byte, from 128 back to 127 forward, a rel16 its signed word, and a rel32
its doubleword (decision D5). -/
def Obligations.RelativeTargetIsSignedFromTheEnd : Prop :=
  ∀ (e rel : Word32) (c : Byte) (w : Word16),
    (relTarget .s32 e rel).toNat = (((e.toNat : Int) + rel.toInt) % 2 ^ 32).toNat
      ∧ (relTarget .s16 e rel).toNat = (((e.toNat : Int) + rel.toInt) % 2 ^ 16).toNat
      ∧ (∃ r, relOfCode (.cb c) = some r ∧ r.toInt = c.toInt ∧ -128 ≤ r.toInt ∧ r.toInt ≤ 127)
      ∧ (∃ r, relOfCode (.cw w) = some r ∧ r.toInt = w.toInt)
      ∧ relOfCode (.cd rel) = some rel

/-! ### The functions of the "Operation" sections -/

/-- Truncate to 16 bits: the low 16 bits, and a value of at most 16 bits unchanged. -/
def Obligations.TruncateKeepsTheLow16Bits : Prop :=
  ∀ (n : Nat) (v : BitVec n), (truncate16 v).toNat = v.toNat % 2 ^ 16 ∧ (n ≤ 16 → (truncate16 v).toNat = v.toNat)

/-- ZeroExtend: the value itself at the operand size; a wider value is refused, which the source does not cover (log entry 45). -/
def Obligations.ZeroExtendKeepsTheValue : Prop :=
  ∀ (os : AttrSize) (n : Nat) (v : BitVec n),
    (n ≤ os.bits → ∃ w, zeroExtend os v = .next w ∧ w.toNat = v.toNat)
      ∧ (os.bits < n → zeroExtend os v = .refused .extendOfWiderValue)

/-- SignExtend: the signed value itself at the operand size; a wider value is refused, which the source does not cover (log
entry 45). An imm8 with a byte, word or doubleword operand is its signed value (-128 to 127), at the operand's width. -/
def Obligations.SignExtendKeepsTheSignedValue : Prop :=
  (∀ (os : AttrSize) (n : Nat) (v : BitVec n),
    (n ≤ os.bits → ∃ w, signExtend os v = .next w ∧ w.toInt = v.toInt)
      ∧ (os.bits < n → signExtend os v = .refused .extendOfWiderValue))
    ∧ ∀ (w : OpWidth) (v : Byte), (imm8With w v).toInt = v.toInt ∧ -128 ≤ (imm8With w v).toInt ∧ (imm8With w v).toInt ≤ 127

/-- Push, where the store is admitted and touches no code: SP or ESP goes down by the operand size, 2 or 4 bytes, modulo its width
(bits 31 to 16 of ESP stay on a 16-bit stack), the value lies little-endian at SS:[SP] or SS:[ESP], and no other register, byte or
field changes. Where AccessCheck turns the store down, its exception is raised (decisions D14, D16, D29). -/
def Obligations.PushStoresAtTheNewTop : Prop :=
  ∀ (s : State) (os : AttrSize) (v : BitVec os.bits) (top : Word32),
    top = (match s.stackAddrSize with
      | .s16 => (s.regs.r16 4#3 - BitVec.ofNat 16 os.bytes).setWidth 32
      | .s32 => s.regs.esp - BitVec.ofNat 32 os.bytes) →
    ((os = .s16 → os.bytes = 2) ∧ (os = .s32 → os.bytes = 4))
      ∧ (∀ e, accessCheck s .ss top os.bytes .write = some e → push s os v = .fault (.exception e.name.number e.code))
      ∧ (accessCheck s .ss top os.bytes .write = none → touchesCode s (lin s .ss top) os.bytes = true →
          push s os v = .refused .storeIntoCode)
      ∧ (accessCheck s .ss top os.bytes .write = none → touchesCode s (lin s .ss top) os.bytes = false →
        s.mem.wf = true →
        ∃ t, push s os v = .next t ∧ t = { s with regs := { s.regs with esp := t.regs.esp }, mem := t.mem }
          ∧ stackTop t = top
          ∧ (s.stackAddrSize = .s16 → t.regs.esp.extractLsb' 16 16 = s.regs.esp.extractLsb' 16 16)
          ∧ (∀ k, k < os.bytes → t.mem.byteAt (lin s .ss top + BitVec.ofNat 32 k) = v.extractLsb' (8 * k) 8)
          ∧ ∀ b, (∀ k, k < os.bytes → b ≠ lin s .ss top + BitVec.ofNat 32 k) → t.mem.byteAt b = s.mem.byteAt b)

/-- Pop, where the load is admitted: it answers the value at SS:[SP] or SS:[ESP], SP or ESP goes up by the operand size modulo
its width, and nothing else changes, memory and bits 31 to 16 of ESP on a 16-bit stack among it. Where AccessCheck turns the
load down, its exception is raised (decisions D16, D29). -/
def Obligations.PopReturnsTheTop : Prop :=
  ∀ (s : State) (os : AttrSize),
    (∀ e, accessCheck s .ss (stackTop s) os.bytes .read = some e → pop s os = .fault (.exception e.name.number e.code))
      ∧ (accessCheck s .ss (stackTop s) os.bytes .read = none →
        ∃ t, pop s os = .next (s.mem.read (lin s .ss (stackTop s)) os.bytes, t)
          ∧ t = { s with regs := { s.regs with esp := t.regs.esp } }
          ∧ (s.stackAddrSize = .s16 → t.regs.r16 4#3 = s.regs.r16 4#3 + BitVec.ofNat 16 os.bytes
              ∧ t.regs.esp.extractLsb' 16 16 = s.regs.esp.extractLsb' 16 16)
          ∧ (s.stackAddrSize = .s32 → t.regs.esp = s.regs.esp + BitVec.ofNat 32 os.bytes))

/-- Pop after Push gives the pushed value back, and the registers as they were, under every pair of sizes (decision D29). -/
def Obligations.PopAfterPushRestoresTheStack : Prop :=
  ∀ (s t : State) (os : AttrSize) (v : BitVec os.bits), s.mem.wf = true → push s os v = .next t →
    accessCheck t .ss (stackTop t) os.bytes .read = none → pop t os = .next (v, { s with mem := t.mem })

/-- DIV by 8 is the floor and MOD 8 the remainder in 0..7, for every integer, and not the truncating pair. -/
def Obligations.BitDivAndModRoundDown : Prop :=
  (∀ a : Int, 8 * bitDiv a 8 ≤ a ∧ a < 8 * bitDiv a 8 + 8 ∧ bitMod a 8 = a - 8 * bitDiv a 8
      ∧ 0 ≤ bitMod a 8 ∧ bitMod a 8 < 8)
    ∧ bitDiv (-1) 8 = -1 ∧ bitMod (-1) 8 = 7 ∧ bitDiv (-8) 8 = -1 ∧ bitMod (-8) 8 = 0
    ∧ bitDiv (-9) 8 = -2 ∧ bitMod (-9) 8 = 7

/-- Bit with a memory base: the byte at BitBase + q and bit k, where the signed offset is 8*q + k with k in 0..7, so that q
rounds towards negative infinity; the sum is modulo 2^32, or 2^16 under AddressSize 16 (the modulus is the spec's own inference).
The value of a bit in memory is that bit of the byte at its offset of the operand's segment, read as one access of one byte (the
model's reading, log entry 42): where AccessCheck turns it down its exception is raised (decision D16). -/
def Obligations.BitOfMemoryRoundsDown : Prop :=
  (∀ base off : Word32,
      ∃ (q : Int) (k : Nat), off.toInt = 8 * q + (k : Int) ∧ k < 8
        ∧ bitOfMem .s32 base off = .mem (base + BitVec.ofInt 32 q) k
        ∧ bitOfMem .s16 base off = .mem (((base + BitVec.ofInt 32 q).setWidth 16).setWidth 32) k)
    ∧ ∀ (s : State) (g : SegName) (off : Word32) (k : Nat),
        (accessCheck s g off 1 .read = none →
            readBit s g (.mem off k) = .next ((s.mem.byteAt ((s.segs.get g).base + off)).getLsbD k))
          ∧ ∀ e, accessCheck s g off 1 .read = some e → readBit s g (.mem off k) = .fault (.exception e.name.number e.code)

/-- Bit with a register base: bits 0 to 31 of a doubleword register, 0 to 15 of a word register, refused beyond (decision
D33); the bit's value is the register's. -/
def Obligations.BitOfRegisterIsInRange : Prop :=
  ∀ (s : State) (os : AttrSize) (c : BitVec 3) (k : Nat),
    (k < os.bits → bitOfReg os c k = .next (.reg c k) ∧ ∀ g, readBit s g (.reg c k) = .next ((s.regs.r32 c).getLsbD k))
      ∧ (os.bits ≤ k → bitOfReg os c k = .refused .bitOffsetBeyondRegister)

/-- I-O-Permission: never with a 286 TSS; with a 386 TSS exactly when the bit of every port of the access is 0 in the bit
string that starts at the bitmap pointer (the readings (a) to (e) of the spec's own decision D19). -/
def Obligations.IOPermissionMeansEveryPortBitIsClear : Prop :=
  ∀ (s : State) (a : BitVec Config.ioAddrBits) (w : IOWidth),
    ioPermission s a w = true ↔
      s.tssType = .tss386 ∧ ∀ j, j < w.ports →
        (s.mem.byteAt (s.tssBase + BitVec.ofNat 32
            ((s.mem.read (s.tssBase + Config.ioMapBaseOffset) 2).toNat + (a.toNat + j) / 8))).getLsbD
          ((a.toNat + j) % 8) = false

/-! ### Exceptions -/

/-- The nine exceptions have the interrupt numbers of Table 17-6. -/
def Obligations.ExceptionNumbersFollowTable17_6 : Prop :=
  ([ExnName.ud, .nm, .df, .ts, .np, .ss, .gp, .pf, .mf].map ExnName.number) = [6, 7, 8, 10, 11, 12, 13, 14, 16]
    ∧ ∀ x : ExnName, x ∈ [ExnName.ud, .nm, .df, .ts, .np, .ss, .gp, .pf, .mf]

/-- Raising an exception is the fault with its number and its error code and nothing more: no next state, so nothing is saved
and no handler is entered (decision D21). -/
def Obligations.RaiseIsTheTerminalFault : Prop :=
  ∀ e f : Exn, (raise e : Res State) = .fault (.exception e.name.number e.code)
    ∧ ((raise e : Res State) = raise f → e = f)
end

