-- ==== Sys2Proof/Laws/Word.lean ====
section
/-!
SUPPORT. The widths of sizes and operands, by value.
-/

namespace Sys2Proof

@[simp] theorem AttrSize.bytes_s16 : AttrSize.s16.bytes = 2 := rfl
@[simp] theorem AttrSize.bytes_s32 : AttrSize.s32.bytes = 4 := rfl
@[simp] theorem AttrSize.other_s16 : AttrSize.s16.other = .s32 := rfl
@[simp] theorem AttrSize.other_s32 : AttrSize.s32.other = .s16 := rfl
@[simp] theorem AttrSize.other_other (a : AttrSize) : a.other.other = a := by cases a <;> rfl
theorem AttrSize.bytes_le_four (a : AttrSize) : a.bytes ≤ 4 := by cases a <;> decide
theorem AttrSize.bytes_pos (a : AttrSize) : 0 < a.bytes := by cases a <;> decide
@[simp] theorem OpWidth.bytes_w8 : OpWidth.w8.bytes = 1 := rfl
@[simp] theorem OpWidth.bytes_w16 : OpWidth.w16.bytes = 2 := rfl
@[simp] theorem OpWidth.bytes_w32 : OpWidth.w32.bytes = 4 := rfl
theorem OpWidth.bytes_le_four (w : OpWidth) : w.bytes ≤ 4 := by cases w <;> decide

end Sys2Proof
end

