-- ==== Sys2Proof/Laws/Memory.lean ====
section
/-!
SUPPORT. What the memory operations do: a read after a write, the frame of a write, and that every write keeps the
canonical form.
-/

namespace Sys2Proof.Machine

/-! ### One byte -/

theorem Memory.get_of_lt (lim : Nat) : ∀ (m : Memory) (lo x : Nat), Memory.wfFrom lim lo m = true → x < lo →
    m.get x = Config.unlistedByte
  | [], _, _, _, _ => rfl
  | (a, b) :: rest, lo, x, h, hx => by
    simp only [Memory.wfFrom, Bool.and_eq_true, decide_eq_true_eq] at h
    have ha : a ≠ x := by omega
    simp only [Memory.get, ha, if_false]
    exact Memory.get_of_lt lim rest (a + 1) x h.2 (by omega)

/-- Reading the written address gives the written byte. -/
theorem Memory.get_set_same (lim : Nat) : ∀ (m : Memory) (lo x : Nat) (v : Byte), Memory.wfFrom lim lo m = true →
    (m.set x v).get x = v
  | [], _, x, v, _ => by
    by_cases hv : v = Config.unlistedByte <;> simp [Memory.set, Memory.get, hv]
  | (a, b) :: rest, lo, x, v, h => by
    simp only [Memory.wfFrom, Bool.and_eq_true, decide_eq_true_eq] at h
    unfold Memory.set
    split
    next hlt =>
      split
      next hv =>
        have ha : a ≠ x := by omega
        simp only [Memory.get, ha, if_false]
        rw [hv]
        exact Memory.get_of_lt lim rest (a + 1) x h.2 (by omega)
      next => simp [Memory.get]
    next hge =>
      split
      next he =>
        split
        next hv => rw [hv]; exact Memory.get_of_lt lim rest (a + 1) x h.2 (by omega)
        next => simp [Memory.get]
      next hne =>
        have ha : a ≠ x := by omega
        simp only [Memory.get, ha, if_false]
        exact Memory.get_set_same lim rest (a + 1) x v h.2

/-- Every other address reads as before. -/
theorem Memory.get_set_other : ∀ (m : Memory) (x y : Nat) (v : Byte), y ≠ x → (m.set x v).get y = m.get y
  | [], x, y, v, hy => by
    by_cases hv : v = Config.unlistedByte <;> simp [Memory.set, Memory.get, hv, Ne.symm hy]
  | (a, b) :: rest, x, y, v, hy => by
    unfold Memory.set
    split
    next => split <;> simp [Memory.get, Ne.symm hy]
    next =>
      split
      next he => subst he; split <;> simp [Memory.get, Ne.symm hy]
      next => simp only [Memory.get]; rw [Memory.get_set_other rest x y v hy]

/-- Weakening the lower bound of the canonical form. -/
theorem Memory.wfFrom_mono (lim : Nat) (m : Memory) (lo lo' : Nat) (h : Memory.wfFrom lim lo m = true) (hl : lo' ≤ lo) :
    Memory.wfFrom lim lo' m = true := by
  cases m with
  | nil => rfl
  | cons c rest =>
    obtain ⟨a, b⟩ := c
    simp only [Memory.wfFrom, Bool.and_eq_true, decide_eq_true_eq] at h ⊢
    exact ⟨⟨⟨by omega, h.1.1.2⟩, h.1.2⟩, h.2⟩

/-- A write below the limit keeps the canonical form. -/
theorem Memory.wfFrom_set (lim : Nat) : ∀ (m : Memory) (lo x : Nat) (v : Byte), Memory.wfFrom lim lo m = true → lo ≤ x →
    x < lim → Memory.wfFrom lim lo (m.set x v) = true
  | [], lo, x, v, _, hlo, hlim => by
    by_cases hv : v = Config.unlistedByte <;> simp [Memory.set, Memory.wfFrom, hv, hlo, hlim]
  | (a, b) :: rest, lo, x, v, h, hlo, hlim => by
    have h0 := h
    simp only [Memory.wfFrom, Bool.and_eq_true, decide_eq_true_eq] at h
    unfold Memory.set
    split
    next hlt =>
      split
      next => exact h0
      next hv =>
        simp only [Memory.wfFrom, Bool.and_eq_true, decide_eq_true_eq, bne_iff_ne, ne_eq]
        exact ⟨⟨⟨hlo, hlim⟩, hv⟩, ⟨⟨by omega, h.1.1.2⟩, by simpa using h.1.2⟩, h.2⟩
    next hge =>
      split
      next he =>
        subst he
        split
        next => exact Memory.wfFrom_mono lim rest (x + 1) lo h.2 (by omega)
        next hv =>
          simp only [Memory.wfFrom, Bool.and_eq_true, decide_eq_true_eq, bne_iff_ne, ne_eq]
          exact ⟨⟨⟨hlo, hlim⟩, hv⟩, h.2⟩
      next hne =>
        simp only [Memory.wfFrom, Bool.and_eq_true, decide_eq_true_eq]
        exact ⟨⟨⟨h.1.1.1, h.1.1.2⟩, h.1.2⟩, Memory.wfFrom_set lim rest (a + 1) x v h.2 (by omega) hlim⟩

/-- Writing a byte at a linear address keeps the canonical form of memory. -/
theorem Memory.wf_set (m : Memory) (a : Word32) (v : Byte) (h : m.wf = true) : (m.set a.toNat v).wf = true :=
  Memory.wfFrom_set _ m 0 _ v h (Nat.zero_le _) a.isLt

/-- Reading back a byte written at a linear address. -/
theorem Memory.byteAt_set_same (m : Memory) (a : Word32) (v : Byte) (h : m.wf = true) :
    Memory.byteAt (m.set a.toNat v) a = v :=
  Memory.get_set_same _ m 0 _ v h

/-- A byte at another linear address reads as before. -/
theorem Memory.byteAt_set_other (m : Memory) (a b : Word32) (v : Byte) (h : b ≠ a) :
    Memory.byteAt (m.set a.toNat v) b = m.byteAt b :=
  Memory.get_set_other m _ _ v (fun e => h (BitVec.eq_of_toNat_eq e))

/-! ### Several bytes -/

/-- Writing a list of bytes keeps the canonical form. -/
theorem Memory.wf_put : ∀ (l : List Byte) (m : Memory) (a : Word32), m.wf = true → (m.put a l).wf = true
  | [], _, _, h => h
  | b :: l, m, a, h => Memory.wf_put l _ _ (Memory.wf_set m a b h)

/-- MemWrite keeps the canonical form. -/
theorem Memory.wf_write (m : Memory) (a : Word32) (n : Nat) (v : BitVec (8 * n)) (h : m.wf = true) :
    (m.write a n v).wf = true :=
  Memory.wf_put _ m a h

theorem add_ofNat_succ (a : Word32) (k : Nat) : a + 1#32 + BitVec.ofNat 32 k = a + BitVec.ofNat 32 (k + 1) := by
  rw [BitVec.add_assoc]; congr 1; apply BitVec.eq_of_toNat_eq; simp [Nat.add_comm]

/-- An address off every written one reads as before. -/
theorem Memory.byteAt_put_other : ∀ (l : List Byte) (m : Memory) (a b : Word32),
    (∀ k, k < l.length → b ≠ a + BitVec.ofNat 32 k) → (m.put a l).byteAt b = m.byteAt b
  | [], _, _, _, _ => rfl
  | c :: l, m, a, b, h => by
    have h0 : b ≠ a := by simpa using h 0 (by simp)
    rw [Memory.put, Memory.byteAt_put_other l _ (a + 1#32) b, Memory.byteAt_set_other m a b c h0]
    intro k hk
    rw [add_ofNat_succ]
    exact h (k + 1) (by simpa using hk)

/-- Distinct offsets below 2^32 give distinct addresses. -/
theorem add_ofNat_inj (a : Word32) (j k : Nat) (hj : j < 2 ^ 32) (hk : k < 2 ^ 32)
    (h : a + BitVec.ofNat 32 j = a + BitVec.ofNat 32 k) : j = k := by
  have := congrArg BitVec.toNat ((BitVec.add_right_inj a).mp h)
  simp only [BitVec.toNat_ofNat] at this
  omega

/-- Reading back the `k`-th byte of a written list. -/
theorem Memory.byteAt_put_same : ∀ (l : List Byte) (m : Memory) (a : Word32) (k : Nat), m.wf = true → l.length ≤ 2 ^ 32 →
    (hk : k < l.length) → (m.put a l).byteAt (a + BitVec.ofNat 32 k) = l[k]
  | [], _, _, _, _, _, hk => absurd hk (by simp)
  | c :: l, m, a, 0, h, hl, _ => by
    have ha : a + BitVec.ofNat 32 0 = a := by simp
    rw [ha, Memory.put, Memory.byteAt_put_other l _ _ a, Memory.byteAt_set_same m a c h]
    · rfl
    · intro k hk e
      rw [add_ofNat_succ] at e
      have hl' : k + 1 < 2 ^ 32 := by simp only [List.length_cons] at hl; omega
      have := add_ofNat_inj a 0 (k + 1) (by omega) hl' (by simpa using e)
      omega
  | c :: l, m, a, k + 1, h, hl, hk => by
    have hk' : k < l.length := by simpa using hk
    have ih := Memory.byteAt_put_same l _ (a + 1#32) k (Memory.wf_set m a c h)
      (by simp only [List.length_cons] at hl; omega) hk'
    rw [add_ofNat_succ] at ih
    simpa [Memory.put] using ih

/-! ### Little-endian values -/

theorem leNat_lt : ∀ l : List Byte, leNat l < 2 ^ (8 * l.length)
  | [] => by simp [leNat]
  | b :: l => by
    have h := leNat_lt l
    have hb := b.isLt
    have e : 2 ^ (8 * (l.length + 1)) = 256 * 2 ^ (8 * l.length) := by rw [Nat.mul_add, Nat.pow_add]; omega
    simp only [leNat, List.length_cons, e]
    omega

@[simp] theorem leBytes_length : ∀ n v, (leBytes n v).length = n
  | 0, _ => rfl
  | n + 1, v => by simp [leBytes, leBytes_length n]

@[simp] theorem Memory.bytesAt_length (m : Memory) : ∀ (n : Nat) (a : Word32), (m.bytesAt a n).length = n
  | 0, _ => rfl
  | n + 1, a => by simp [Memory.bytesAt, Memory.bytesAt_length m n]

/-- The number of the `n` low bytes of a number. -/
theorem leNat_leBytes : ∀ n v, leNat (leBytes n v) = v % 2 ^ (8 * n)
  | 0, v => by simp [leBytes, leNat, Nat.mod_one]
  | n + 1, v => by
    have e : 2 ^ (8 * (n + 1)) = 256 * 2 ^ (8 * n) := by rw [Nat.mul_add, Nat.pow_add]; omega
    simp only [leBytes, leNat, leNat_leBytes n, e, BitVec.toNat_ofNat]
    rw [Nat.mod_mul]

/-- The bytes of the number of a list are the list. -/
theorem leBytes_leNat : ∀ l : List Byte, leBytes l.length (leNat l) = l
  | [] => rfl
  | b :: l => by
    have hb := b.isLt
    have e : (b.toNat + 256 * leNat l) / 256 = leNat l := by omega
    simp only [List.length_cons, leBytes, leNat, e, leBytes_leNat l]
    congr 1
    apply BitVec.eq_of_toNat_eq
    simp only [BitVec.toNat_ofNat]
    omega

/-- Byte `k` of a number. -/
theorem leBytes_getElem : ∀ (n v k : Nat) (h : k < (leBytes n v).length), (leBytes n v)[k] = BitVec.ofNat 8 (v / 2 ^ (8 * k))
  | 0, _, _, h => absurd h (by simp [leBytes])
  | n + 1, v, 0, _ => by simp [leBytes]
  | n + 1, v, k + 1, h => by
    have hk : k < (leBytes n (v / 256)).length := by simpa [leBytes] using h
    have e : v / 2 ^ (8 * (k + 1)) = v / 256 / 2 ^ (8 * k) := by
      rw [Nat.div_div_eq_div_mul]; congr 1; rw [Nat.mul_add, Nat.pow_add]; omega
    rw [e, ← leBytes_getElem n (v / 256) k hk]
    rfl

/-- Byte `k` of a MemRead's byte list. -/
theorem Memory.bytesAt_getElem (m : Memory) : ∀ (n : Nat) (a : Word32) (k : Nat) (h : k < (m.bytesAt a n).length),
    (m.bytesAt a n)[k] = m.byteAt (a + BitVec.ofNat 32 k)
  | 0, _, _, h => absurd h (by simp [Memory.bytesAt])
  | n + 1, a, 0, _ => by simp [Memory.bytesAt]
  | n + 1, a, k + 1, h => by
    have hk : k < (m.bytesAt (a + 1#32) n).length := by simpa [Memory.bytesAt] using h
    rw [← add_ofNat_succ, ← Memory.bytesAt_getElem m n (a + 1#32) k hk]
    rfl

/-- MemRead's value as a number. -/
theorem Memory.read_toNat (m : Memory) (a : Word32) (n : Nat) : (m.read a n).toNat = leNat (m.bytesAt a n) := by
  have h := leNat_lt (m.bytesAt a n)
  rw [Memory.bytesAt_length] at h
  simp [Memory.read, Nat.mod_eq_of_lt h]

/-- The bytes of MemRead's value are the bytes it read. -/
theorem Memory.leBytes_read (m : Memory) (a : Word32) (n : Nat) : leBytes n (m.read a n).toNat = m.bytesAt a n := by
  rw [Memory.read_toNat]
  have h := leBytes_leNat (m.bytesAt a n)
  rwa [Memory.bytesAt_length] at h

/-- A bit of a multi-byte read is a bit of one of its bytes. -/
theorem Memory.read_getLsbD (m : Memory) (a : Word32) (n i : Nat) (hi : i < 8 * n) :
    (m.read a n).getLsbD i = (m.byteAt (a + BitVec.ofNat 32 (i / 8))).getLsbD (i % 8) := by
  have hb : (m.read a n).toNat / 2 ^ (8 * (i / 8)) % 2 ^ 8 = (m.byteAt (a + BitVec.ofNat 32 (i / 8))).toNat := by
    rw [← Memory.bytesAt_getElem m n a (i / 8) (by simp; omega)]
    have e := Memory.leBytes_read m a n
    have h := leBytes_getElem n (m.read a n).toNat (i / 8) (by simp; omega)
    simp only [e] at h
    rw [h, BitVec.toNat_ofNat]
  have e : i = 8 * (i / 8) + i % 8 := by omega
  simp only [BitVec.getLsbD, ← hb, Nat.testBit_mod_two_pow, Nat.testBit_div_two_pow, Nat.mod_lt i (by decide : 8 > 0),
    decide_true, Bool.true_and]
  rw [Nat.add_comm]
  congr 1

/-- A part of a multi-byte read, byte `j` on, is the read of that part. -/
theorem Memory.read_part (m : Memory) (a : Word32) (n j l : Nat) (h : j + l ≤ n) :
    (m.read a n).extractLsb' (8 * j) (8 * l) = m.read (a + BitVec.ofNat 32 j) l := by
  apply BitVec.eq_of_getLsbD_eq
  intro i hi
  have e1 : (8 * j + i) / 8 = j + i / 8 := by omega
  have e2 : (8 * j + i) % 8 = i % 8 := by omega
  have e3 : a + BitVec.ofNat 32 j + BitVec.ofNat 32 (i / 8) = a + BitVec.ofNat 32 (j + i / 8) := by
    rw [BitVec.add_assoc]; congr 1; apply BitVec.eq_of_toNat_eq; simp
  rw [BitVec.getLsbD_extractLsb', Memory.read_getLsbD m a n (8 * j + i) (by omega), Memory.read_getLsbD m _ l i hi, e1, e2, e3]
  simp [hi]

end Sys2Proof.Machine
end

