-- ==== Sys2Proof/Laws/Decode.lean ====
section
/-!
SUPPORT. One lemma for each parser: what it reads from the bytes its encoder writes, and what the bytes were when it reads
something.
-/

namespace Sys2Proof

open Sys2Proof.Machine

/-! ### Sequencing -/

@[simp] theorem Parse.andThen_ok {α β : Type} (a : α) (r : List Byte) (f : α → List Byte → Parse β) :
    (Parse.ok a r).andThen f = f a r := rfl

@[simp] theorem Parse.andThen_short {α β : Type} (f : α → List Byte → Parse β) : (Parse.short : Parse α).andThen f = .short := rfl

@[simp] theorem Parse.andThen_refuse {α β : Type} (x : DecodeStop) (f : α → List Byte → Parse β) :
    (Parse.refuse x : Parse α).andThen f = .refuse x := rfl

/-- A sequence that reads something read its first part and then its second. -/
theorem Parse.andThen_eq_ok {α β : Type} {p : Parse α} {f : α → List Byte → Parse β} {b : β} {r : List Byte}
    (h : p.andThen f = .ok b r) : ∃ a r', p = .ok a r' ∧ f a r' = .ok b r := by
  cases p with
  | ok a r' => exact ⟨a, r', rfl, h⟩
  | short => cases h
  | refuse x => cases h

/-! ### Bytes and little-endian fields -/

theorem takeBytes_append : ∀ (l rest : List Byte), takeBytes l.length (l ++ rest) = .ok l rest
  | [], _ => rfl
  | b :: l, rest => by simp [takeBytes, takeByte, takeBytes_append l rest]

theorem takeBytes_eq_ok : ∀ (n : Nat) (bs l rest : List Byte), takeBytes n bs = .ok l rest → bs = l ++ rest ∧ l.length = n
  | 0, bs, l, rest, h => by cases h; exact ⟨rfl, rfl⟩
  | n + 1, [], l, rest, h => by cases h
  | n + 1, b :: bs, l, rest, h => by
    obtain ⟨l', r', h1, h2⟩ := Parse.andThen_eq_ok (p := takeBytes n bs) h
    cases h2
    obtain ⟨e, hl⟩ := takeBytes_eq_ok n bs l' _ h1
    exact ⟨by rw [e]; rfl, by rw [List.length_cons, hl]⟩

/-- A little-endian field reads back the value whose bytes stand there. -/
theorem takeLE_leBytes (n : Nat) (v : BitVec (8 * n)) (rest : List Byte) :
    takeLE n (leBytes n v.toNat ++ rest) = .ok v rest := by
  have h := takeBytes_append (leBytes n v.toNat) rest
  rw [leBytes_length] at h
  simp only [takeLE, h, Parse.andThen_ok, leNat_leBytes]
  congr 1
  apply BitVec.eq_of_toNat_eq
  simp

/-- The bytes of a field that was read. -/
theorem takeLE_eq_ok {n : Nat} {bs rest : List Byte} {v : BitVec (8 * n)} (h : takeLE n bs = .ok v rest) :
    bs = leBytes n v.toNat ++ rest := by
  obtain ⟨l, r0, h1, h2⟩ := Parse.andThen_eq_ok (p := takeBytes n bs) h
  cases h2
  obtain ⟨e, hl⟩ := takeBytes_eq_ok n bs l _ h1
  have hlt := leNat_lt l
  rw [hl] at hlt
  have hb := leBytes_leNat l
  rw [hl] at hb
  rw [e, BitVec.toNat_ofNat, Nat.mod_eq_of_lt hlt, hb]

theorem leBytes_one (v : Byte) : leBytes 1 v.toNat = [v] := by simp [leBytes]

/-! ### The ModR/M and SIB bytes -/

theorem ModRM.toByte_ofByte (b : Byte) : (ModRM.ofByte b).toByte = b := by revert b; decide +kernel

theorem SIB.toByte_ofByte (b : Byte) : (SIB.ofByte b).toByte = b := by revert b; decide +kernel

theorem split_of_join (a : BitVec 2) (b c : BitVec 3) :
    (a ++ b ++ c : Byte).extractLsb' 6 2 = a ∧ (a ++ b ++ c : Byte).extractLsb' 3 3 = b
      ∧ (a ++ b ++ c : Byte).extractLsb' 0 3 = c := by
  revert a b c; decide +kernel

theorem ModRM.ofByte_toByte (m : ModRM) : ModRM.ofByte m.toByte = m := by
  obtain ⟨a, b, c⟩ := m
  obtain ⟨h1, h2, h3⟩ := split_of_join a b c
  simp only [ModRM.ofByte, ModRM.toByte]
  rw [ModRM.mk.injEq]
  exact ⟨h1, h2, h3⟩

theorem SIB.ofByte_toByte (x : SIB) : SIB.ofByte x.toByte = x := by
  obtain ⟨a, b, c⟩ := x
  obtain ⟨h1, h2, h3⟩ := split_of_join a b c
  simp only [SIB.ofByte, SIB.toByte]
  rw [SIB.mk.injEq]
  exact ⟨h1, h2, h3⟩

/-! ### The address specifier -/

theorem parseDisp_encode (d : Disp) (rest : List Byte) : parseDisp d.size (encodeDisp d ++ rest) = .ok d rest := by
  cases d with
  | none => rfl
  | d8 v =>
    have h := takeLE_leBytes 1 v rest
    rw [leBytes_one] at h
    simp only [Disp.size, encodeDisp, parseDisp, h, Parse.andThen_ok]
  | d16 v => simp only [Disp.size, encodeDisp, parseDisp, takeLE_leBytes 2 v rest, Parse.andThen_ok]
  | d32 v => simp only [Disp.size, encodeDisp, parseDisp, takeLE_leBytes 4 v rest, Parse.andThen_ok]

theorem parseDisp_eq_ok {z : DispSize} {bs rest : List Byte} {d : Disp} (h : parseDisp z bs = .ok d rest) :
    d.size = z ∧ bs = encodeDisp d ++ rest := by
  cases z with
  | none => cases h; exact ⟨rfl, rfl⟩
  | d8 =>
    obtain ⟨v, r, h1, h2⟩ := Parse.andThen_eq_ok (p := takeLE 1 bs) h
    cases h2
    have e := takeLE_eq_ok h1
    have e1 : leBytes 1 v.toNat = [v] := leBytes_one v
    exact ⟨rfl, by rw [e, e1]; rfl⟩
  | d16 =>
    obtain ⟨v, r, h1, h2⟩ := Parse.andThen_eq_ok (p := takeLE 2 bs) h
    cases h2
    exact ⟨rfl, takeLE_eq_ok h1⟩
  | d32 =>
    obtain ⟨v, r, h1, h2⟩ := Parse.andThen_eq_ok (p := takeLE 4 bs) h
    cases h2
    exact ⟨rfl, takeLE_eq_ok h1⟩

theorem parseSib_encode (sib : Option SIB) (rest : List Byte) :
    parseSib sib.isSome ((sib.map SIB.toByte).toList ++ rest) = .ok sib rest := by
  cases sib with
  | none => rfl
  | some x => simp [parseSib, takeByte, SIB.ofByte_toByte]

theorem parseSib_eq_ok {p : Bool} {bs rest : List Byte} {sib : Option SIB} (h : parseSib p bs = .ok sib rest) :
    sib.isSome = p ∧ bs = (sib.map SIB.toByte).toList ++ rest := by
  cases p with
  | false => cases h; exact ⟨rfl, rfl⟩
  | true =>
    obtain ⟨b, r, h1, h2⟩ := Parse.andThen_eq_ok (p := takeByte bs) h
    cases h2
    cases bs with
    | nil => cases h1
    | cons c bs => cases h1; exact ⟨rfl, by simp [SIB.toByte_ofByte]⟩

theorem parseAddrSpec_encode (as : AttrSize) (a : AddrSpec) (rest : List Byte) (h : a.fits as = true) :
    parseAddrSpec as (encodeAddrSpec a ++ rest) = .ok a rest := by
  obtain ⟨m, sib, d⟩ := a
  simp only [AddrSpec.fits, Bool.and_eq_true, beq_iff_eq] at h
  simp only [parseAddrSpec, encodeAddrSpec, List.cons_append, takeByte, Parse.andThen_ok, ModRM.ofByte_toByte,
    List.append_assoc, ← h.1, parseSib_encode, ← h.2, parseDisp_encode]

theorem parseAddrSpec_eq_ok {as : AttrSize} {bs rest : List Byte} {a : AddrSpec} (h : parseAddrSpec as bs = .ok a rest) :
    a.fits as = true ∧ bs = encodeAddrSpec a ++ rest := by
  cases bs with
  | nil => cases h
  | cons b bs =>
    obtain ⟨sib, r1, h1, h2⟩ := Parse.andThen_eq_ok (p := parseSib (sibFollows as (ModRM.ofByte b)) bs) h
    obtain ⟨d, r2, h3, h4⟩ := Parse.andThen_eq_ok (p := parseDisp (dispSize as (ModRM.ofByte b) (sib.map SIB.base)) r1) h2
    cases h4
    obtain ⟨e1, e2⟩ := parseSib_eq_ok h1
    obtain ⟨e3, e4⟩ := parseDisp_eq_ok h3
    refine ⟨by simp [AddrSpec.fits, e1, e3], ?_⟩
    simp [encodeAddrSpec, ModRM.toByte_ofByte, e2, e4]

/-! ### The other fields -/

theorem parseMoffs_encode (as : AttrSize) (c : MoffsClass) (o : MoffsField) (rest : List Byte) (h : o.fits as = true) :
    parseMoffs (some c) as (encodeMoffs o ++ rest) = .ok (some o) rest := by
  cases as <;> cases o <;> first
    | (simp only [parseMoffs, encodeMoffs, takeLE_leBytes 2 _ rest, takeLE_leBytes 4 _ rest, Parse.andThen_ok]; done)
    | cases h

theorem parseMoffs_eq_ok {as : AttrSize} {c : MoffsClass} {bs rest : List Byte} {x : Option MoffsField}
    (h : parseMoffs (some c) as bs = .ok x rest) : ∃ o, x = some o ∧ o.fits as = true ∧ bs = encodeMoffs o ++ rest := by
  cases as with
  | s16 =>
    obtain ⟨v, r, h1, h2⟩ := Parse.andThen_eq_ok (p := takeLE 2 bs) h
    cases h2
    exact ⟨_, rfl, rfl, takeLE_eq_ok h1⟩
  | s32 =>
    obtain ⟨v, r, h1, h2⟩ := Parse.andThen_eq_ok (p := takeLE 4 bs) h
    cases h2
    exact ⟨_, rfl, rfl, takeLE_eq_ok h1⟩

theorem parseCode_encode (c : CodeClass) (o : CodeField) (rest : List Byte) (h : o.is c = true) :
    parseCode (some c) (encodeCode o ++ rest) = .ok (some o) rest := by
  cases o with
  | cb v =>
    have e := takeLE_leBytes 1 v rest
    rw [leBytes_one] at e
    cases c <;> first
      | (simp only [parseCode, encodeCode, e, Parse.andThen_ok]; done)
      | cases h
  | cw v => cases c <;> first
      | (simp only [parseCode, encodeCode, takeLE_leBytes 2 v rest, Parse.andThen_ok]; done)
      | cases h
  | cd v => cases c <;> first
      | (simp only [parseCode, encodeCode, takeLE_leBytes 4 v rest, Parse.andThen_ok]; done)
      | cases h
  | cp v => cases c <;> first
      | (simp only [parseCode, encodeCode, takeLE_leBytes 6 v rest, Parse.andThen_ok]; done)
      | cases h

theorem parseCode_eq_ok {c : CodeClass} {bs rest : List Byte} {x : Option CodeField} (h : parseCode (some c) bs = .ok x rest) :
    ∃ o, x = some o ∧ o.is c = true ∧ bs = encodeCode o ++ rest := by
  cases c with
  | cb =>
    obtain ⟨v, r, h1, h2⟩ := Parse.andThen_eq_ok (p := takeLE 1 bs) h
    cases h2
    have e := takeLE_eq_ok h1
    have e1 : leBytes 1 v.toNat = [v] := leBytes_one v
    exact ⟨_, rfl, rfl, by rw [e, e1]; rfl⟩
  | cw =>
    obtain ⟨v, r, h1, h2⟩ := Parse.andThen_eq_ok (p := takeLE 2 bs) h
    cases h2
    exact ⟨_, rfl, rfl, takeLE_eq_ok h1⟩
  | cd =>
    obtain ⟨v, r, h1, h2⟩ := Parse.andThen_eq_ok (p := takeLE 4 bs) h
    cases h2
    exact ⟨_, rfl, rfl, takeLE_eq_ok h1⟩
  | cp =>
    obtain ⟨v, r, h1, h2⟩ := Parse.andThen_eq_ok (p := takeLE 6 bs) h
    cases h2
    exact ⟨_, rfl, rfl, takeLE_eq_ok h1⟩

/-- The address specifier of a form is read back from its bytes, and there is none where the form has no ModR/M byte. -/
theorem parseAddr_encode (f : Form) (as : AttrSize) (a : Option AddrSpec) (rest : List Byte) (h : addrFits f as a = true) :
    parseAddr f as (a.elim [] encodeAddrSpec ++ rest) = .ok a rest := by
  unfold addrFits at h
  unfold parseAddr
  cases a with
  | none => cases hm : f.modrm <;> simp_all
  | some x =>
    have hx : x.fits as = true ∧ addrRefusal f x.modrm = none := by cases hm : f.modrm <;> simp_all
    cases hm : f.modrm <;> simp_all [parseAddrSpec_encode]

theorem parseAddr_eq_ok {f : Form} {as : AttrSize} {bs rest : List Byte} {a : Option AddrSpec}
    (h : parseAddr f as bs = .ok a rest) : addrFits f as a = true ∧ bs = a.elim [] encodeAddrSpec ++ rest := by
  unfold parseAddr at h
  split at h
  next hm => cases h; simp [addrFits, hm]
  next hm =>
    obtain ⟨x, r, h1, h2⟩ := Parse.andThen_eq_ok h
    obtain ⟨e1, e2⟩ := parseAddrSpec_eq_ok h1
    split at h2
    · cases h2
    next hn =>
      cases h2
      refine ⟨?_, e2⟩
      cases hf : f.modrm <;> simp_all [addrFits]

/-- The same of the offset field. -/
theorem parseMoffs_encode_option (as : AttrSize) (c : Option MoffsClass) (o : Option MoffsField) (rest : List Byte)
    (h : moffsFits as c o = true) : parseMoffs c as (o.elim [] encodeMoffs ++ rest) = .ok o rest := by
  cases c <;> cases o <;> first
    | rfl
    | exact parseMoffs_encode as _ _ rest h
    | cases h

theorem parseMoffs_eq_ok_option {as : AttrSize} {c : Option MoffsClass} {bs rest : List Byte} {o : Option MoffsField}
    (h : parseMoffs c as bs = .ok o rest) : moffsFits as c o = true ∧ bs = o.elim [] encodeMoffs ++ rest := by
  cases c with
  | none => cases h; exact ⟨rfl, rfl⟩
  | some k =>
    obtain ⟨x, rfl, e1, e2⟩ := parseMoffs_eq_ok h
    exact ⟨e1, e2⟩

/-- The same of the code offset. -/
theorem parseCode_encode_option (c : Option CodeClass) (o : Option CodeField) (rest : List Byte)
    (h : codeFits c o = true) : parseCode c (o.elim [] encodeCode ++ rest) = .ok o rest := by
  cases c <;> cases o <;> first
    | rfl
    | exact parseCode_encode _ _ rest h
    | cases h

theorem parseCode_eq_ok_option {c : Option CodeClass} {bs rest : List Byte} {o : Option CodeField}
    (h : parseCode c bs = .ok o rest) : codeFits c o = true ∧ bs = o.elim [] encodeCode ++ rest := by
  cases c with
  | none => cases h; exact ⟨rfl, rfl⟩
  | some k =>
    obtain ⟨x, rfl, e1, e2⟩ := parseCode_eq_ok h
    exact ⟨e1, e2⟩

theorem parseImm_encode (c : ImmClass) (i : ImmField) (rest : List Byte) (h : i.is c = true) :
    parseImm c (encodeImm i ++ rest) = .ok i rest := by
  cases i with
  | ib v =>
    have e := takeLE_leBytes 1 v rest
    rw [leBytes_one] at e
    cases c <;> first
      | (simp only [parseImm, encodeImm, e, Parse.andThen_ok]; done)
      | cases h
  | iw v => cases c <;> first
      | (simp only [parseImm, encodeImm, takeLE_leBytes 2 v rest, Parse.andThen_ok]; done)
      | cases h
  | id v => cases c <;> first
      | (simp only [parseImm, encodeImm, takeLE_leBytes 4 v rest, Parse.andThen_ok]; done)
      | cases h

theorem parseImm_eq_ok {c : ImmClass} {bs rest : List Byte} {i : ImmField} (h : parseImm c bs = .ok i rest) :
    i.is c = true ∧ bs = encodeImm i ++ rest := by
  cases c with
  | ib =>
    obtain ⟨v, r, h1, h2⟩ := Parse.andThen_eq_ok (p := takeLE 1 bs) h
    cases h2
    have e := takeLE_eq_ok h1
    have e1 : leBytes 1 v.toNat = [v] := leBytes_one v
    exact ⟨rfl, by rw [e, e1]; rfl⟩
  | iw =>
    obtain ⟨v, r, h1, h2⟩ := Parse.andThen_eq_ok (p := takeLE 2 bs) h
    cases h2
    exact ⟨rfl, takeLE_eq_ok h1⟩
  | id =>
    obtain ⟨v, r, h1, h2⟩ := Parse.andThen_eq_ok (p := takeLE 4 bs) h
    cases h2
    exact ⟨rfl, takeLE_eq_ok h1⟩

theorem parseImms_encode : ∀ (cs : List ImmClass) (is : List ImmField) (rest : List Byte), immsAre is cs = true →
    parseImms cs (is.flatMap encodeImm ++ rest) = .ok is rest
  | [], [], _, _ => rfl
  | [], _ :: _, _, h => by cases h
  | _ :: _, [], _, h => by cases h
  | c :: cs, i :: is, rest, h => by
    simp only [immsAre, Bool.and_eq_true] at h
    simp only [List.flatMap_cons, List.append_assoc, parseImms, parseImm_encode c i _ h.1, Parse.andThen_ok,
      parseImms_encode cs is rest h.2]

theorem parseImms_eq_ok : ∀ (cs : List ImmClass) (bs rest : List Byte) (is : List ImmField), parseImms cs bs = .ok is rest →
    immsAre is cs = true ∧ bs = is.flatMap encodeImm ++ rest
  | [], bs, rest, is, h => by cases h; exact ⟨rfl, rfl⟩
  | c :: cs, bs, rest, is, h => by
    obtain ⟨i, r1, h1, h2⟩ := Parse.andThen_eq_ok (p := parseImm c bs) h
    obtain ⟨is', r2, h3, h4⟩ := Parse.andThen_eq_ok (p := parseImms cs r1) h2
    cases h4
    obtain ⟨e1, e2⟩ := parseImm_eq_ok h1
    obtain ⟨e3, e4⟩ := parseImms_eq_ok cs r1 _ is' h3
    exact ⟨by simp [immsAre, e1, e3], by simp [e2, e4]⟩

/-! ### Selecting a form (R90, R94, R152) -/

/-- Opcode bytes of a form are as many as the form's. -/
theorem opcodeIs_length {r : OpReg} : ∀ {l m : List Byte}, opcodeIs r l m = true → m.length = l.length
  | [], [], _ => rfl
  | [_], [_], _ => rfl
  | [], _ :: _, h => by cases h
  | _ :: _, [], h => by simp [opcodeIs] at h
  | [_], _ :: _ :: _, h => by simp [opcodeIs] at h
  | _ :: a :: as, b :: bs, h => by
    simp only [opcodeIs, Bool.and_eq_true] at h
    simpa using opcodeIs_length (l := a :: as) h.2

/-- A form without /digit takes every reg field; one with it takes its digit (R90). -/
theorem digitIs_iff (f : Form) (reg : BitVec 3) : f.digitIs reg = true ↔ ∀ d, f.modrm = .digit d → reg = d := by
  unfold Form.digitIs
  cases f.modrm <;> simp

/-- The bytes of fields select a form exactly when the fields do. -/
theorem selects_encode (f : Form) (x : Fields) (rest : List Byte) (hl : x.opcode.length = f.opcode.length)
    (ha : ∀ d, f.modrm = .digit d → x.addr.isSome = true) :
    ∃ r, f.selects (encodeFields x ++ rest) = .ok (f.selectedBy x) r := by
  have ht : takeBytes f.opcode.length (encodeFields x ++ rest) =
      .ok x.opcode (x.addr.elim [] encodeAddrSpec ++ (x.moffs.elim [] encodeMoffs ++ (x.code.elim [] encodeCode
        ++ (x.imms.flatMap encodeImm ++ rest)))) := by
    rw [← hl]
    simpa only [encodeFields, List.append_assoc] using takeBytes_append x.opcode _
  unfold Form.selects Form.selectedBy
  rw [ht, Parse.andThen_ok]
  cases opcodeIs f.opReg f.opcode x.opcode with
  | false => exact ⟨_, rfl⟩
  | true =>
    cases hm : f.modrm with
    | none =>
      have h : (x.addr.all fun a => f.digitIs a.modrm.reg) = true := by cases x.addr <;> simp [Form.digitIs, hm]
      exact ⟨_, by rw [h]; rfl⟩
    | slashR =>
      have h : (x.addr.all fun a => f.digitIs a.modrm.reg) = true := by cases x.addr <;> simp [Form.digitIs, hm]
      exact ⟨_, by rw [h]; rfl⟩
    | digit d =>
      obtain ⟨a, h⟩ := Option.isSome_iff_exists.mp (ha d hm)
      exact ⟨_, by simp [h, encodeAddrSpec, takeByte, ModRM.ofByte_toByte]; rfl⟩

/-- The form that is found is a row's, at the operand size, and the bytes select it. -/
theorem findForm_eq_ok {α : Type} {op : Byte} {os : AttrSize} : ∀ {rows : List (α × FormPair)} {bs r : List Byte} {x : α × Form},
    findForm op os rows bs = .ok x r →
      ∃ p ∈ rows, x = (p.1, p.2.choose os) ∧ ∃ r', (p.2.choose os).selects bs = .ok true r'
  | [], _, _, _, h => by cases h
  | (a, p) :: rows, bs, r, x, h => by
    obtain ⟨ok, r', h1, h2⟩ := Parse.andThen_eq_ok (p := (p.choose os).selects bs) h
    cases ok with
    | true =>
      simp only [if_true] at h2
      cases h2
      exact ⟨(a, p), by simp, rfl, r', h1⟩
    | false =>
      obtain ⟨q, hq, e⟩ := findForm_eq_ok (rows := rows) h2
      exact ⟨q, by simp [hq], e⟩

/-- Bytes that are enough for a form's opcode do not select it where they are not its opcode bytes, or where its digit is not
the reg field of the byte after them (R90, R94). -/
theorem selects_of_ne {f : Form} {bs : List Byte} (hn : f.opcode.length ≤ bs.length)
    (h : opcodeIs f.opReg f.opcode (bs.take f.opcode.length) = false
      ∨ ∃ d m, f.modrm = .digit d ∧ bs[f.opcode.length]? = some m ∧ (ModRM.ofByte m).reg ≠ d) :
    ∃ r, f.selects bs = .ok false r := by
  have ht := takeBytes_append (bs.take f.opcode.length) (bs.drop f.opcode.length)
  rw [List.take_append_drop, List.length_take_of_le hn] at ht
  simp only [Form.selects, ht, Parse.andThen_ok]
  cases ho : opcodeIs f.opReg f.opcode (bs.take f.opcode.length) with
  | false => exact ⟨_, rfl⟩
  | true =>
    obtain ⟨d, m, hm, hb, hd⟩ := h.resolve_left (by simp [ho])
    obtain ⟨hlt, hg⟩ := List.getElem?_eq_some_iff.mp hb
    rw [List.drop_eq_getElem_cons hlt, hg]
    exact ⟨_, by simp [hm, takeByte, Form.digitIs, hd]; rfl⟩

/-- Rows that the bytes do not select are passed over. -/
theorem findForm_append {α : Type} (op : Byte) (os : AttrSize) (rows : List (α × FormPair)) (bs : List Byte) :
    ∀ pre : List (α × FormPair), (∀ q ∈ pre, ∃ r, (q.2.choose os).selects bs = .ok false r) →
      findForm op os (pre ++ rows) bs = findForm op os rows bs
  | [], _ => rfl
  | (a, p) :: pre, h => by
    obtain ⟨r, hr⟩ := h (a, p) (by simp)
    simp only [List.cons_append, findForm, hr, Parse.andThen_ok, Bool.false_eq_true, if_false]
    exact findForm_append op os rows bs pre fun q hq => h q (by simp [hq])

/-! ### Pairs of forms (R121) -/

@[simp] theorem AttrSize.width_s16 : AttrSize.s16.width = .w16 := rfl
@[simp] theorem AttrSize.width_s32 : AttrSize.s32.width = .w32 := rfl
@[simp] theorem FormPair.choose_s16 (p : FormPair) : p.choose .s16 = p.at16 := rfl
@[simp] theorem FormPair.choose_s32 (p : FormPair) : p.choose .s32 = p.at32 := rfl
@[simp] theorem Form.widen_opcode (f : Form) : f.widen.opcode = f.opcode := rfl
@[simp] theorem Form.widen_modrm (f : Form) : f.widen.modrm = f.modrm := rfl
@[simp] theorem Form.widen_size (f : Form) : f.widen.size = f.size := rfl

/-- All that the check of a pair says of the form an operand size chooses: it is a well-formed form under the pair's opcode
bytes, with the same use of the ModR/M byte, and its symbols match the operand size (R111, R121). -/
theorem FormPair.choose_of_wf {p : FormPair} (h : p.wf = true) (os : AttrSize) :
    (p.choose os).wf = true ∧ (p.choose os).matchesSize os = true ∧ (p.choose os).opcode = p.at16.opcode
      ∧ (p.choose os).modrm = p.at16.modrm ∧ (p.choose os).size = p.at16.size := by
  simp only [FormPair.wf, Bool.and_eq_true, beq_iff_eq] at h
  obtain ⟨⟨⟨h1, h2⟩, h3⟩, h4⟩ := h
  cases os with
  | s16 => exact ⟨h1, h2, rfl, rfl, rfl⟩
  | s32 =>
    refine ⟨?_, h3, ?_, ?_, ?_⟩
    · simp only [FormPair.choose_s32, h4]
      simpa [Form.wf, Form.widen] using h1
    all_goals simp [h4]

/-- Every operand class of a form that matches an operand size names the form's width (R121). -/
theorem Form.width_of_matchesSize {f : Form} {os : AttrSize} (h : f.matchesSize os = true) :
    ∀ w ∈ f.operandWidths, w = f.width os := by
  simp only [Form.matchesSize, Bool.and_eq_true, List.all_eq_true, beq_iff_eq] at h
  exact h.1.1

/-- A two-part operand or a code offset of a form that matches an operand size is used under that size alone (R92, R97, R105,
R106). -/
theorem Form.usedUnder_of_matchesSize {f : Form} {os : AttrSize} (h : f.matchesSize os = true) :
    (∀ c, f.rmClass = some c → ∀ z, c.usedUnder = some z → z = os)
      ∧ ∀ c, f.code = some c → ∀ z, c.usedUnder = some z → z = os := by
  simp only [Form.matchesSize, Bool.and_eq_true, Option.all_eq_true, beq_iff_eq] at h
  exact ⟨fun c hc z hz => h.1.2 z (by simp [hc, hz]), fun c hc z hz => h.2 z (by simp [hc, hz])⟩

/-- The pair of every instruction row of the opcode table is well formed. -/
theorem opcodeTable_forms_wf : ∀ r ∈ opcodeTable, ∀ p, r.form = some p → p.wf = true := by decide

/-- The attribute is the default exactly where it was not overridden (10_state.md R35). -/
theorem sizeAttr_eq_default (a : AttrSize) (b : Bool) : sizeAttr a b = a ↔ b = false := by
  cases a <;> cases b <;> simp [sizeAttr]

/-! ### The prefix run -/

/-- The row read from a row's byte. -/
theorem prefixRow_encodeRow (i : Instr) (h : i.isPrefix = true) : prefixRow (encodeRow i) = some (canonRow i) := by
  cases i <;> first | rfl | cases h

/-- A byte that is read as a prefix row is the row's byte, under its canonical name. -/
theorem encodeRow_of_prefixRow (b : Byte) (i : Instr) (h : prefixRow b = some i) :
    encodeRow i = b ∧ i.isPrefix = true ∧ canonRow i = i := by
  revert i; revert b; decide +kernel

/-- The only opcode row is CMC's, at F5. -/
theorem opcodeRow_eq (b : Byte) (x : Instr × FormPair) (h : opcodeRow b = some x) : b = 0xF5#8 ∧ x = (.cmc, cmcForm) := by
  have hb : b = 0xF5#8 := by
    have : ∀ c : Byte, (opcodeRow c).isSome = true → c = 0xF5#8 := by decide +kernel
    exact this b (by rw [h]; rfl)
  subst hb
  have e : opcodeRow 0xF5#8 = some (.cmc, cmcForm) := by decide +kernel
  rw [e] at h
  exact ⟨rfl, (Option.some.inj h).symm⟩

/-- A row that no byte of the table selects is neither a prefix nor an opcode. -/
theorem prefixRow_none_of_rowOf (b : Byte) (h : rowOf b = none) : prefixRow b = none ∧ opcodeRow b = none := by
  simp [prefixRow, opcodeRow, h]

end Sys2Proof
end

