-- ==== Sys2Proof/Laws/Prefixes.lean ====
section
/-!
SUPPORT. The decode state: which groups were seen, what recording a prefix row does to it, and what scanning a prefix run
reads.
-/

namespace Sys2Proof

/-- A byte of a group was seen. -/
def Prefixes.seen (p : Prefixes) : PrefixGroup → Bool
  | .repeatLock => p.rep.isSome || p.lock
  | .segment => p.seg.isSome
  | .operandSize => p.opsize
  | .addressSize => p.adsize

/-- A decode state that a well-formed run can leave: not both a repeat byte and LOCK. -/
def Prefixes.sane (p : Prefixes) : Bool := !(p.rep.isSome && p.lock)

@[simp] theorem Prefixes.seen_empty (g : PrefixGroup) : ({} : Prefixes).seen g = false := by cases g <;> rfl

@[simp] theorem Prefixes.count_empty : ({} : Prefixes).count = 0 := rfl

/-- Recording a row succeeds exactly when its group is new; it then sees that group too and counts one more byte. -/
theorem recordPrefix_spec (i : Instr) (p : Prefixes) (g : PrefixGroup) (hg : i.group = some g) :
    (p.seen g = true → recordPrefix i p = none)
      ∧ (p.seen g = false → ∃ q, recordPrefix i p = some q ∧ q.count = p.count + 1
          ∧ ∀ g', q.seen g' = (p.seen g' || g' == g)) := by
  obtain ⟨rep, lk, sg, os, as⟩ := p
  cases i <;> simp only [Instr.group, Option.some.injEq, reduceCtorEq] at hg <;> subst hg <;>
    refine ⟨fun h => by simp only [Prefixes.seen] at h; simp [recordPrefix, Prefixes.withRep, Prefixes.withLock,
      Prefixes.withSeg, Prefixes.withOpSize, Prefixes.withAdSize, h], fun h => ?_⟩ <;>
    simp only [Prefixes.seen, Bool.or_eq_false_iff, Option.isSome_eq_false_iff, Option.isNone_iff_eq_none] at h
  all_goals
    obtain ⟨rfl, rfl⟩ := h
    refine ⟨_, rfl, ?_, fun g' => ?_⟩
    · simp [Prefixes.count]; try omega
    · cases g' <;> simp [Prefixes.seen]

/-- A row that is no prefix is not recorded. -/
theorem recordPrefix_isPrefix {i : Instr} {p q : Prefixes} (h : recordPrefix i p = some q) : i.isPrefix = true := by
  cases i <;> first | rfl | cases h

/-- The two names of F3 are recorded alike. -/
@[simp] theorem recordPrefix_canonRow (i : Instr) (p : Prefixes) : recordPrefix (canonRow i) p = recordPrefix i p := by
  cases i <;> rfl

@[simp] theorem group_canonRow (i : Instr) : (canonRow i).group = i.group := by cases i <;> rfl

@[simp] theorem encodeRow_canonRow (i : Instr) : encodeRow (canonRow i) = encodeRow i := by cases i <;> rfl

/-- Recording a list of rows in order. -/
def recordAll : List Instr → Prefixes → Option Prefixes
  | [], p => some p
  | i :: l, p => (recordPrefix i p).bind (recordAll l)

@[simp] theorem recordAll_map_canonRow : ∀ (l : List Instr) (p : Prefixes), recordAll (l.map canonRow) p = recordAll l p
  | [], _ => rfl
  | i :: l, p => by
    simp only [List.map_cons, recordAll, recordPrefix_canonRow]
    congr 1
    funext q
    exact recordAll_map_canonRow l q

/-- The rows of a well-formed run, none of a group already seen, are all recorded, one byte each. -/
theorem recordAll_of_wf : ∀ (l : List Instr) (p : Prefixes), prefixRunWf l = true →
    (∀ i ∈ l, ∀ g, i.group = some g → p.seen g = false) →
    ∃ q, recordAll l p = some q ∧ q.count = p.count + l.length
      ∧ ∀ g, q.seen g = (p.seen g || l.any fun i => i.group == some g)
  | [], p, _, _ => ⟨p, rfl, rfl, fun g => by simp⟩
  | i :: l, p, h, hs => by
    simp only [prefixRunWf, Bool.and_eq_true, List.all_eq_true, bne_iff_ne, ne_eq] at h
    obtain ⟨g, hg⟩ := Option.isSome_iff_exists.mp (by simpa [Instr.isPrefix] using h.1.1)
    obtain ⟨p', h1, h2, h3⟩ := (recordPrefix_spec i p g hg).2 (hs i (by simp) g hg)
    have hs' : ∀ j ∈ l, ∀ g', j.group = some g' → p'.seen g' = false := by
      intro j hj g' hg'
      have hne : g' ≠ g := by
        intro e
        subst e
        exact h.1.2 j hj (by rw [hg', hg])
      rw [h3, hs j (by simp [hj]) g' hg']
      simpa using hne
    obtain ⟨q, h4, h5, h6⟩ := recordAll_of_wf l p' h.2 hs'
    refine ⟨q, by simp [recordAll, h1, h4], by rw [h5, h2, List.length_cons]; omega, fun g' => ?_⟩
    rw [h6, h3]
    simp only [List.any_cons, hg, Bool.or_assoc]
    congr 2
    rw [Bool.eq_iff_iff, beq_iff_eq, beq_iff_eq, Option.some.injEq]
    exact eq_comm

/-- A list of rows that is recorded is a well-formed run of groups not seen before. -/
theorem wf_of_recordAll : ∀ (l : List Instr) (p q : Prefixes), recordAll l p = some q →
    prefixRunWf l = true ∧ ∀ i ∈ l, ∀ g, i.group = some g → p.seen g = false
  | [], _, _, _ => ⟨rfl, fun _ h => absurd h (by simp)⟩
  | i :: l, p, q, h => by
    obtain ⟨p', h1, h2⟩ := Option.bind_eq_some_iff.mp h
    have hp := recordPrefix_isPrefix h1
    obtain ⟨g, hg⟩ := Option.isSome_iff_exists.mp hp
    have hseen : p.seen g = false := by
      cases hs : p.seen g with
      | false => rfl
      | true => rw [(recordPrefix_spec i p g hg).1 hs] at h1; cases h1
    obtain ⟨p'', h3, _, h5⟩ := (recordPrefix_spec i p g hg).2 hseen
    rw [h3] at h1
    cases h1
    obtain ⟨h6, h7⟩ := wf_of_recordAll l p' q h2
    refine ⟨?_, ?_⟩
    · simp only [prefixRunWf, Bool.and_eq_true, List.all_eq_true, bne_iff_ne, ne_eq]
      refine ⟨⟨hp, fun j hj e => ?_⟩, h6⟩
      have := h7 j hj g (by rw [e, hg])
      rw [h5] at this
      simp at this
    · intro j hj g' hg'
      rcases List.mem_cons.mp hj with rfl | hj
      · rw [hg] at hg'
        cases hg'
        exact hseen
      · have := h7 j hj g' hg'
        rw [h5] at this
        exact (Bool.or_eq_false_iff.mp this).1

/-! ### Which rows a decode state records (40_prefixes.md R131 to R143) -/

/-- A decode state records a prefix row; the two names of F3 are recorded alike. -/
def Prefixes.records (p : Prefixes) : Instr → Bool
  | .cmc => false
  | .rep | .repeRepz => p.rep == some .f3
  | .repneRepnz => p.rep == some .f2
  | .lock => p.lock
  | .csOverride => p.seg == some .cs
  | .ssOverride => p.seg == some .ss
  | .dsOverride => p.seg == some .ds
  | .esOverride => p.seg == some .es
  | .fsOverride => p.seg == some .fs
  | .gsOverride => p.seg == some .gs
  | .opSize => p.opsize
  | .adSize => p.adsize

@[simp] theorem Prefixes.records_empty (j : Instr) : ({} : Prefixes).records j = false := by cases j <;> rfl

/-- Recording a row adds that row, under either of its names, and no other. -/
theorem records_of_recordPrefix {i : Instr} {p q : Prefixes} (h : recordPrefix i p = some q) (j : Instr) :
    q.records j = (p.records j || canonRow j == canonRow i) := by
  obtain ⟨rep, lk, sg, os, as⟩ := p
  cases i <;> simp only [recordPrefix, Prefixes.withRep, Prefixes.withLock, Prefixes.withSeg, Prefixes.withOpSize,
    Prefixes.withAdSize, reduceCtorEq] at h <;> split at h <;> simp only [reduceCtorEq, Option.some.injEq] at h <;>
    subst h <;> cases j <;> simp_all [Prefixes.records, canonRow]

/-- Recording a list of rows adds those rows and no other. -/
theorem records_of_recordAll : ∀ (l : List Instr) (p q : Prefixes), recordAll l p = some q → ∀ j : Instr,
    q.records j = (p.records j || l.any fun i => canonRow j == canonRow i)
  | [], _, _, h, j => by cases h; simp
  | i :: l, p, q, h, j => by
    obtain ⟨p', h1, h2⟩ := Option.bind_eq_some_iff.mp h
    rw [records_of_recordAll l p' q h2 j, records_of_recordPrefix h1 j, List.any_cons, Bool.or_assoc]

/-- After a list of rows alone a decode state records exactly the rows of the list, under either name of F3. -/
theorem records_iff {l : List Instr} {q : Prefixes} (h : recordAll l {} = some q) (j : Instr) :
    q.records j = true ↔ ∃ i ∈ l, canonRow j = canonRow i := by
  rw [records_of_recordAll l {} q h j]
  simp

/-- A row that is not of the byte F3 is recorded exactly where it stands in the list. -/
theorem records_iff_mem {l : List Instr} {q : Prefixes} (h : recordAll l {} = some q) {j : Instr} (hj : encodeRow j ≠ 0xF3#8) :
    q.records j = true ↔ j ∈ l := by
  have e : ∀ i, canonRow j = canonRow i ↔ i = j := by
    intro i
    revert hj
    cases j <;> cases i <;> decide
  simp [records_iff h j, e]

/-- Recording a row keeps a decode state sane. -/
theorem sane_of_recordPrefix {i : Instr} {p q : Prefixes} (hp : p.sane = true) (h : recordPrefix i p = some q) :
    q.sane = true := by
  obtain ⟨rep, lk, sg, os, as⟩ := p
  cases i <;> simp only [recordPrefix, Prefixes.withRep, Prefixes.withLock, Prefixes.withSeg, Prefixes.withOpSize,
    Prefixes.withAdSize, reduceCtorEq] at h <;> split at h <;> simp only [reduceCtorEq, Option.some.injEq] at h <;>
    subst h <;> simp_all [Prefixes.sane]

/-- Recording a list of rows keeps a decode state sane. -/
theorem sane_of_recordAll : ∀ (l : List Instr) (p q : Prefixes), p.sane = true → recordAll l p = some q → q.sane = true
  | [], _, _, hp, h => by cases h; exact hp
  | i :: l, p, q, hp, h => by
    obtain ⟨p', h1, h2⟩ := Option.bind_eq_some_iff.mp h
    exact sane_of_recordAll l p' q (sane_of_recordPrefix hp h1) h2

/-- A sane decode state stands for at most four bytes (30_encoding.md R85). -/
theorem count_le_four (p : Prefixes) (h : p.sane = true) : p.count ≤ 4 := by
  obtain ⟨rep, lk, sg, os, as⟩ := p
  cases lk <;> cases rep <;> cases sg <;> cases os <;> cases as <;> simp_all [Prefixes.sane, Prefixes.count]

/-- A well-formed run has at most one row of each of the four groups. -/
theorem length_le_four_of_wf (l : List Instr) (h : prefixRunWf l = true) : l.length ≤ 4 := by
  obtain ⟨q, h1, h2, _⟩ := recordAll_of_wf l {} h (by simp)
  have := count_le_four q (sane_of_recordAll l {} q rfl h1)
  simp at h2
  omega

/-- Scanning the bytes of a list of prefix rows that are all recorded, with a byte after them that is no prefix, reads the
rows and leaves the rest. -/
theorem scanPrefixes_encode : ∀ (l : List Instr) (p q : Prefixes) (b : Byte) (rest : List Byte), recordAll l p = some q →
    prefixRow b = none → scanPrefixes p (l.map encodeRow ++ b :: rest) = .ok (l.map canonRow, q) (b :: rest)
  | [], p, q, b, rest, h, hb => by
    cases h
    simp [scanPrefixes, hb]
  | i :: l, p, q, b, rest, h, hb => by
    obtain ⟨p', h1, h2⟩ := Option.bind_eq_some_iff.mp h
    have hp := recordPrefix_isPrefix h1
    simp only [List.map_cons, List.cons_append, scanPrefixes, prefixRow_encodeRow i hp, recordPrefix_canonRow, h1,
      scanPrefixes_encode l p' q b rest h2 hb, Parse.andThen_ok]

/-- Scanning the bytes of a run that ends there needs more bytes. -/
theorem scanPrefixes_short : ∀ (l : List Instr) (p q : Prefixes), recordAll l p = some q →
    scanPrefixes p (l.map encodeRow) = .short
  | [], _, _, _ => rfl
  | i :: l, p, q, h => by
    obtain ⟨p', h1, h2⟩ := Option.bind_eq_some_iff.mp h
    have hp := recordPrefix_isPrefix h1
    simp only [List.map_cons, scanPrefixes, prefixRow_encodeRow i hp, recordPrefix_canonRow, h1,
      scanPrefixes_short l p' q h2, Parse.andThen_short]

/-- Scanning the bytes of prefix rows that are not all recorded is refused, whatever follows. -/
theorem scanPrefixes_repeated : ∀ (l : List Instr) (p : Prefixes) (rest : List Byte), (∀ i ∈ l, i.isPrefix = true) →
    recordAll l p = none → scanPrefixes p (l.map encodeRow ++ rest) = .refuse .prefixGroupRepeated
  | [], _, _, _, h => by cases h
  | i :: l, p, rest, hp, h => by
    have hi := hp i (by simp)
    simp only [List.map_cons, List.cons_append, scanPrefixes, prefixRow_encodeRow i hi, recordPrefix_canonRow]
    cases h1 : recordPrefix i p with
    | none => rfl
    | some p' =>
      have h2 : recordAll l p' = none := by simpa [recordAll, h1] using h
      simp only [scanPrefixes_repeated l p' rest (fun j hj => hp j (by simp [hj])) h2, Parse.andThen_refuse]

/-- What the bytes were when a prefix run was read: the rows' bytes, then a byte that is no prefix. -/
theorem scanPrefixes_eq_ok : ∀ (bs : List Byte) (p q : Prefixes) (is : List Instr) (rest : List Byte),
    scanPrefixes p bs = .ok (is, q) rest →
    bs = is.map encodeRow ++ rest ∧ recordAll is p = some q ∧ is.map canonRow = is
      ∧ ∃ b r, rest = b :: r ∧ prefixRow b = none
  | [], _, _, _, _, h => by cases h
  | b :: bs, p, q, is, rest, h => by
    unfold scanPrefixes at h
    cases hb : prefixRow b with
    | none =>
      rw [hb] at h
      cases h
      exact ⟨rfl, rfl, rfl, b, bs, rfl, hb⟩
    | some i =>
      rw [hb] at h
      obtain ⟨he, hp, hc⟩ := encodeRow_of_prefixRow b i hb
      cases h1 : recordPrefix i p with
      | none => simp only [h1] at h; cases h
      | some p' =>
        simp only [h1] at h
        obtain ⟨⟨is', q'⟩, r', h2, h3⟩ := Parse.andThen_eq_ok (p := scanPrefixes p' bs) h
        cases h3
        obtain ⟨e1, e2, e3, e4⟩ := scanPrefixes_eq_ok bs p' _ is' _ h2
        exact ⟨by rw [List.map_cons, he, e1]; rfl, by simp [recordAll, h1, e2], by simp [hc, e3], e4⟩

/-- What the bytes were when the scan ran out of them: the bytes of rows that are all recorded. -/
theorem scanPrefixes_eq_short : ∀ (bs : List Byte) (p : Prefixes), scanPrefixes p bs = .short →
    ∃ is q, bs = is.map encodeRow ∧ recordAll is p = some q
  | [], p, _ => ⟨[], p, rfl, rfl⟩
  | b :: bs, p, h => by
    unfold scanPrefixes at h
    cases hb : prefixRow b with
    | none => rw [hb] at h; cases h
    | some i =>
      rw [hb] at h
      obtain ⟨he, hp, hc⟩ := encodeRow_of_prefixRow b i hb
      cases h1 : recordPrefix i p with
      | none => simp only [h1] at h; cases h
      | some p' =>
        simp only [h1] at h
        cases h2 : scanPrefixes p' bs with
        | ok a r => rw [h2] at h; cases h
        | refuse r => rw [h2] at h; cases h
        | short =>
          obtain ⟨is, q, e1, e2⟩ := scanPrefixes_eq_short bs p' h2
          exact ⟨i :: is, q, by rw [List.map_cons, he, e1], by simp [recordAll, h1, e2]⟩

end Sys2Proof
end

