-- ==== Sys2Proof/Laws/Registers.lean ====
section
/-!
SUPPORT. The register files and their overlap (10_state.md R20 to R23): what a read after a write gives and what a write
leaves alone.
-/

namespace Sys2Proof.Machine

@[simp] theorem Regs.get_set_same (r : Regs) (n : Reg) (v : Word32) : (r.set n v).get n = v := by cases n <;> rfl

theorem Regs.get_set_other (r : Regs) (n m : Reg) (v : Word32) (h : m ≠ n) : (r.set n v).get m = r.get m := by
  cases n <;> cases m <;> first | rfl | exact absurd rfl h

@[simp] theorem Regs.set_get (r : Regs) (n : Reg) : r.set n (r.get n) = r := by cases n <;> rfl

@[simp] theorem Regs.set_set (r : Regs) (n : Reg) (v w : Word32) : (r.set n v).set n w = r.set n w := by cases n <;> rfl

@[simp] theorem regOfCode_codeOfReg (n : Reg) : regOfCode (codeOfReg n) = n := by cases n <;> rfl

@[simp] theorem codeOfReg_regOfCode (c : BitVec 3) : codeOfReg (regOfCode c) = c := by revert c; decide

theorem regOfCode_inj {c d : BitVec 3} (h : regOfCode c = regOfCode d) : c = d := by
  rw [← codeOfReg_regOfCode c, h, codeOfReg_regOfCode]

@[simp] theorem Regs.r32_setR32_same (r : Regs) (c : BitVec 3) (v : Word32) : (r.setR32 c v).r32 c = v := by
  simp [Regs.setR32, Regs.r32]

theorem Regs.r32_setR32_other (r : Regs) (c d : BitVec 3) (v : Word32) (h : d ≠ c) : (r.setR32 c v).r32 d = r.r32 d := by
  simp only [Regs.setR32, Regs.r32]
  exact Regs.get_set_other _ _ _ _ (fun e => h (regOfCode_inj e))

@[simp] theorem Regs.setR32_r32 (r : Regs) (c : BitVec 3) : r.setR32 c (r.r32 c) = r := by simp [Regs.setR32, Regs.r32]

@[simp] theorem Regs.setR32_setR32 (r : Regs) (c : BitVec 3) (v w : Word32) : (r.setR32 c v).setR32 c w = r.setR32 c w := by
  simp [Regs.setR32]

/-- A code names one register file entry by name and by code. -/
theorem Regs.get_eq_r32 (r : Regs) (n : Reg) : r.get n = r.r32 (codeOfReg n) := by simp [Regs.r32]

/-- The low part of a concatenation. -/
theorem low_of_append {m n : Nat} (hi : BitVec m) (lo : BitVec n) : (hi ++ lo).extractLsb' 0 n = lo := by
  apply BitVec.eq_of_getLsbD_eq
  intro i h
  simp [BitVec.getLsbD_append, h]

/-- The high part of a concatenation. -/
theorem high_of_append {m n : Nat} (hi : BitVec m) (lo : BitVec n) : (hi ++ lo).extractLsb' n m = hi := by
  apply BitVec.eq_of_getLsbD_eq
  intro i h
  simp [BitVec.getLsbD_append, h]

/-- A middle part of a concatenation that lies in its high part. -/
theorem mid_of_append {m n : Nat} (hi : BitVec m) (lo : BitVec n) (k l : Nat) :
    (hi ++ lo).extractLsb' (n + k) l = hi.extractLsb' k l := by
  apply BitVec.eq_of_getLsbD_eq
  intro i h
  have e : ¬ n + k + i < n := by omega
  have e2 : n + k + i - n = k + i := by omega
  simp [BitVec.getLsbD_append, e, e2, h]

/-- A part of a part. -/
theorem part_of_part {w : Nat} (x : BitVec w) (a l b k : Nat) (h : b + k ≤ l) :
    (x.extractLsb' a l).extractLsb' b k = x.extractLsb' (a + b) k := by
  apply BitVec.eq_of_getLsbD_eq
  intro i hi
  have : b + i < l := by omega
  simp [this, hi, Nat.add_assoc]

/-- A value is the concatenation of its parts. -/
theorem append_of_parts {m n : Nat} (v : BitVec (m + n)) : v.extractLsb' n m ++ v.extractLsb' 0 n = v := by simp

theorem low16_of_append (hi lo : Word16) : (hi ++ lo : BitVec 32).extractLsb' 0 16 = lo := low_of_append hi lo

theorem high16_of_append (hi lo : Word16) : (hi ++ lo : BitVec 32).extractLsb' 16 16 = hi := high_of_append hi lo

theorem append_of_halves (v : Word32) : (v.extractLsb' 16 16 ++ v.extractLsb' 0 16 : BitVec 32) = v :=
  append_of_parts (m := 16) (n := 16) v

@[simp] theorem Regs.r16_setR16_same (r : Regs) (c : BitVec 3) (v : Word16) : (r.setR16 c v).r16 c = v := by
  simp only [Regs.setR16, Regs.r16, Regs.r32_setR32_same]
  exact low16_of_append _ _

/-- A word write leaves the high half (R23). -/
theorem Regs.high_setR16 (r : Regs) (c d : BitVec 3) (v : Word16) :
    ((r.setR16 c v).r32 d).extractLsb' 16 16 = (r.r32 d).extractLsb' 16 16 := by
  by_cases h : d = c
  · subst h
    simp only [Regs.setR16, Regs.r32_setR32_same]
    exact high16_of_append _ _
  · rw [Regs.setR16, Regs.r32_setR32_other _ _ _ _ h]

/-- A word write leaves every other register (R23). -/
theorem Regs.r32_setR16_other (r : Regs) (c d : BitVec 3) (v : Word16) (h : d ≠ c) : (r.setR16 c v).r32 d = r.r32 d := by
  rw [Regs.setR16, Regs.r32_setR32_other _ _ _ _ h]

/-- Writing a word register back leaves all as it was. -/
@[simp] theorem Regs.setR16_r16 (r : Regs) (c : BitVec 3) : r.setR16 c (r.r16 c) = r := by
  simp only [Regs.setR16, Regs.r16, append_of_halves, Regs.setR32_r32]

@[simp] theorem Regs.setR16_setR16 (r : Regs) (c : BitVec 3) (v w : Word16) : (r.setR16 c v).setR16 c w = r.setR16 c w := by
  have h : ((r.setR16 c v).r32 c).extractLsb' 16 16 = (r.r32 c).extractLsb' 16 16 := Regs.high_setR16 r c c v
  calc (r.setR16 c v).setR16 c w
      = (r.setR16 c v).setR32 c (((r.setR16 c v).r32 c).extractLsb' 16 16 ++ w) := rfl
    _ = (r.setR16 c v).setR32 c ((r.r32 c).extractLsb' 16 16 ++ w) := by rw [h]
    _ = r.setR16 c w := by rw [Regs.setR16, Regs.setR32_setR32]; rfl

@[simp] theorem segOfCode_codeOfSeg (n : SegName) : segOfCode (codeOfSeg n) = some n := by cases n <;> rfl

end Sys2Proof.Machine
end

