-- ==== Sys2Proof/Laws/State.lean ====
section
/-!
SUPPORT. What each update of the state does to each field.
-/

namespace Sys2Proof.Machine

/-! ### Completing an instruction -/

@[simp] theorem complete_regs (n : Nat) (s : State) : (complete n s).regs = s.regs := rfl
@[simp] theorem complete_segs (n : Nat) (s : State) : (complete n s).segs = s.segs := rfl
@[simp] theorem complete_cf (n : Nat) (s : State) : (complete n s).cf = s.cf := rfl
@[simp] theorem complete_otherFlags (n : Nat) (s : State) : (complete n s).otherFlags = s.otherFlags := rfl
@[simp] theorem complete_pc (n : Nat) (s : State) : (complete n s).pc = s.pc + BitVec.ofNat 32 (s.pfx.count + n) := rfl
@[simp] theorem complete_gdtr (n : Nat) (s : State) : (complete n s).gdtr = s.gdtr := rfl
@[simp] theorem complete_idtr (n : Nat) (s : State) : (complete n s).idtr = s.idtr := rfl
@[simp] theorem complete_mode (n : Nat) (s : State) : (complete n s).mode = s.mode := rfl
@[simp] theorem complete_defaultOperandSize (n : Nat) (s : State) : (complete n s).defaultOperandSize = s.defaultOperandSize := rfl
@[simp] theorem complete_defaultAddressSize (n : Nat) (s : State) : (complete n s).defaultAddressSize = s.defaultAddressSize := rfl
@[simp] theorem complete_stackAddrSize (n : Nat) (s : State) : (complete n s).stackAddrSize = s.stackAddrSize := rfl
@[simp] theorem complete_tssType (n : Nat) (s : State) : (complete n s).tssType = s.tssType := rfl
@[simp] theorem complete_tssBase (n : Nat) (s : State) : (complete n s).tssBase = s.tssBase := rfl
@[simp] theorem complete_access (n : Nat) (s : State) : (complete n s).access = s.access := rfl
@[simp] theorem complete_codeRegion (n : Nat) (s : State) : (complete n s).codeRegion = s.codeRegion := rfl
@[simp] theorem complete_endPc (n : Nat) (s : State) : (complete n s).endPc = s.endPc := rfl
@[simp] theorem complete_pfx (n : Nat) (s : State) : (complete n s).pfx = {} := rfl
@[simp] theorem complete_mem (n : Nat) (s : State) : (complete n s).mem = s.mem := rfl
@[simp] theorem complete_io (n : Nat) (s : State) : (complete n s).io = s.io := rfl

/-! ### Complementing the carry flag -/

@[simp] theorem complementCarry_regs (s : State) : (complementCarry s).regs = s.regs := rfl
@[simp] theorem complementCarry_segs (s : State) : (complementCarry s).segs = s.segs := rfl
@[simp] theorem complementCarry_cf (s : State) : (complementCarry s).cf = (!s.cf) := rfl
@[simp] theorem complementCarry_otherFlags (s : State) : (complementCarry s).otherFlags = s.otherFlags := rfl
@[simp] theorem complementCarry_pc (s : State) : (complementCarry s).pc = s.pc := rfl
@[simp] theorem complementCarry_gdtr (s : State) : (complementCarry s).gdtr = s.gdtr := rfl
@[simp] theorem complementCarry_idtr (s : State) : (complementCarry s).idtr = s.idtr := rfl
@[simp] theorem complementCarry_mode (s : State) : (complementCarry s).mode = s.mode := rfl
@[simp] theorem complementCarry_defaultOperandSize (s : State) : (complementCarry s).defaultOperandSize = s.defaultOperandSize := rfl
@[simp] theorem complementCarry_defaultAddressSize (s : State) : (complementCarry s).defaultAddressSize = s.defaultAddressSize := rfl
@[simp] theorem complementCarry_stackAddrSize (s : State) : (complementCarry s).stackAddrSize = s.stackAddrSize := rfl
@[simp] theorem complementCarry_tssType (s : State) : (complementCarry s).tssType = s.tssType := rfl
@[simp] theorem complementCarry_tssBase (s : State) : (complementCarry s).tssBase = s.tssBase := rfl
@[simp] theorem complementCarry_access (s : State) : (complementCarry s).access = s.access := rfl
@[simp] theorem complementCarry_codeRegion (s : State) : (complementCarry s).codeRegion = s.codeRegion := rfl
@[simp] theorem complementCarry_endPc (s : State) : (complementCarry s).endPc = s.endPc := rfl
@[simp] theorem complementCarry_pfx (s : State) : (complementCarry s).pfx = s.pfx := rfl
@[simp] theorem complementCarry_mem (s : State) : (complementCarry s).mem = s.mem := rfl
@[simp] theorem complementCarry_io (s : State) : (complementCarry s).io = s.io := rfl

/-! ### Starting an instruction -/

@[simp] theorem startInstr_regs (s : State) : (startInstr s).regs = s.regs := rfl
@[simp] theorem startInstr_segs (s : State) : (startInstr s).segs = s.segs := rfl
@[simp] theorem startInstr_cf (s : State) : (startInstr s).cf = s.cf := rfl
@[simp] theorem startInstr_otherFlags (s : State) : (startInstr s).otherFlags = s.otherFlags := rfl
@[simp] theorem startInstr_pc (s : State) : (startInstr s).pc = s.pc := rfl
@[simp] theorem startInstr_gdtr (s : State) : (startInstr s).gdtr = s.gdtr := rfl
@[simp] theorem startInstr_idtr (s : State) : (startInstr s).idtr = s.idtr := rfl
@[simp] theorem startInstr_mode (s : State) : (startInstr s).mode = s.mode := rfl
@[simp] theorem startInstr_defaultOperandSize (s : State) : (startInstr s).defaultOperandSize = s.defaultOperandSize := rfl
@[simp] theorem startInstr_defaultAddressSize (s : State) : (startInstr s).defaultAddressSize = s.defaultAddressSize := rfl
@[simp] theorem startInstr_stackAddrSize (s : State) : (startInstr s).stackAddrSize = s.stackAddrSize := rfl
@[simp] theorem startInstr_tssType (s : State) : (startInstr s).tssType = s.tssType := rfl
@[simp] theorem startInstr_tssBase (s : State) : (startInstr s).tssBase = s.tssBase := rfl
@[simp] theorem startInstr_access (s : State) : (startInstr s).access = s.access := rfl
@[simp] theorem startInstr_codeRegion (s : State) : (startInstr s).codeRegion = s.codeRegion := rfl
@[simp] theorem startInstr_endPc (s : State) : (startInstr s).endPc = s.endPc := rfl
@[simp] theorem startInstr_pfx (s : State) : (startInstr s).pfx = {} := rfl
@[simp] theorem startInstr_mem (s : State) : (startInstr s).mem = s.mem := rfl
@[simp] theorem startInstr_io (s : State) : (startInstr s).io = s.io := rfl

/-! ### Placing bytes at the fetch position -/

@[simp] theorem placeAtFetch_regs (s : State) (bs : List Byte) : (placeAtFetch s bs).regs = s.regs := rfl
@[simp] theorem placeAtFetch_segs (s : State) (bs : List Byte) : (placeAtFetch s bs).segs = s.segs := rfl
@[simp] theorem placeAtFetch_cf (s : State) (bs : List Byte) : (placeAtFetch s bs).cf = s.cf := rfl
@[simp] theorem placeAtFetch_otherFlags (s : State) (bs : List Byte) : (placeAtFetch s bs).otherFlags = s.otherFlags := rfl
@[simp] theorem placeAtFetch_pc (s : State) (bs : List Byte) : (placeAtFetch s bs).pc = s.pc := rfl
@[simp] theorem placeAtFetch_gdtr (s : State) (bs : List Byte) : (placeAtFetch s bs).gdtr = s.gdtr := rfl
@[simp] theorem placeAtFetch_idtr (s : State) (bs : List Byte) : (placeAtFetch s bs).idtr = s.idtr := rfl
@[simp] theorem placeAtFetch_mode (s : State) (bs : List Byte) : (placeAtFetch s bs).mode = s.mode := rfl
@[simp] theorem placeAtFetch_defaultOperandSize (s : State) (bs : List Byte) : (placeAtFetch s bs).defaultOperandSize = s.defaultOperandSize := rfl
@[simp] theorem placeAtFetch_defaultAddressSize (s : State) (bs : List Byte) : (placeAtFetch s bs).defaultAddressSize = s.defaultAddressSize := rfl
@[simp] theorem placeAtFetch_stackAddrSize (s : State) (bs : List Byte) : (placeAtFetch s bs).stackAddrSize = s.stackAddrSize := rfl
@[simp] theorem placeAtFetch_tssType (s : State) (bs : List Byte) : (placeAtFetch s bs).tssType = s.tssType := rfl
@[simp] theorem placeAtFetch_tssBase (s : State) (bs : List Byte) : (placeAtFetch s bs).tssBase = s.tssBase := rfl
@[simp] theorem placeAtFetch_access (s : State) (bs : List Byte) : (placeAtFetch s bs).access = s.access := rfl
@[simp] theorem placeAtFetch_codeRegion (s : State) (bs : List Byte) : (placeAtFetch s bs).codeRegion = s.codeRegion := rfl
@[simp] theorem placeAtFetch_endPc (s : State) (bs : List Byte) : (placeAtFetch s bs).endPc = s.endPc := rfl
@[simp] theorem placeAtFetch_pfx (s : State) (bs : List Byte) : (placeAtFetch s bs).pfx = s.pfx := rfl
@[simp] theorem placeAtFetch_mem (s : State) (bs : List Byte) : (placeAtFetch s bs).mem = s.mem.put (lin s .cs s.pc) bs := rfl
@[simp] theorem placeAtFetch_io (s : State) (bs : List Byte) : (placeAtFetch s bs).io = s.io := rfl

/-! ### Moving the stack pointer -/

/-- The registers after the stack pointer moved (42_operation_primitives.md R196). -/
theorem moveStack_regs (s : State) (d : Word32) : (moveStack s d).regs =
    match s.stackAddrSize with
    | .s16 => s.regs.setR16 4#3 (s.regs.r16 4#3 + d.setWidth 16)
    | .s32 => s.regs.setR32 4#3 (s.regs.r32 4#3 + d) := by
  cases h : s.stackAddrSize <;> simp [moveStack, h]

@[simp] theorem moveStack_segs (s : State) (d : Word32) : (moveStack s d).segs = s.segs := by
  unfold moveStack; split <;> rfl
@[simp] theorem moveStack_cf (s : State) (d : Word32) : (moveStack s d).cf = s.cf := by
  unfold moveStack; split <;> rfl
@[simp] theorem moveStack_otherFlags (s : State) (d : Word32) : (moveStack s d).otherFlags = s.otherFlags := by
  unfold moveStack; split <;> rfl
@[simp] theorem moveStack_pc (s : State) (d : Word32) : (moveStack s d).pc = s.pc := by
  unfold moveStack; split <;> rfl
@[simp] theorem moveStack_gdtr (s : State) (d : Word32) : (moveStack s d).gdtr = s.gdtr := by
  unfold moveStack; split <;> rfl
@[simp] theorem moveStack_idtr (s : State) (d : Word32) : (moveStack s d).idtr = s.idtr := by
  unfold moveStack; split <;> rfl
@[simp] theorem moveStack_mode (s : State) (d : Word32) : (moveStack s d).mode = s.mode := by
  unfold moveStack; split <;> rfl
@[simp] theorem moveStack_defaultOperandSize (s : State) (d : Word32) : (moveStack s d).defaultOperandSize = s.defaultOperandSize := by
  unfold moveStack; split <;> rfl
@[simp] theorem moveStack_defaultAddressSize (s : State) (d : Word32) : (moveStack s d).defaultAddressSize = s.defaultAddressSize := by
  unfold moveStack; split <;> rfl
@[simp] theorem moveStack_stackAddrSize (s : State) (d : Word32) : (moveStack s d).stackAddrSize = s.stackAddrSize := by
  unfold moveStack; split <;> rfl
@[simp] theorem moveStack_tssType (s : State) (d : Word32) : (moveStack s d).tssType = s.tssType := by
  unfold moveStack; split <;> rfl
@[simp] theorem moveStack_tssBase (s : State) (d : Word32) : (moveStack s d).tssBase = s.tssBase := by
  unfold moveStack; split <;> rfl
@[simp] theorem moveStack_access (s : State) (d : Word32) : (moveStack s d).access = s.access := by
  unfold moveStack; split <;> rfl
@[simp] theorem moveStack_codeRegion (s : State) (d : Word32) : (moveStack s d).codeRegion = s.codeRegion := by
  unfold moveStack; split <;> rfl
@[simp] theorem moveStack_endPc (s : State) (d : Word32) : (moveStack s d).endPc = s.endPc := by
  unfold moveStack; split <;> rfl
@[simp] theorem moveStack_pfx (s : State) (d : Word32) : (moveStack s d).pfx = s.pfx := by
  unfold moveStack; split <;> rfl
@[simp] theorem moveStack_mem (s : State) (d : Word32) : (moveStack s d).mem = s.mem := by
  unfold moveStack; split <;> rfl
@[simp] theorem moveStack_io (s : State) (d : Word32) : (moveStack s d).io = s.io := by
  unfold moveStack; split <;> rfl

end Sys2Proof.Machine
end

