-- ==== Sys2Proof/Laws/Ops.lean ====
section
/-!
SUPPORT. One lemma for each shared operation: all it can do.
-/

namespace Sys2Proof.Machine

/-! ### Sequencing -/

@[simp] theorem andThen_next {α β : Type} (a : α) (f : α → Res β) : andThen (.next a) f = f a := rfl

@[simp] theorem andThen_fault {α β : Type} (r : Fault) (f : α → Res β) : andThen (.fault r : Res α) f = .fault r := rfl

@[simp] theorem andThen_refused {α β : Type} (r : Refusal) (f : α → Res β) : andThen (.refused r : Res α) f = .refused r := rfl

theorem andThen_eq_next {α β : Type} {x : Res α} {f : α → Res β} {b : β} (h : andThen x f = .next b) :
    ∃ a, x = .next a ∧ f a = .next b := by
  cases x with
  | next a => exact ⟨a, rfl, h⟩
  | fault r => cases h
  | refused r => cases h

/-! ### Segment-relative access -/

/-- A segment-relative read answers the bytes at the linear address, and only where the check is ok (20_memory.md R53). -/
theorem segRead_eq_next {s : State} {g : SegName} {off : Word32} {n : Nat} {v : BitVec (8 * n)}
    (h : segRead s g off n = .next v) : accessCheck s g off n .read = none ∧ v = s.mem.read (lin s g off) n := by
  unfold segRead at h
  cases hc : accessCheck s g off n .read with
  | some e => rw [hc] at h; cases h
  | none => rw [hc] at h; cases h; exact ⟨rfl, rfl⟩

theorem segRead_of_ok {s : State} {g : SegName} {off : Word32} {n : Nat} (h : accessCheck s g off n .read = none) :
    segRead s g off n = .next (s.mem.read (lin s g off) n) := by
  simp [segRead, h]

theorem segRead_of_some {s : State} {g : SegName} {off : Word32} {n : Nat} {e : Exn}
    (h : accessCheck s g off n .read = some e) : segRead s g off n = raise e := by
  simp [segRead, h]

/-- A segment-relative write changes memory alone, at the linear address, where the check is ok and no byte is code
(20_memory.md R53, R58, R68). -/
theorem segWrite_eq_next {s t : State} {g : SegName} {off : Word32} {n : Nat} {v : BitVec (8 * n)}
    (h : segWrite s g off n v = .next t) :
    accessCheck s g off n .write = none ∧ touchesCode s (lin s g off) n = false
      ∧ t = { s with mem := s.mem.write (lin s g off) n v } := by
  unfold segWrite at h
  cases hc : accessCheck s g off n .write with
  | some e => rw [hc] at h; cases h
  | none =>
    rw [hc] at h
    cases ht : touchesCode s (lin s g off) n with
    | true => simp [memWrite, ht] at h
    | false => simp only [memWrite, ht, Bool.false_eq_true, if_false, Host.Outcome.next.injEq] at h; exact ⟨rfl, rfl, h.symm⟩

theorem segWrite_of_ok {s : State} {g : SegName} {off : Word32} {n : Nat} (v : BitVec (8 * n))
    (h : accessCheck s g off n .write = none) (ht : touchesCode s (lin s g off) n = false) :
    segWrite s g off n v = .next { s with mem := s.mem.write (lin s g off) n v } := by
  simp [segWrite, h, memWrite, ht]

theorem segWrite_of_some {s : State} {g : SegName} {off : Word32} {n : Nat} (v : BitVec (8 * n)) {e : Exn}
    (h : accessCheck s g off n .write = some e) : segWrite s g off n v = raise e := by
  simp [segWrite, h]

/-- The `n` bytes from an address touch code exactly when one of them is code. -/
theorem touchesCode_iff (s : State) : ∀ (n : Nat) (a : Word32),
    touchesCode s a n = true ↔ ∃ k, k < n ∧ inCode s (a + BitVec.ofNat 32 k) = true
  | 0, a => by simp [touchesCode]
  | n + 1, a => by
    simp only [touchesCode, Bool.or_eq_true, touchesCode_iff s n]
    constructor
    · rintro (h | ⟨k, hk, h⟩)
      · exact ⟨0, by omega, by simpa using h⟩
      · exact ⟨k + 1, by omega, by rwa [add_ofNat_succ] at h⟩
    · rintro ⟨k, hk, h⟩
      cases k with
      | zero => exact Or.inl (by simpa using h)
      | succ k => exact Or.inr ⟨k, by omega, by rwa [add_ofNat_succ]⟩

@[simp] theorem valueOf_w8 (v : Byte) : valueOf .w8 v = .byte v := rfl
@[simp] theorem valueOf_w16 (v : Word16) : valueOf .w16 v = .word v := rfl
@[simp] theorem valueOf_w32 (v : Word32) : valueOf .w32 v = .dword v := rfl

/-- An r/m operand of a class with a width is ReadRM at that width (41_addressing.md R171, 30_encoding.md R121). -/
theorem readRmOf_of_width {c : RmClass} {w : OpWidth} (h : c.width = some w) (s : State) (a : AddrSpec) :
    readRmOf s c a = andThen (readRM s w a) fun v => .next (valueOf w v) := by
  cases c <;> cases h <;> rfl

/-- A register operand of a class with a width is the register of that width (R121, R151). -/
theorem readRegOf_of_width {c : RegClass} {w : OpWidth} (h : c.width = some w) (s : State) (a : AddrSpec) :
    readRegOf s c a = .next (valueOf w (readReg s w a)) := by
  cases c <;> cases h <;> rfl

/-- The register in the opcode byte of a +rb, +rw or +rd form is the one of its width, by its code (R94, R121). -/
theorem readOpRegOf_of_width {f : Form} {w : OpWidth} (h : f.opReg.width = some w) (s : State) (x : Fields) :
    readOpRegOf s f x = some (valueOf w (s.regs.read w (f.opRegCode x))) := by
  simp [readOpRegOf, h, readOpReg]

/-- A form without +rb, +rw or +rd names no register in its opcode (R94). -/
theorem readOpRegOf_of_none {f : Form} (h : f.opReg = .none) (s : State) (x : Fields) : readOpRegOf s f x = none := by
  simp [readOpRegOf, h, OpReg.width]

/-! ### The rows -/

/-- A prefix row records itself in the decode state, or is refused (40_prefixes.md R130, 30_encoding.md R85). -/
theorem notePrefix_eq (f : Prefixes → Option Prefixes) (s : State) :
    notePrefix f s = (match f s.pfx with
      | some p => .next { s with pfx := p }
      | none => .refused .prefixGroupRepeated) := rfl

/-- What CMC can do (43_flag_control.md R210, R145). -/
theorem execCmc_eq (s : State) : execCmc s =
    if s.pfx.rep.isSome then .refused .repOnNonString
    else if s.pfx.lock then .refused .lockNotDefined
    else .next { s with cf := !s.cf, pc := s.pc + BitVec.ofNat 32 (s.pfx.count + 1), pfx := {} } := rfl

/-! ### The stack (42_operation_primitives.md R194 to R196) -/

/-- Moving the stack pointer writes ESP and nothing else. -/
theorem moveStack_eq (s : State) (d : Word32) :
    moveStack s d = { s with regs := { s.regs with esp := (moveStack s d).regs.esp } } := by
  cases h : s.stackAddrSize <;> simp only [moveStack, h] <;> rfl

theorem stackTop_moveStack (s : State) (d : Word32) : stackTop (moveStack s d) =
    match s.stackAddrSize with
    | .s16 => (s.regs.r16 4#3 + d.setWidth 16).setWidth 32
    | .s32 => s.regs.r32 4#3 + d := by
  cases h : s.stackAddrSize <;> simp [stackTop, moveStack, h]

@[simp] theorem accessCheck_moveStack (s : State) (d : Word32) (g : SegName) (off : Word32) (n : Nat) (k : AccessKind) :
    accessCheck (moveStack s d) g off n k = accessCheck s g off n k := by
  simp [accessCheck]

@[simp] theorem lin_moveStack (s : State) (d : Word32) (g : SegName) (off : Word32) :
    lin (moveStack s d) g off = lin s g off := by
  simp [lin]

@[simp] theorem touchesCode_moveStack (s : State) (d : Word32) : ∀ (n : Nat) (a : Word32),
    touchesCode (moveStack s d) a n = touchesCode s a n
  | 0, _ => rfl
  | n + 1, a => by simp [touchesCode, touchesCode_moveStack s d n, inCode]

/-- A push that answers moved the stack pointer, was admitted, touched no code and stored the value at the new top. -/
theorem push_eq_next {s t : State} {os : AttrSize} {v : BitVec os.bits} (h : push s os v = .next t) :
    ∃ u, u = moveStack s (0#32 - BitVec.ofNat 32 os.bytes) ∧ accessCheck s .ss (stackTop u) os.bytes .write = none
      ∧ touchesCode s (lin s .ss (stackTop u)) os.bytes = false
      ∧ t = { u with mem := s.mem.write (lin s .ss (stackTop u)) os.bytes v } := by
  obtain ⟨h1, h2, h3⟩ := segWrite_eq_next h
  simp only [accessCheck_moveStack, lin_moveStack, touchesCode_moveStack, moveStack_mem] at h1 h2 h3
  exact ⟨_, rfl, h1, h2, h3⟩

/-- A pop that answers was admitted, gives the value at the top and moved the stack pointer. -/
theorem pop_eq_next {s t : State} {os : AttrSize} {v : BitVec os.bits} (h : pop s os = .next (v, t)) :
    accessCheck s .ss (stackTop s) os.bytes .read = none ∧ v = s.mem.read (lin s .ss (stackTop s)) os.bytes
      ∧ t = moveStack s (BitVec.ofNat 32 os.bytes) := by
  obtain ⟨w, h1, h2⟩ := andThen_eq_next h
  obtain ⟨h3, rfl⟩ := segRead_eq_next h1
  cases h2
  exact ⟨h3, rfl, rfl⟩

end Sys2Proof.Machine
end

