-- ==== Sys2Proof/Laws/PerInstr.lean ====
section
/-!
SUPPORT. Facts about each row of the opcode table, one lemma per constructor.
-/

namespace Sys2Proof.Laws.RowByte

open Sys2Proof

/-- A row's byte is read back as the row, under its canonical name (F3 is REP's and REPE/REPZ's), as a prefix exactly where the
row is one, and the row stands in the opcode table under that byte. -/
def Statement (i : Instr) : Prop :=
  (rowOf (encodeRow i)).map TableRow.instr = some (canonRow i)
    ∧ prefixRow (encodeRow i) = (if i.isPrefix then some (canonRow i) else none)
    ∧ (opcodeRow (encodeRow i)).isSome = !i.isPrefix
    ∧ ∃ r ∈ opcodeTable, r.instr = i ∧ r.pat = encodeRow i ∧ r.mask = 0xFF#8

theorem cmc : Statement .cmc := by unfold Statement; decide
theorem rep : Statement .rep := by unfold Statement; decide
theorem repeRepz : Statement .repeRepz := by unfold Statement; decide
theorem repneRepnz : Statement .repneRepnz := by unfold Statement; decide
theorem lock : Statement .lock := by unfold Statement; decide
theorem csOverride : Statement .csOverride := by unfold Statement; decide
theorem ssOverride : Statement .ssOverride := by unfold Statement; decide
theorem dsOverride : Statement .dsOverride := by unfold Statement; decide
theorem esOverride : Statement .esOverride := by unfold Statement; decide
theorem fsOverride : Statement .fsOverride := by unfold Statement; decide
theorem gsOverride : Statement .gsOverride := by unfold Statement; decide
theorem opSize : Statement .opSize := by unfold Statement; decide
theorem adSize : Statement .adSize := by unfold Statement; decide

end Sys2Proof.Laws.RowByte
end

