-- ==== Sys2Proof/Laws/Step.lean ====
section
/-!
SUPPORT. What fetching, decoding and running rows do: the lemmas that a statement about a step goes through.
-/

namespace Sys2Proof.Machine

/-! ### Outcomes by value -/

theorem eq_next_of_nextOf {α : Type} {x : Res α} {a : α} (h : nextOf x = some a) : x = .next a := by
  cases x <;> cases h
  rfl

theorem eq_fault_of_faultOf {α : Type} {x : Res α} {f : Fault} (h : faultOf x = some f) : x = .fault f := by
  cases x <;> cases h
  rfl

theorem eq_refused_of_refusalOfRes {α : Type} {x : Res α} {r : Refusal} (h : refusalOfRes x = some r) : x = .refused r := by
  cases x <;> cases h
  rfl

/-! ### Running rows -/

/-- The meaning of a prefix row: it records itself, or is refused. -/
theorem exec_of_isPrefix (i : Instr) (s : State) (h : i.isPrefix = true) :
    exec i s = (match recordPrefix i s.pfx with
      | some p => .next { s with pfx := p }
      | none => .refused .prefixGroupRepeated) := by
  cases i <;> first | rfl | cases h

/-- Running the rows of a prefix run that are all recorded leaves their decode state and nothing else. -/
theorem runRows_of_recordAll : ∀ (l : List Instr) (s : State) (q : Prefixes) (l' : List Instr),
    recordAll l s.pfx = some q → runRows exec (l ++ l') s = runRows exec l' { s with pfx := q }
  | [], s, q, l', h => by cases h; rfl
  | i :: l, s, q, l', h => by
    obtain ⟨p, h1, h2⟩ := Option.bind_eq_some_iff.mp h
    simp only [List.cons_append, runRows, exec_of_isPrefix i s (recordPrefix_isPrefix h1), h1, andThen_next]
    exact runRows_of_recordAll l { s with pfx := p } q l' h2

/-- Running one row. -/
@[simp] theorem runRows_singleton (f : Instr → State → Res State) (i : Instr) (s : State) : runRows f [i] s = f i s := by
  simp only [runRows]
  cases f i s <;> rfl

/-! ### Decoding an instruction of the machine -/

/-- CMC's form has one opcode byte and nothing else. -/
theorem parseFields_cmc (os as : AttrSize) (rest : List Byte) :
    parseFields (cmcForm.choose os) as (0xF5#8 :: rest) = .ok { opcode := [0xF5#8] } rest := by
  cases os <;> rfl

/-- CMC's form is found at its opcode byte, at either operand size. -/
theorem findForm_cmc (os : AttrSize) (rest : List Byte) :
    findForm 0xF5#8 os [(Instr.cmc, cmcForm)] (0xF5#8 :: rest) = .ok (.cmc, cmcForm.choose os) (0xF5#8 :: rest) := by
  cases os <;> rfl

/-- An opcode byte without a row has no form. -/
theorem findForm_nil {α : Type} (op : Byte) (os : AttrSize) (bs : List Byte) :
    findForm (α := α) op os [] bs = .refuse (.opcodeNotInSource op) := rfl

theorem fieldsLength_opcode (b : Byte) : Fields.length { opcode := [b] } = 1 := rfl

/-- Decoding a well-formed run of prefix rows and F5. -/
theorem decode_cmc (a b : AttrSize) (l : List Instr) (rest : List Byte) (h : prefixRunWf l = true) :
    ∃ q, recordAll l {} = some q ∧
      decode a b (l.map encodeRow ++ 0xF5#8 :: rest) =
        .ok { prefixes := l.map canonRow, pfx := q, operandSize := sizeAttr a q.opsize, addressSize := sizeAttr b q.adsize,
              op := .cmc, fields := { opcode := [0xF5#8] }, length := l.length + 1 } rest := by
  obtain ⟨q, h1, _, _⟩ := recordAll_of_wf l {} h (by simp)
  have hb : prefixRow 0xF5#8 = none := by decide +kernel
  have ho : opcodeRow 0xF5#8 = some (.cmc, cmcForm) := by decide +kernel
  have hlen : ¬ Config.maxInstrLen < l.length + 1 := by
    have := length_le_four_of_wf l h
    simp only [Config.maxInstrLen]
    omega
  refine ⟨q, h1, ?_⟩
  simp only [decode, decodeWith, scanPrefixes_encode l {} q _ rest h1 hb, Parse.andThen_ok, takeByte, ho, Option.toList_some,
    findForm_cmc, parseFields_cmc,
    fieldsLength_opcode, List.length_map, hlen, if_false]

/-- What bytes the decoder reads as an instruction: a well-formed run of prefix rows, then F5. -/
theorem decode_eq_ok {a b : AttrSize} {bs rest : List Byte} {d : Decoded Instr} (h : decode a b bs = .ok d rest) :
    bs = d.prefixes.map encodeRow ++ 0xF5#8 :: rest ∧ prefixRunWf d.prefixes = true ∧ d.op = .cmc
      ∧ d.prefixes.map canonRow = d.prefixes ∧ d.length = d.prefixes.length + 1 := by
  obtain ⟨⟨is, q⟩, r1, h1, h2⟩ := Parse.andThen_eq_ok (p := scanPrefixes {} bs) h
  obtain ⟨e1, e2, e3, c, r, e4, e5⟩ := scanPrefixes_eq_ok bs {} q is r1 h1
  subst e4
  simp only [takeByte, Parse.andThen_ok] at h2
  cases ho : opcodeRow c with
  | none => simp only [ho, Option.toList_none, findForm_nil] at h2; cases h2
  | some x =>
    obtain ⟨rfl, rfl⟩ := opcodeRow_eq c x ho
    simp only [ho, Option.toList_some, findForm_cmc, parseFields_cmc, Parse.andThen_ok] at h2
    have hl : ¬ Config.maxInstrLen < is.length + Fields.length { opcode := [0xF5#8] } := by
      have := length_le_four_of_wf is (wf_of_recordAll is {} q e2).1
      rw [fieldsLength_opcode]
      simp only [Config.maxInstrLen]
      omega
    rw [if_neg hl] at h2
    cases h2
    exact ⟨e1, (wf_of_recordAll is {} q e2).1, rfl, e3, rfl⟩

/-! ### Fetching -/

/-- Bytes that stand at `pc` and may be fetched are the first bytes of the window. -/
theorem fetchFrom_of_holds (s : State) : ∀ (bs : List Byte) (n : Nat) (off : Word32), bs.length ≤ n →
    (∀ k, k < bs.length → accessCheck s .cs (off + BitVec.ofNat 32 k) 1 .fetch = none
      ∧ bs[k]? = some (s.mem.byteAt (lin s .cs (off + BitVec.ofNat 32 k)))) →
    fetchFrom s n off = (bs ++ (fetchFrom s (n - bs.length) (off + BitVec.ofNat 32 bs.length)).1,
      (fetchFrom s (n - bs.length) (off + BitVec.ofNat 32 bs.length)).2)
  | [], n, off, _, _ => by simp
  | b :: bs, 0, off, hn, _ => by simp at hn
  | b :: bs, n + 1, off, hn, h => by
    obtain ⟨h1, h2⟩ := h 0 (by simp)
    have e0 : off + BitVec.ofNat 32 0 = off := by simp
    rw [e0] at h1 h2
    have hb : b = s.mem.byteAt (lin s .cs off) := by simpa using h2
    have ih := fetchFrom_of_holds s bs n (off + 1#32) (by simpa using hn) (by
      intro k hk
      have := h (k + 1) (by simpa using hk)
      rw [add_ofNat_succ]
      simpa using this)
    rw [add_ofNat_succ] at ih
    simp only [fetchFrom, h1, ih, ← hb, List.cons_append, List.length_cons, Nat.add_sub_add_right]

/-- The window at `pc` begins with code that stands there. -/
theorem fetch_of_holdsCode (s : State) (bs : List Byte) (h : s.holdsCode bs) (hl : bs.length ≤ Config.maxInstrLen) :
    ∃ rest, (fetchFrom s Config.maxInstrLen s.pc).1 = bs ++ rest := by
  rw [fetchFrom_of_holds s bs _ s.pc hl h]
  exact ⟨_, rfl⟩

/-- The window: its bytes stand at `pc` and may be fetched, and where it stops with an exception the next byte has it. -/
theorem fetchFrom_spec (s : State) : ∀ (n : Nat) (off : Word32),
    (fetchFrom s n off).1.length ≤ n
      ∧ (∀ k, k < (fetchFrom s n off).1.length → accessCheck s .cs (off + BitVec.ofNat 32 k) 1 .fetch = none)
      ∧ (∀ e, (fetchFrom s n off).2 = some e →
          accessCheck s .cs (off + BitVec.ofNat 32 (fetchFrom s n off).1.length) 1 .fetch = some e)
      ∧ ((fetchFrom s n off).2 = none → (fetchFrom s n off).1.length = n)
  | 0, off => by simp [fetchFrom]
  | n + 1, off => by
    cases hc : accessCheck s .cs off 1 .fetch with
    | some e => simp [fetchFrom, hc]
    | none =>
      obtain ⟨h1, h2, h3, h4⟩ := fetchFrom_spec s n (off + 1#32)
      simp only [fetchFrom, hc, List.length_cons]
      refine ⟨by omega, ?_, ?_, fun h => by rw [h4 h]⟩
      · intro k hk
        cases k with
        | zero => simpa using hc
        | succ k => rw [← add_ofNat_succ]; exact h2 k (by omega)
      · intro e he
        rw [← add_ofNat_succ]
        exact h3 e he

/-- Code that stands at `pc` begins with every first part of it. -/
theorem State.holdsCode_left {s : State} {a b : List Byte} (h : s.holdsCode (a ++ b)) : s.holdsCode a := by
  intro k hk
  have := h k (by simp; omega)
  rwa [List.getElem?_append_left hk] at this

/-! ### The step -/

/-- A step over a well-formed prefix run and F5 is CMC under the decode state of the run. -/
theorem step_of_holdsCode (s : State) (l : List Instr) (h : prefixRunWf l = true)
    (hc : s.holdsCode (l.map encodeRow ++ [0xF5#8])) :
    ∃ q, recordAll l {} = some q ∧ step s = exec .cmc { s with pfx := q } := by
  have hl := length_le_four_of_wf l h
  obtain ⟨rest, hr⟩ := fetch_of_holdsCode s _ hc (by simp [Config.maxInstrLen]; omega)
  obtain ⟨q, h1, h2⟩ := decode_cmc s.defaultOperandSize s.defaultAddressSize l rest h
  refine ⟨q, h1, ?_⟩
  rw [List.append_assoc] at hr
  have hr' : (fetchFrom s Config.maxInstrLen s.pc).1 = List.map encodeRow l ++ 0xF5#8 :: rest := hr
  simp only [step, stepWith, hr', h2]
  rw [runRows_of_recordAll (l.map canonRow) (startInstr s) q [.cmc] (by simpa using h1)]
  simp [startInstr]

/-- Everything a step can do: CMC under the decode state of a well-formed prefix run, a refusal of the decoder, or, where
the window ended too soon, the exception of its first byte that may not be fetched. -/
theorem step_cases (s : State) :
    (∃ d rest q, decode s.defaultOperandSize s.defaultAddressSize (fetchFrom s Config.maxInstrLen s.pc).1 = .ok d rest
        ∧ recordAll d.prefixes {} = some q ∧ q.count = d.prefixes.length ∧ d.prefixes.length ≤ 4 ∧ q.sane = true
        ∧ step s = exec .cmc { s with pfx := q })
      ∨ (∃ r, decode s.defaultOperandSize s.defaultAddressSize (fetchFrom s Config.maxInstrLen s.pc).1 = .refuse r
        ∧ step s = .refused (refusalOf r))
      ∨ (decode s.defaultOperandSize s.defaultAddressSize (fetchFrom s Config.maxInstrLen s.pc).1 = .short
        ∧ step s = match (fetchFrom s Config.maxInstrLen s.pc).2 with
          | some e => raise e
          | none => .refused .instructionTooLong) := by
  cases h : decode s.defaultOperandSize s.defaultAddressSize (fetchFrom s Config.maxInstrLen s.pc).1 with
  | ok d rest =>
    obtain ⟨e1, e2, e3, e4, e5⟩ := decode_eq_ok h
    obtain ⟨q, h1, h2, _⟩ := recordAll_of_wf d.prefixes {} e2 (by simp)
    refine Or.inl ⟨d, rest, q, rfl, h1, by simpa using h2, length_le_four_of_wf _ e2, sane_of_recordAll _ {} q rfl h1, ?_⟩
    simp only [step, stepWith, h, e3]
    rw [runRows_of_recordAll _ (startInstr s) q _ (by simpa using h1)]
    simp [startInstr]
  | refuse r => exact Or.inr (Or.inl ⟨r, rfl, by simp only [step, stepWith, h]⟩)
  | short => exact Or.inr (Or.inr ⟨rfl, by simp only [step, stepWith, h] <;> rfl⟩)

end Sys2Proof.Machine
end

