-- ==== Sys2Proof/Tests/Slice0.lean ====
section
/-!
SUPPORT. Tests: the checks of WellFormed, words written out from the spec's encodings, the vectors of 95_test_vectors.md
("V <part>" in a docstring), and for every statement with hypotheses a state and operands that meet them.
-/

set_option Elab.async false

namespace Sys2Proof.Tests

open Sys2Proof Sys2Proof.Machine

/-! ### Small states -/

/-- The vectors' launch state: protected mode, 32-bit sizes, flat segments, `pc` = 100, with bytes at `pc`. -/
def flat (bs : List Byte) : State :=
  placeAtFetch
    { State.reset with
      pc := 0x100#32
      segs := { State.reset.segs with cs := { selector := 0#16, base := 0#32 } }
      mode := .protected386
      defaultOperandSize := .s32
      defaultAddressSize := .s32
      stackAddrSize := .s32 } bs

/-- The registers "regs0" of the vectors. -/
def regs0 : Regs :=
  { eax := 0x1000#32, ecx := 0x10#32, edx := 0x80000000#32, ebx := 0x1234F000#32, esp := 0xFFF0#32, ebp := 0x2000#32,
    esi := 0xFFFF0020#32, edi := 0xFFFF#32 }

/-- #GP(0). -/
def gp0 : Exn := { name := .gp, code := some 0 }

/-- AccessCheck turns down the fetches at one offset of CS. -/
def noFetchAt (a : Word32) : AccessRule :=
  { seg := .cs, kind := .fetch, offLo := a, offHi := a, nLo := 0, nHi := 15, exn := gp0 }

/-- AccessCheck turns down the accesses of a kind at one offset of a segment. -/
def denyAt (g : SegName) (k : AccessKind) (a : Word32) : AccessRule :=
  { seg := g, kind := k, offLo := a, offHi := a, nLo := 0, nHi := 8, exn := gp0 }

/-- `flat` with memory given. -/
def withMem (m : Memory) : State := { flat [] with mem := m }

/-- An address specifier with no SIB byte. -/
def spec (mod : BitVec 2) (reg rm : BitVec 3) (d : Disp) : AddrSpec :=
  { modrm := { mod := mod, reg := reg, rm := rm }, sib := none, disp := d }

/-- The address specifier at the head of some bytes. -/
def specOf (as : AttrSize) (bs : List Byte) : AddrSpec :=
  match parseAddrSpec as bs with
  | .ok a _ => a
  | _ => spec 0#2 0#3 0#3 .none

/-! ### WellFormed refuses -/

/-- Two prefixes of one group (30_encoding.md R85). -/
theorem test_wf_refuses_repeated_group :
    Insn.wf { prefixes := [.csOverride, .opSize, .dsOverride], op := .cmc } = false := by decide

/-- An instruction among the prefixes. -/
theorem test_wf_refuses_instruction_as_prefix : Insn.wf { prefixes := [.cmc], op := .cmc } = false := by decide

/-- A prefix as opcode. -/
theorem test_wf_refuses_prefix_as_opcode : Insn.wf { prefixes := [], op := .lock } = false := by decide

/-- A form of no or three opcode bytes (R80). -/
theorem test_wf_refuses_opcode_length :
    Form.wf { opcode := [] } = false ∧ Form.wf { opcode := [1#8, 2#8, 3#8] } = false := by decide

/-- A register class without /r (R91). -/
theorem test_wf_refuses_class_without_slash_r :
    Form.wf { opcode := [1#8], modrm := .digit 0#3, regClass := some .r32, rmClass := some .rm32 } = false := by decide

/-- A ModR/M byte without an r/m class, and an r/m class without one (R88). -/
theorem test_wf_refuses_modrm_without_class :
    Form.wf { opcode := [1#8], modrm := .digit 0#3 } = false
      ∧ Form.wf { opcode := [1#8], rmClass := some .rm32 } = false := by decide

/-- moffs beside a ModR/M byte (R108). -/
theorem test_wf_refuses_moffs_beside_modrm :
    Form.wf { opcode := [1#8], modrm := .digit 0#3, rmClass := some .rm8, moffs := some .moffs8 } = false := by decide

/-- Well-formed ones of each kind. -/
theorem test_wf_takes :
    Insn.wf { prefixes := [.opSize, .adSize, .esOverride, .lock], op := .cmc } = true
      ∧ Form.wf cmcForm.at16 = true ∧ Form.wf cmcForm.at32 = true
      ∧ Form.wf { opcode := [1#8], modrm := .slashR, regClass := some .r32, rmClass := some .rm32 } = true := by decide

/-! ### Decoding words (V 2.1) -/

/-- What the decoder says of an instruction, for short. -/
def seen (a b : AttrSize) (bs : List Byte) : Option (List Instr × Instr × Prefixes × Nat) :=
  match decode a b bs with
  | .ok d _ => some (d.prefixes, d.op, d.pfx, d.length)
  | _ => none

theorem test_decode_cmc : seen .s32 .s32 [0xF5#8] = some ([], .cmc, {}, 1) := by decide +kernel

theorem test_decode_cs : seen .s32 .s32 [0x2E#8, 0xF5#8] = some ([.csOverride], .cmc, { seg := some .cs }, 2) := by decide +kernel

theorem test_decode_ss : seen .s32 .s32 [0x36#8, 0xF5#8] = some ([.ssOverride], .cmc, { seg := some .ss }, 2) := by decide +kernel

theorem test_decode_ds : seen .s32 .s32 [0x3E#8, 0xF5#8] = some ([.dsOverride], .cmc, { seg := some .ds }, 2) := by decide +kernel

theorem test_decode_es : seen .s32 .s32 [0x26#8, 0xF5#8] = some ([.esOverride], .cmc, { seg := some .es }, 2) := by decide +kernel

theorem test_decode_fs : seen .s32 .s32 [0x64#8, 0xF5#8] = some ([.fsOverride], .cmc, { seg := some .fs }, 2) := by decide +kernel

theorem test_decode_gs : seen .s32 .s32 [0x65#8, 0xF5#8] = some ([.gsOverride], .cmc, { seg := some .gs }, 2) := by decide +kernel

theorem test_decode_opsize : seen .s32 .s32 [0x66#8, 0xF5#8] = some ([.opSize], .cmc, { opsize := true }, 2) := by decide +kernel

theorem test_decode_adsize : seen .s32 .s32 [0x67#8, 0xF5#8] = some ([.adSize], .cmc, { adsize := true }, 2) := by decide +kernel

/-- F3 is REP's byte and REPE/REPZ's (R118). -/
theorem test_decode_rep :
    seen .s32 .s32 [0xF3#8, 0xF5#8] = some ([.rep], .cmc, { rep := some .f3 }, 2) ∧ canonRow .repeRepz = .rep := by decide +kernel

theorem test_decode_repne : seen .s32 .s32 [0xF2#8, 0xF5#8] = some ([.repneRepnz], .cmc, { rep := some .f2 }, 2) := by decide +kernel

theorem test_decode_lock : seen .s32 .s32 [0xF0#8, 0xF5#8] = some ([.lock], .cmc, { lock := true }, 2) := by decide +kernel

theorem test_decode_three_prefixes :
    seen .s16 .s16 [0x26#8, 0x67#8, 0x66#8, 0xF5#8, 0x90#8] =
      some ([.esOverride, .adSize, .opSize], .cmc, { seg := some .es, opsize := true, adsize := true }, 4) := by decide +kernel

theorem test_decode_refuses_repeats :
    decode .s32 .s32 [0x66#8, 0x66#8, 0xF5#8] = .refuse .prefixGroupRepeated
      ∧ decode .s32 .s32 [0x26#8, 0x3E#8, 0xF5#8] = .refuse .prefixGroupRepeated
      ∧ decode .s32 .s32 [0xF0#8, 0xF3#8, 0xF5#8] = .refuse .prefixGroupRepeated := by decide +kernel

theorem test_decode_refuses_unlisted :
    decode .s32 .s32 [0x3E#8, 0x90#8] = .refuse (.opcodeNotInSource 0x90#8)
      ∧ decode .s32 .s32 [0x0F#8, 0x00#8] = .refuse (.opcodeNotInSource 0x0F#8) := by decide +kernel

theorem test_decode_short : decode .s32 .s32 [] = .short ∧ decode .s32 .s32 [0x66#8] = .short := by decide +kernel

/-- The encoder writes the words back. -/
theorem test_encode :
    encode { prefixes := [.opSize, .adSize, .esOverride], op := .cmc } = [0x66#8, 0x67#8, 0x26#8, 0xF5#8] := by decide

/-- The rows as spec/opcode_table.json numbers them; REPE/REPZ's byte is read under the name REP. -/
theorem test_decodeTableWord :
    [0xF5, 0xF3, 0xF2, 0xF0, 0x2E, 0x36, 0x3E, 0x26, 0x64, 0x65, 0x66, 0x67].map (decodeTableWord 8) =
      [some .cmc, some .rep, some .repneRepnz, some .lock, some .csOverride, some .ssOverride, some .dsOverride,
        some .esOverride, some .fsOverride, some .gsOverride, some .opSize, some .adSize] := by decide +kernel

theorem test_decodeTableWord_refuses : decodeTableWord 8 0x90 = none ∧ decodeTableWord 16 0xF53E = some .dsOverride := by
  decide +kernel

/-- The decode attributes (V 2.1, second table). -/
theorem test_attributes :
    sizeAttr .s32 false = .s32 ∧ sizeAttr .s32 true = .s16 ∧ sizeAttr .s16 false = .s16 ∧ sizeAttr .s16 true = .s32 := by decide

/-! ### Forms that the spec makes up (V 2.8); XX is 90 -/

/-- One made-up row. -/
def rowXX (f16 f32 : Form) (b : Byte) : List (Unit × FormPair) :=
  if b = 0x90#8 ∨ b = 0x93#8 then [((), { at16 := f16, at32 := f32 })] else []

/-- The length a made-up row decodes to. -/
def lenXX (f16 f32 : Form) (bs : List Byte) : Option Nat :=
  match decodeWith (rowXX f16 f32) .s32 .s32 bs with
  | .ok d _ => some d.length
  | _ => none

def slashR16 : Form := { opcode := [0x90#8], modrm := .slashR, regClass := some .r16, rmClass := some .rm16 }
def slashR32 : Form := { opcode := [0x90#8], modrm := .slashR, regClass := some .r32, rmClass := some .rm32 }
def digit16 : Form := { opcode := [0x90#8], modrm := .digit 0#3, rmClass := some .rm16, imms := [.iw] }
def digit32 : Form := { opcode := [0x90#8], modrm := .digit 0#3, rmClass := some .rm32, imms := [.id] }

/-- A pair is refused for an ill-formed member, for a class of the other operand size in either member (an operand, a two-part
operand, a code offset, an immediate), for a word class in a byte form, and for members under different opcode bytes (R121). -/
theorem test_wf_refuses_pairs :
    FormPair.wf { at16 := { opcode := [] }, at32 := { opcode := [] } } = false
      ∧ FormPair.wf { at16 := slashR32, at32 := slashR32 } = false
      ∧ FormPair.wf { at16 := slashR16, at32 := slashR16 } = false
      ∧ FormPair.wf { at16 := { digit16 with rmClass := some .far32, imms := [] },
                      at32 := { digit16 with rmClass := some .far32, imms := [] } } = false
      ∧ FormPair.wf { at16 := { opcode := [0x90#8], code := some .cp }, at32 := { opcode := [0x90#8], code := some .cp } } = false
      ∧ FormPair.wf { at16 := { digit16 with imms := [.id] }, at32 := digit32 } = false
      ∧ FormPair.wf { at16 := { slashR16 with size := .byte }, at32 := { slashR32 with size := .byte } } = false
      ∧ FormPair.wf { at16 := slashR16, at32 := { slashR32 with opcode := [0x91#8] } } = false := by decide

/-- The pairs of the vectors: r16 with r32, iw with id, ptr16:16 with ptr16:32, and a byte form with itself. -/
theorem test_wf_takes_pairs :
    FormPair.wf { at16 := slashR16, at32 := slashR32 } = true ∧ FormPair.wf { at16 := digit16, at32 := digit32 } = true
      ∧ FormPair.wf { at16 := { opcode := [0x90#8], code := some .cd }, at32 := { opcode := [0x90#8], code := some .cp } } = true
      ∧ FormPair.wf { at16 := { opcode := [0x90#8], moffs := some .moffs8, size := .byte },
                      at32 := { opcode := [0x90#8], moffs := some .moffs8, size := .byte } } = true := by decide

theorem test_form_slash_r :
    lenXX slashR16 slashR32 [0x90#8, 0x00#8] = some 2
      ∧ lenXX slashR16 slashR32 [0x90#8, 0x84#8, 0x88#8, 0x00#8, 0x01#8, 0x00#8, 0x00#8] = some 7
      ∧ lenXX slashR16 slashR32 [0x67#8, 0x90#8, 0x84#8, 0x00#8, 0x01#8] = some 5 := by decide +kernel

theorem test_form_digit_imm :
    lenXX digit16 digit32 [0x90#8, 0x05#8, 0x78#8, 0x56#8, 0x34#8, 0x12#8, 0x44#8, 0x33#8, 0x22#8, 0x11#8] = some 10
      ∧ lenXX digit16 digit32 [0x66#8, 0x90#8, 0x05#8, 0x78#8, 0x56#8, 0x34#8, 0x12#8, 0x22#8, 0x11#8] = some 9 := by decide +kernel

/-- XX+rd id: the register is in the opcode byte (R94). -/
theorem test_form_plus_rd :
    parseFields { opcode := [0x90#8], opReg := .rd, imms := [.id] } .s32 [0x93#8, 0x78#8, 0x56#8, 0x34#8, 0x12#8] =
        .ok { opcode := [0x93#8], imms := [.id 0x12345678#32] } []
      ∧ Form.selectedBy { opcode := [0x90#8], opReg := .rd, imms := [.id] } { opcode := [0x93#8] } = true
      ∧ Form.opRegCode { opcode := [0x90#8], opReg := .rd } { opcode := [0x93#8] } = 3#3
      ∧ Form.selectedBy { opcode := [0x90#8], opReg := .rd } { opcode := [0x98#8] } = false := by decide +kernel

/-- The form XX /d over r/m32. -/
def slash (d : BitVec 3) : Form := { opcode := [0x90#8], modrm := .digit d, rmClass := some .rm32 }

/-- The ModR/M bytes of XX /2 are 10 to 17, 50 to 57, 90 to 97 and D0 to D7 (R152's example). -/
theorem test_form_digit_selects :
    ∀ m : Byte, ((slash 2#3).selects [0x90#8, m] = .ok true []) ↔
      m &&& 0xF8#8 ∈ [0x10#8, 0x50#8, 0x90#8, 0xD0#8] := by decide +kernel

/-- Among XX /1 and XX /2 the reg field chooses the row; with neither digit the opcode is not in the table (R90, R114). -/
theorem test_form_digit_chooses :
    let find := fun _ => [(1, FormPair.mk (slash 1#3) (slash 1#3)), (2, FormPair.mk (slash 2#3) (slash 2#3))]
    let op := fun (m : Byte) => match decodeWith find .s32 .s32 [0x90#8, m, 0#8] with
      | .ok d _ => some d.op
      | _ => none
    op 0x48#8 = some 1 ∧ op 0x50#8 = some 2
      ∧ parseFields (slash 2#3) .s32 [0x90#8, 0x48#8, 0#8] = .refuse (.opcodeNotInSource 0x90#8)
      ∧ decodeWith find .s32 .s32 [0x90#8, 0x58#8, 0#8] = .refuse (.opcodeNotInSource 0x90#8) := by decide +kernel

/-- Code offsets, moffs and far pointers (V 2.7, 2.8). -/
theorem test_form_code_and_moffs :
    parseFields { opcode := [0x90#8], code := some .cb } .s16 [0x90#8, 0xFE#8] = .ok { opcode := [0x90#8], code := some (.cb 0xFE#8) } []
      ∧ parseFields { opcode := [0x90#8], moffs := some .moffs32 } .s32 [0x90#8, 0x00#8, 0x20#8, 0x00#8, 0x00#8] =
          .ok { opcode := [0x90#8], moffs := some (.o32 0x2000#32) } []
      ∧ farOfCode .s32 (.cp 0x000812345678#48) = some { selector := 8#16, offset := 0x12345678#32 }
      ∧ farOfCode .s16 (.cd 0xF0001234#32) = some { selector := 0xF000#16, offset := 0x1234#32 } := by decide +kernel

/-- Sixteen bytes are too long (R112). -/
theorem test_form_too_long :
    decodeWith
        (rowXX { opcode := [0x90#8, 0x90#8], modrm := .slashR, regClass := some .r16, rmClass := some .rm16, imms := [.id] } slashR32)
        .s32 .s16
        [0xF0#8, 0x26#8, 0x67#8, 0x66#8, 0x90#8, 0x90#8, 0x84#8, 0x88#8, 0#8, 0#8, 0#8, 0#8, 0#8, 0#8, 0#8, 0#8] =
      .refuse .instructionTooLong := by decide +kernel

/-- The two refusals of R116. -/
theorem test_form_refusals :
    parseFields { opcode := [0x90#8], modrm := .slashR, regClass := some .sreg, rmClass := some .rm16 } .s16 [0x90#8, 0xF0#8] =
        .refuse .sregCodeUnassigned
      ∧ parseFields { opcode := [0x90#8], modrm := .digit 0#3, rmClass := some .pair16x32 } .s16 [0x90#8, 0xC0#8] =
        .refuse .registerWhereMemoryRequired := by decide +kernel

/-! ### Effective addresses and registers (V 2.4 to 2.6) -/

theorem test_ea16 :
    ea16 regs0 (specOf .s16 [0x01#8]) = 0xEFFF#32 ∧ defaultSeg16 (specOf .s16 [0x01#8]) = .ds
      ∧ ea16 regs0 (specOf .s16 [0x06#8, 0x34#8, 0x12#8]) = 0x1234#32
      ∧ ea16 regs0 (specOf .s16 [0x46#8, 0xFE#8]) = 0x1FFE#32 ∧ defaultSeg16 (specOf .s16 [0x46#8, 0xFE#8]) = .ss
      ∧ ea16 regs0 (specOf .s16 [0x47#8, 0x80#8]) = 0xEF80#32
      ∧ ea16 regs0 (specOf .s16 [0x82#8, 0x00#8, 0x10#8]) = 0x3020#32 ∧ defaultSeg16 (specOf .s16 [0x82#8, 0#8, 0#8]) = .ss
      ∧ ea16 regs0 (specOf .s16 [0xBF#8, 0x00#8, 0x10#8]) = 0#32 := by decide +kernel

theorem test_ea32 :
    ea32 regs0 (specOf .s32 [0x42#8, 0x80#8]) = 0x7FFFFF80#32
      ∧ ea32 regs0 (specOf .s32 [0x85#8, 0x00#8, 0xE0#8, 0xFF#8, 0xFF#8]) = 0#32
      ∧ defaultSeg32 (specOf .s32 [0x85#8, 0x00#8, 0xE0#8, 0xFF#8, 0xFF#8]) = .ss
      ∧ ea32 regs0 (specOf .s32 [0x04#8, 0xE4#8]) = 0xFFF0#32 ∧ defaultSeg32 (specOf .s32 [0x04#8, 0xE4#8]) = .ss
      ∧ ea32 regs0 (specOf .s32 [0x04#8, 0x8D#8, 0x00#8, 0x01#8, 0x00#8, 0x00#8]) = 0x140#32
      ∧ defaultSeg32 (specOf .s32 [0x04#8, 0x28#8]) = .ds
      ∧ ea32 regs0 (specOf .s32 [0x04#8, 0xFB#8]) = 0x123CEFF8#32
      ∧ ea32 regs0 (specOf .s32 [0x84#8, 0x4D#8, 0x00#8, 0x01#8, 0x00#8, 0x00#8]) = 0x2120#32 := by decide +kernel

theorem test_registers :
    regs0.r8 4#3 = 0x10#8 ∧ regs0.r8 7#3 = 0xF0#8 ∧ regs0.r16 4#3 = 0xFFF0#16 ∧ (regs0.setR8 4#3 0x55#8).eax = 0x5500#32
      ∧ (regs0.setR16 0#3 0xBEEF#16).eax = 0xBEEF#32 ∧ (regs0.setR16 3#3 1#16).ebx = 0x12340001#32
      ∧ (readReg { flat [] with regs := regs0 } .w32 (specOf .s32 [0xD8#8])).toNat = 0x1234F000 := by decide +kernel

/-- Byte C4 is AH, SP or ESP by the operand class (R121, R153's example); an opcode byte XX+3 is BL, BX or EBX (R94). -/
theorem test_operands_by_class :
    [RmClass.rm8, .rm16, .rm32].map (fun c => nextOf (readRmOf { flat [] with regs := regs0 } c (specOf .s32 [0xC4#8]))) =
        [some (.byte 0x10#8), some (.word 0xFFF0#16), some (.dword 0xFFF0#32)]
      ∧ [OpReg.none, .rb, .rw, .rd].map
          (fun r => readOpRegOf { flat [] with regs := regs0 } { opcode := [0x90#8], opReg := r } { opcode := [0x93#8] }) =
        [none, some (.byte 0#8), some (.word 0xF000#16), some (.dword 0x1234F000#32)]
      ∧ nextOf (readMoffsOf (withMem (Memory.write [] 0x2000#32 4 0x11223344#32)) .moffs16 (.o32 0x2000#32)) =
        some (.word 0x3344#16) := by decide +kernel

/-- V 2.6, last row. -/
theorem test_sreg_code_6_is_refused :
    refusalOfRes (readSreg (flat []) (specOf .s32 [0xF0#8])) = some .sregCodeUnassigned := by decide +kernel

/-! ### Memory and the Operation functions (V 2.9, 2.11, 2.12) -/

theorem test_memory :
    let m := Memory.write [] 0x1000#32 4 0x11223344#32
    m.byteAt 0x1003#32 = 0x11#8 ∧ m.read 0x1000#32 2 = 0x3344#16 ∧ m.read 0x1001#32 2 = 0x2233#16
      ∧ (m.write 0x1004#32 2 8#16).read 0x1000#32 6 = 0x000811223344#48
      ∧ Memory.write [] 0xFFFFFFFF#32 2 0xBEEF#16 = [{ fst := 0, snd := 0xBE#8 }, { fst := 0xFFFFFFFF, snd := 0xEF#8 }] := by
  decide +kernel

/-- Writing what an unlisted byte reads as removes the entry (log entry 8). -/
theorem test_memory_canonical : Memory.write (Memory.write [] 5#32 2 0x1234#16) 5#32 2 0#16 = [] := by decide +kernel

theorem test_lin_wraps :
    lin { flat [] with segs := { State.reset.segs with ss := { selector := 0#16, base := 0x20#32 } } } .ss 0xFFFFFFF0#32 = 0x10#32 := by
  decide +kernel

theorem test_extend :
    (nextOf (zeroExtend .s32 0xF6#8)).map BitVec.toNat = some 0xF6
      ∧ (nextOf (signExtend .s32 0xF6#8)).map BitVec.toNat = some 0xFFFFFFF6
      ∧ (nextOf (signExtend .s16 0x80#8)).map BitVec.toNat = some 0xFF80
      ∧ (nextOf (zeroExtend .s16 0x8000#16)).map BitVec.toNat = some 0x8000
      ∧ refusalOfRes (zeroExtend .s16 0x12345678#32) = some .extendOfWiderValue ∧ truncate16 0x12345678#32 = 0x5678#16
      ∧ (imm8With .w16 0x80#8).toNat = 0xFF80 ∧ (imm8With .w8 0x80#8).toNat = 0x80 := by decide +kernel

theorem test_relative :
    relTarget .s32 0x102#32 ((relOfCode (.cb 0xFE#8)).getD 0#32) = 0x100#32
      ∧ relTarget .s16 0x3#32 ((relOfCode (.cw 0xFFF0#16)).getD 0#32) = 0xFFF3#32
      ∧ relTarget .s32 0x1005#32 ((relOfCode (.cd 0xFFFFEFFB#32)).getD 0#32) = 0#32 := by decide +kernel

/-- A stack state: sizes, ESP and memory. -/
def stack (z : AttrSize) (esp : Word32) (m : Memory) : State :=
  { flat [] with stackAddrSize := z, regs := { regs0 with esp := esp }, mem := m }

theorem test_push :
    (nextOf (push (stack .s16 0xABCD0000#32 []) .s16 0xBEEF#16)).map (fun t => (t.regs.esp, t.mem)) =
        some (0xABCDFFFE#32, Memory.write [] 0xFFFE#32 2 0xBEEF#16)
      ∧ (nextOf (push (stack .s32 0x1000#32 []) .s16 0xBEEF#16)).map (fun t => (t.regs.esp, t.mem)) =
        some (0xFFE#32, Memory.write [] 0xFFE#32 2 0xBEEF#16)
      ∧ faultOf (push { stack .s32 0x1000#32 [] with access := [{ denyAt .ss .write 0xFFC#32 with exn := { name := .ss, code := some 0 } }] }
          .s32 0x11223344#32) = some (.exception 12 (some 0)) := by decide +kernel

theorem test_pop :
    (nextOf (pop (stack .s32 0xFFC#32 (Memory.write [] 0xFFC#32 4 0x11223344#32)) .s16)).map (fun p => (p.1.toNat, p.2.regs.esp)) =
        some (0x3344, 0xFFE#32)
      ∧ (nextOf (pop (stack .s16 0x1234FFFE#32 (Memory.write [] 0xFFFE#32 2 0xBEEF#16)) .s16)).map (fun p => (p.1.toNat, p.2.regs.esp)) =
        some (0xBEEF, 0x12340000#32) := by decide +kernel

theorem test_bits :
    bitOfMem .s32 0x1000#32 13#32 = .mem 0x1001#32 5 ∧ bitOfMem .s32 0x1000#32 (-9#32) = .mem 0xFFE#32 7
      ∧ bitOfMem .s32 0x1000#32 0x7FFFFFFF#32 = .mem 0x10000FFF#32 7 ∧ bitOfMem .s32 0x1000#32 0x80000000#32 = .mem 0xF0001000#32 0
      ∧ bitOfMem .s32 0#32 (-1#32) = .mem 0xFFFFFFFF#32 7 ∧ bitOfMem .s16 0#32 (-1#32) = .mem 0xFFFF#32 7
      ∧ nextOf (readBit { flat [] with regs := { regs0 with eax := 0x200000#32 } } .ds (.reg 0#3 21)) = some true
      ∧ nextOf (readBit (withMem [{ fst := 0x2001, snd := 0x20#8 }]) .ds (bitOfMem .s32 0x2000#32 13#32)) = some true := by
  decide +kernel

/-- A TSS at 0 with the bitmap pointer 0068 and two bytes of the bitmap. -/
def tss (a : Nat) (b c : Byte) : State :=
  { flat [] with mem := ((Memory.set [] 0x66 0x68#8).set a b).set (a + 1) c }

theorem test_io_permission :
    ioPermission (tss 0xE7 4#8 0#8) 0x3F9#16 .word = false ∧ ioPermission (tss 0xE7 0xFE#8 0#8) 0x3F8#16 .byte = true
      ∧ ioPermission (tss 0xE7 0#8 1#8) 0x3FF#16 .word = false ∧ ioPermission (tss 0xE7 0x7F#8 0xFE#8) 0x3FF#16 .word = true
      ∧ ioPermission (tss 0x2067 0#8 0#8) 0xFFFF#16 .dword = true
      ∧ ioPermission { tss 0xE7 0xFE#8 0#8 with tssType := .tss286 } 0x3F8#16 .byte = false := by decide +kernel

/-- V 2.11: the table, bound and far operands at DS:1000. -/
theorem test_two_part_operands :
    (nextOf (loadGDTR (withMem (Memory.write [] 0x1000#32 6 0x0020100003FF#48)) (specOf .s32 [5#8, 0#8, 0x10#8, 0#8, 0#8]))).map
        (fun t => t.gdtr) = some { limit := 0x3FF#16, base := 0x201000#32 }
      ∧ nextOf (boundOperand (withMem (Memory.write [] 0x1000#32 4 0x00090000#32)) .s16 (specOf .s32 [5#8, 0#8, 0x10#8, 0#8, 0#8])) =
        some (0#32, 9#32)
      ∧ nextOf (readFar (withMem (Memory.write [] 0x1000#32 6 0x000812345678#48)) .s32 (specOf .s32 [5#8, 0#8, 0x10#8, 0#8, 0#8])) =
        some { selector := 8#16, offset := 0x12345678#32 } := by decide +kernel

/-- The string operands: DS:SI takes an override, ES:DI does not (R141, R220). -/
theorem test_string_operands :
    nextOf (stringSource { flat [] with defaultAddressSize := .s16, regs := regs0, pfx := { seg := some .fs } }) = some (.fs, 0x20#32)
      ∧ nextOf (stringDest { flat [] with defaultAddressSize := .s16, regs := regs0, pfx := { seg := some .fs } }) = some (.es, 0xFFFF#32)
      ∧ refusalOfRes (stringDest (flat [])) = some .stringAddressNotInSource := by decide +kernel

theorem test_switch_tasks_is_refused : refusalOfRes (switchTasks (flat [])) = some .taskSwitchNotInSource := by decide +kernel

/-- Clocks and components (70_reset_and_hazards.md R268, R271; V 1, S14, S15). -/
theorem test_timing :
    clocksOf .cmc = some (.fixed 2) ∧ components 0 { opcode := [0xF5#8] } = 1 ∧ components 1 { opcode := [0xF5#8] } = 2
      ∧ taskSwitchClocks .tss386vm1 = 314 := by decide

/-! ### Steps (V 2.10, part 3) -/

theorem test_step_cmc :
    (nextOf (step (flat [0xF5#8]))).map (fun t => (t.cf, t.pc)) = some (true, 0x101#32)
      ∧ (nextOf (step { flat [0xF5#8] with cf := true })).map (fun t => (t.cf, t.pc)) = some (false, 0x101#32) := by decide +kernel

theorem test_step_prefixed_cmc :
    (nextOf (step (flat [0x66#8, 0x67#8, 0x26#8, 0xF5#8]))).map (fun t => (t.cf, t.pc, t.pfx)) = some (true, 0x104#32, {}) := by
  decide +kernel

theorem test_step_refusals :
    refusalOfRes (step (flat [0xF3#8, 0xF5#8])) = some .repOnNonString
      ∧ refusalOfRes (step (flat [0xF0#8, 0xF5#8])) = some .lockNotDefined
      ∧ refusalOfRes (step (flat [0x66#8, 0x66#8, 0xF5#8])) = some .prefixGroupRepeated
      ∧ refusalOfRes (step (flat [0x90#8])) = some (.opcodeNotInSource 0x90#8) := by decide +kernel

theorem test_step_fetch_fault :
    faultOf (step { flat [0xF5#8] with access := [noFetchAt 0x100#32] }) = some (.exception 13 (some 0)) := by decide +kernel

/-- From reset, with the table word of CMC placed at the fetch position. -/
theorem test_step_from_reset :
    (nextOf (step (State.reset.withFetchWord 8 0xF5))).map (fun t => (t.cf, t.pc)) = some (true, 0xFFF1#32)
      ∧ refusalOfRes (step (State.reset.withFetchWord 8 0x2E)) = some (.opcodeNotInSource 0#8) := by decide +kernel

/-- Program P8: `pc` wraps; the run ends at P_EndPc. -/
theorem test_run_wraps :
    (match runSteps 2 { placeAtFetch { flat [] with pc := 0xFFFFFFFF#32 } [0xF5#8, 0xF5#8] with endPc := 1#32 } with
      | .ended t => some (t.cf, t.pc)
      | _ => none) = some (false, 1#32) := by decide +kernel

/-- Program P4: the byte 90 is refused, not stepped over. -/
theorem test_run_meets_unlisted :
    runSteps 3 { flat [0xF5#8, 0x90#8, 0xF5#8] with endPc := 0x103#32 } = .refused (.opcodeNotInSource 0x90#8) := by decide +kernel

/-! ### The rows, one by one (40_prefixes.md R131 to R143) -/

/-- The decode state after a row, from a clear one. -/
def pfxAfter (i : Instr) : Option Prefixes := (nextOf (exec i State.reset)).map State.pfx

theorem test_exec_rep : pfxAfter .rep = some { rep := some .f3 } := by decide
theorem test_exec_repe : pfxAfter .repeRepz = some { rep := some .f3 } := by decide
theorem test_exec_repne : pfxAfter .repneRepnz = some { rep := some .f2 } := by decide
theorem test_exec_lock : pfxAfter .lock = some { lock := true } := by decide
theorem test_exec_cs : pfxAfter .csOverride = some { seg := some .cs } := by decide
theorem test_exec_ss : pfxAfter .ssOverride = some { seg := some .ss } := by decide
theorem test_exec_ds : pfxAfter .dsOverride = some { seg := some .ds } := by decide
theorem test_exec_es : pfxAfter .esOverride = some { seg := some .es } := by decide
theorem test_exec_fs : pfxAfter .fsOverride = some { seg := some .fs } := by decide
theorem test_exec_gs : pfxAfter .gsOverride = some { seg := some .gs } := by decide
theorem test_exec_opsize : pfxAfter .opSize = some { opsize := true } := by decide
theorem test_exec_adsize : pfxAfter .adSize = some { adsize := true } := by decide

/-- The R137 example: with 3E, [BP]+disp8 addresses DS, not SS. -/
theorem test_override_replaces_ss :
    nextOf (memOperand { flat [] with regs := regs0, defaultAddressSize := .s16, pfx := { seg := some .ds } } (specOf .s16 [0x46#8, 0#8])) =
        some (.ds, 0x2000#32)
      ∧ nextOf (memOperand { flat [] with regs := regs0, defaultAddressSize := .s16 } (specOf .s16 [0x46#8, 0#8])) = some (.ss, 0x2000#32) := by
  decide +kernel

/-- Memory after reset is in canonical form. -/
theorem test_reset_memory_canonical : State.reset.mem.wf = true ∧ State.reset.io.ioWf = true := by decide

/-! ### States and operands that meet the hypotheses of the statements, one theorem for each statement that has any -/

theorem witness_CmcComplementsCarryAndAdvancesPc : State.reset.pfx.rep = none ∧ State.reset.pfx.lock = false := by decide

theorem witness_CmcIsRefusedAfterRepeatOrLock :
    ({ State.reset with pfx := { rep := some .f3 } } : State).pfx.rep.isSome = true
      ∧ ({ State.reset with pfx := { lock := true } } : State).pfx.rep = none
      ∧ ({ State.reset with pfx := { lock := true } } : State).pfx.lock = true := by decide

theorem witness_RepeatRowsSetRepAndNothingElse : State.reset.pfx.rep = none ∧ State.reset.pfx.lock = false := by decide

theorem witness_LockRowSetsLockAndNothingElse :
    ({ State.reset with pfx := { seg := some .gs, adsize := true } } : State).pfx.rep = none
      ∧ ({ State.reset with pfx := { seg := some .gs, adsize := true } } : State).pfx.lock = false := by decide

theorem witness_SegmentOverrideRowsSetSegAndNothingElse : State.reset.pfx.seg = none := by decide

theorem witness_OperandSizeRowSelectsTheOtherSize : State.reset.pfx.opsize = false := by decide

theorem witness_AddressSizeRowSelectsTheOtherSize : State.reset.pfx.adsize = false := by decide

theorem witness_RepeatedGroupRowsAreRefused :
    (({ State.reset with pfx := { rep := some .f2 } } : State).pfx.rep.isSome = true)
      ∧ ({ State.reset with pfx := { lock := true } } : State).pfx.lock = true
      ∧ ({ State.reset with pfx := { seg := some .es } } : State).pfx.seg.isSome = true
      ∧ ({ State.reset with pfx := { opsize := true } } : State).pfx.opsize = true
      ∧ ({ State.reset with pfx := { adsize := true } } : State).pfx.adsize = true := by decide

theorem witness_PrefixRowsChangeOnlyTheDecodeState :
    Instr.isPrefix .opSize = true ∧ exec .opSize State.reset = .next { State.reset with pfx := { opsize := true } } :=
  ⟨by decide, eq_next_of_nextOf (by decide +kernel)⟩

/-- CMC as the decoder reads it, with some prefixes. -/
def decodedCmc (l : List Instr) (p : Prefixes) (os as : AttrSize) : Decoded Instr where
  prefixes := l
  pfx := p
  operandSize := os
  addressSize := as
  op := .cmc
  fields := { opcode := [0xF5#8] }
  length := l.length + 1

/-- With no prefix, and with one. -/
theorem witness_StepRunsTheDecodedRows :
    (∃ d rest, decode .s32 .s32 (fetchFrom (flat [0xF5#8]) Config.maxInstrLen (flat [0xF5#8]).pc).1 = .ok d rest ∧ d.prefixes = [])
      ∧ ∃ d rest, decode .s32 .s32 (fetchFrom (flat [0x65#8, 0xF5#8]) Config.maxInstrLen (flat [0x65#8, 0xF5#8]).pc).1 = .ok d rest
          ∧ d.prefixes = [.gsOverride] :=
  ⟨⟨decodedCmc [] {} .s32 .s32, List.replicate 14 0#8, by decide +kernel, rfl⟩,
    ⟨decodedCmc [.gsOverride] { seg := some .gs } .s32 .s32, List.replicate 13 0#8, by decide +kernel, rfl⟩⟩

theorem witness_StepRunsTheEncodedInstruction :
    Insn.wf { prefixes := [.lock, .csOverride, .opSize, .adSize], op := .cmc } = true
      ∧ (flat [0xF0#8, 0x2E#8, 0x66#8, 0x67#8, 0xF5#8]).holdsCode
          (encode { prefixes := [.lock, .csOverride, .opSize, .adSize], op := .cmc }) := by
  unfold State.holdsCode; decide +kernel

theorem witness_StepOverCmcWithUnusedPrefixes :
    Insn.wf { prefixes := [.opSize, .adSize, .esOverride], op := .cmc } = true
      ∧ (∀ i ∈ [Instr.opSize, .adSize, .esOverride], i.group ≠ some .repeatLock)
      ∧ (flat [0x66#8, 0x67#8, 0x26#8, 0xF5#8]).holdsCode (encode { prefixes := [.opSize, .adSize, .esOverride], op := .cmc }) := by
  unfold State.holdsCode; decide +kernel

/-- A repeat prefix of either byte, and LOCK. -/
theorem witness_StepOverCmcWithRepeatOrLockIsRefused :
    (Insn.wf { prefixes := [.rep], op := .cmc } = true ∧ (flat [0xF3#8, 0xF5#8]).holdsCode (encode { prefixes := [.rep], op := .cmc }))
      ∧ (Insn.wf { prefixes := [.repneRepnz], op := .cmc } = true
          ∧ (flat [0xF2#8, 0xF5#8]).holdsCode (encode { prefixes := [.repneRepnz], op := .cmc }))
      ∧ Insn.wf { prefixes := [.opSize, .lock], op := .cmc } = true
      ∧ (flat [0x66#8, 0xF0#8, 0xF5#8]).holdsCode (encode { prefixes := [.opSize, .lock], op := .cmc }) := by
  unfold State.holdsCode; decide +kernel

theorem witness_StepOverARepeatedPrefixGroupIsRefused :
    (∀ i ∈ [Instr.csOverride, .opSize, .dsOverride], i.isPrefix = true)
      ∧ prefixRunWf [.csOverride, .opSize, .dsOverride] = false
      ∧ (flat [0x2E#8, 0x66#8, 0x3E#8, 0xF5#8]).holdsCode ([Instr.csOverride, .opSize, .dsOverride].map encodeRow) := by
  unfold State.holdsCode; decide +kernel

theorem witness_StepOverAnUnlistedOpcodeIsRefused :
    (prefixRunWf [] = true ∧ rowOf 0x0F#8 = none ∧ (flat [0x0F#8]).holdsCode ([].map encodeRow ++ [0x0F#8]))
      ∧ prefixRunWf [.dsOverride] = true ∧ rowOf 0x90#8 = none
      ∧ (flat [0x3E#8, 0x90#8]).holdsCode ([Instr.dsOverride].map encodeRow ++ [0x90#8]) := by
  unfold State.holdsCode; decide +kernel

/-- With no prefix fetched, and with the longest run. -/
theorem witness_StepRaisesTheFetchException :
    (prefixRunWf [] = true ∧ ({ flat [] with access := [noFetchAt 0x100#32] } : State).holdsCode ([].map encodeRow)
        ∧ accessCheck { flat [] with access := [noFetchAt 0x100#32] } .cs (0x100#32 + BitVec.ofNat 32 0) 1 .fetch = some gp0)
      ∧ prefixRunWf [.repneRepnz, .fsOverride, .opSize, .adSize] = true
      ∧ ({ flat [0xF2#8, 0x64#8, 0x66#8, 0x67#8, 0xF5#8] with access := [noFetchAt 0x104#32] } : State).holdsCode
          ([Instr.repneRepnz, .fsOverride, .opSize, .adSize].map encodeRow)
      ∧ accessCheck { flat [0xF2#8, 0x64#8, 0x66#8, 0x67#8, 0xF5#8] with access := [noFetchAt 0x104#32] } .cs
          (0x100#32 + BitVec.ofNat 32 4) 1 .fetch = some gp0 := by
  unfold State.holdsCode; decide +kernel

/-- The step of one CMC, for the statements about a next state. -/
theorem step_flat_cmc : step (flat [0xF5#8]) = .next { flat [0xF5#8] with cf := true, pc := 0x101#32 } :=
  eq_next_of_nextOf (by decide +kernel)

theorem witness_EveryStepChangesOnlyCarryAndPc :
    step (flat [0xF5#8]) = .next { flat [0xF5#8] with cf := true, pc := 0x101#32 } := step_flat_cmc

theorem witness_EveryFaultComesFromTheFirstFailingFetch :
    step { flat [0x26#8, 0xF5#8] with access := [noFetchAt 0x101#32] } = .fault (.exception 13 (some 0)) :=
  eq_fault_of_faultOf (by decide +kernel)

theorem witness_EveryStepKeepsTheInvariant :
    (flat [0xF5#8]).inv = true ∧ step (flat [0xF5#8]) = .next { flat [0xF5#8] with cf := true, pc := 0x101#32 } :=
  ⟨by decide +kernel, step_flat_cmc⟩

theorem witness_ARunThatEndsChangedOnlyCarryAndPc :
    runSteps 2 { flat [0xF5#8, 0xF5#8] with endPc := 0x102#32 } =
      .ended { flat [0xF5#8, 0xF5#8] with endPc := 0x102#32, cf := false, pc := 0x102#32 } := by decide +kernel

theorem witness_DecodeOfEncodeIsTheInstruction :
    Insn.wf { prefixes := [.adSize, .repeRepz, .opSize, .fsOverride], op := .cmc } = true := by decide

theorem witness_DecodedBytesAreTheEncoding :
    decode .s16 .s32 [0x66#8, 0xF5#8, 0x90#8] = .ok (decodedCmc [.opSize] { opsize := true } .s32 .s32) [0x90#8] := by
  decide +kernel

/-- Fields with every part a ModR/M form can have. -/
def fullFields : Fields where
  opcode := [0x90#8]
  addr := some (specOf .s32 [0x84#8, 0x88#8, 0x00#8, 0x01#8, 0x00#8, 0x00#8])
  imms := [.id 0x11223344#32]

/-- Fields that fit, of every kind; and rows that are passed over: of two opcode bytes, and of a digit that the reg field is not,
before the row found, of a form with a ModR/M byte and of one without. -/
theorem witness_FieldsOfEncodedFieldsAreTheFields :
    fullFields.fits digit32 .s32 = true
      ∧ Fields.fits { opcode := [0x90#8], moffs := some .moffs8 } .s16 { opcode := [0x90#8], moffs := some (.o16 0x2000#16) } = true
      ∧ Fields.fits { opcode := [0x90#8], code := some .cp } .s32 { opcode := [0x90#8], code := some (.cp 0x000812345678#48) } = true
      ∧ (2 ≤ [0x90#8, 0xFE#8].length ∧ opcodeIs .none [0x90#8, 0x01#8] ([0x90#8, 0xFE#8].take 2) = false)
      ∧ ((slash 6#3).modrm = .digit 6#3 ∧ [0x90#8, 0xFE#8][(slash 6#3).opcode.length]? = some 0xFE#8 ∧ (ModRM.ofByte 0xFE#8).reg ≠ 6#3)
      ∧ Fields.fits { opcode := [0x90#8], code := some .cb } .s32 { opcode := [0x90#8], code := some (.cb 0xFE#8) } = true
      ∧ [0x90#8, 0xFE#8] = encodeFields { opcode := [0x90#8], code := some (.cb 0xFE#8) } ++ [] := by
  decide +kernel

/-- The form of two opcode bytes, /r and a doubleword immediate, as one row for both operand sizes. -/
def longForm : FormPair where
  at16 := { slashR16 with opcode := [0x90#8, 0x90#8], imms := [.iw] }
  at32 := { slashR32 with opcode := [0x90#8, 0x90#8], imms := [.id] }

/-- Its fields at full length: twelve bytes. -/
def longFields : Fields where
  opcode := [0x90#8, 0x90#8]
  addr := some (specOf .s32 [0x84#8, 0x88#8, 0#8, 1#8, 0#8, 0#8])
  imms := [.id 0x11223344#32]

/-- A /digit form, a form with a register in its opcode byte, a digit that the reg field is not, and a decoded form; and a form
found after three prefixes (fifteen bytes) and after four (sixteen). -/
theorem witness_ParsedFieldsEncodeToTheBytes :
    parseFields digit32 .s32 [0x90#8, 0x84#8, 0x88#8, 0#8, 1#8, 0#8, 0#8, 0x44#8, 0x33#8, 0x22#8, 0x11#8] = .ok fullFields []
      ∧ digit32.modrm = .digit 0#3 ∧ digit32.opReg = .none ∧ digit32.opcode = [0x90#8] ∧ (ModRM.ofByte 0x48#8).reg ≠ 0#3
      ∧ parseFields { opcode := [0x90#8], opReg := .rw } .s16 [0x97#8] = .ok { opcode := [0x97#8] } []
      ∧ lenXX digit16 digit32 [0x26#8, 0x90#8, 0xC0#8, 0#8, 0#8, 0#8, 0#8] = some 7
      ∧ (prefixRunWf [.lock, .adSize, .opSize] = true ∧ prefixRunWf [.lock, .esOverride, .adSize, .opSize] = true)
      ∧ (AttrSize.s32 = .s16 ↔ Instr.opSize ∉ [Instr.lock, .adSize, .opSize])
      ∧ (AttrSize.s32 = .s16 ↔ Instr.adSize ∉ [Instr.lock, .adSize, .opSize])
      ∧ (encodeFields longFields ++ []).head? = some 0x90#8 ∧ prefixRow 0x90#8 = none
      ∧ findForm 0x90#8 .s32 [((), longForm)] (encodeFields longFields ++ []) =
          .ok ((), longForm.at32) (encodeFields longFields ++ [])
      ∧ longFields.fits longForm.at32 .s32 = true
      ∧ 3 + (encodeFields longFields).length ≤ 15 ∧ 15 < 4 + (encodeFields longFields).length := by decide +kernel

/-- A memory form's byte. -/
theorem witness_ModRMAndSIBByteLayout : (ModRM.ofByte 0x80#8).mod ≠ 3#2 ∧ (ModRM.ofByte 0xBF#8).mod ≠ 3#2 := by decide

theorem witness_OpcodeMapByFirstByte :
    decode .s16 .s32 [0x26#8, 0xF5#8] = .ok (decodedCmc [.esOverride] { seg := some .es } .s16 .s32) [] := by decide +kernel

/-- One ModR/M byte for each row of the table, in its order. -/
theorem witness_SibAndDisplacementPresence :
    [0x00#8, 0x06#8, 0x46#8, 0x86#8, 0xC6#8, 0x03#8, 0x05#8, 0x04#8, 0x45#8, 0x44#8, 0x85#8, 0x84#8, 0xC4#8].map
        (fun b => ((ModRM.ofByte b).mod.toNat, (ModRM.ofByte b).rm.toNat)) =
      [(0, 0), (0, 6), (1, 6), (2, 6), (3, 6), (0, 3), (0, 5), (0, 4), (1, 5), (1, 4), (2, 5), (2, 4), (3, 4)] := by decide +kernel

theorem witness_SixteenBitFormsFollowTable17_2 :
    AddrRow.find table17_2 0#2 0#3 = some { mod := 0#2, rm := 0#3, regs := [.ebx, .esi] }
      ∧ AddrRow.find table17_2 2#2 7#3 = some { mod := 2#2, rm := 7#3, regs := [.ebx], disp := .d16 } := by decide +kernel

/-- A row with BP and a row without. -/
theorem witness_SixteenBitDefaultSegmentIsSSWithBP :
    AddrRow.find table17_2 1#2 6#3 = some { mod := 1#2, rm := 6#3, regs := [.ebp], disp := .d8, seg := .ss }
      ∧ AddrRow.find table17_2 0#2 6#3 = some { mod := 0#2, rm := 6#3, regs := [], disp := .d16 } := by decide +kernel

/-- A row with a SIB byte and rows without. -/
theorem witness_ThirtyTwoBitFormsFollowTable17_3 :
    AddrRow.find table17_3 0#2 4#3 = some { mod := 0#2, rm := 4#3, regs := [], sib := true }
      ∧ AddrRow.find table17_3 0#2 5#3 = some { mod := 0#2, rm := 5#3, regs := [], disp := .d32 }
      ∧ (spec 0#2 0#3 5#3 (.d32 0x12345678#32)).fits .s32 = true
      ∧ AddrRow.find table17_3 2#2 5#3 = some { mod := 2#2, rm := 5#3, regs := [.ebp], disp := .d32, seg := .ss }
      ∧ (spec 2#2 7#3 5#3 (.d32 0#32)).fits .s32 = true := by decide +kernel

theorem witness_ScaledIndexFormsFollowTable17_4 :
    (specOf .s32 [0x44#8, 0x88#8, 0x08#8]).sib = some { ss := 2#2, index := 1#3, base := 0#3 }
      ∧ ScaleRow.find 2#2 1#3 = some { ss := 2#2, index := 1#3, scaled := some (.ecx, 4) }
      ∧ (specOf .s32 [0x04#8, 0xE4#8]).sib = some { ss := 3#2, index := 4#3, base := 4#3 }
      ∧ ScaleRow.find 3#2 4#3 = some { ss := 3#2, index := 4#3, scaled := none } := by decide +kernel

theorem witness_ScaledIndexIsRegisterTimesScale : (SIB.ofByte 0xE4#8).index = 4#3 ∧ (SIB.ofByte 0x88#8).index ≠ 4#3 := by decide

/-- Each kind of operand, with an override and without, under both address sizes. -/
theorem witness_MemoryOperandUsesTheOverride :
    (flat []).addressSize = .s32 ∧ ({ flat [] with pfx := { adsize := true, seg := some .gs } } : State).addressSize = .s16
      ∧ ({ flat [] with pfx := { adsize := true } } : State).addressSize = .s16 ∧
    (specOf .s32 [0xC0#8]).modrm.mod = 3#2 ∧ (specOf .s32 [0x80#8, 0#8, 0#8, 0#8, 0#8]).modrm.mod ≠ 3#2
      ∧ ({ flat [] with pfx := { seg := some .gs } } : State).pfx.seg = some .gs ∧ (flat []).pfx.seg = none := by decide +kernel

/-- A /r form of 90 with an r/m class. -/
def rmForm (c : RmClass) (z : FormSize := .byOperandSize) : Form :=
  { opcode := [0x90#8], modrm := .digit 0#3, rmClass := some c, size := z }

/-- Pairs of forms whose classes are each of those that O39 speaks of, the form for OperandSize 16 first; and moffs operands with an
override and without, of both offset sizes. -/
theorem witness_RegisterCodesNameTheRegisters_classes :
    (FormPair.wf { at16 := rmForm .rm8 .byte, at32 := rmForm .rm8 .byte } = true
        ∧ FormPair.wf { at16 := { slashR16 with regClass := some .r8, rmClass := some .rm8, size := .byte },
                        at32 := { slashR16 with regClass := some .r8, rmClass := some .rm8, size := .byte } } = true
        ∧ FormPair.wf { at16 := { opcode := [0x90#8], moffs := some .moffs8, size := .byte },
                        at32 := { opcode := [0x90#8], moffs := some .moffs8, size := .byte } } = true)
      ∧ FormPair.wf { at16 := { opcode := [0x90#8], opReg := .rw, imms := [.iw] },
                      at32 := { opcode := [0x90#8], opReg := .rd, imms := [.id] } } = true
      ∧ FormPair.wf { at16 := rmForm .far16, at32 := rmForm .far32 } = true
      ∧ FormPair.wf { at16 := rmForm .pair16x16, at32 := rmForm .pair32x32 } = true
      ∧ FormPair.wf { at16 := { opcode := [0x90#8], code := some .cw }, at32 := { opcode := [0x90#8], code := some .cd } } = true
      ∧ FormPair.wf { at16 := { opcode := [0x90#8], code := some .cd }, at32 := { opcode := [0x90#8], code := some .cp } } = true
      ∧ ({ flat [] with pfx := { seg := some .gs } } : State).pfx.seg = some .gs ∧ (flat []).pfx.seg = none
      ∧ (∀ u, MoffsField.o16 0xFFFF#16 = .o16 u → (0xFFFF#32).toNat = u.toNat)
      ∧ ∀ u, MoffsField.o32 0xFFFFFFFF#32 = .o32 u → 0xFFFFFFFF#32 = u :=
  ⟨by decide, by decide, by decide, by decide, by decide, by decide, by decide, by decide, fun _ h => by cases h; decide,
    fun _ h => by cases h; rfl⟩

theorem witness_RegisterCodesNameTheRegisters :
    [0xC0#8, 0xC8#8, 0xD0#8, 0xD8#8, 0xE0#8, 0xE8#8, 0xF0#8, 0xF8#8].map (fun b => (specOf .s32 [b]).modrm.reg) =
        [0#3, 1#3, 2#3, 3#3, 4#3, 5#3, 6#3, 7#3]
      ∧ [0x90#8].getLast? = some 0x90#8 ∧ [0x97#8].getLast? = some (0x90#8 + (7#3 : BitVec 3).setWidth 8)
      ∧ (specOf .s32 [0xC0#8]).modrm.mod = 3#2 ∧ (SIB.ofByte 0x28#8).base ≠ 5#3 ∧ (1#2 : BitVec 2) ≠ 0#2
      ∧ (SIB.ofByte 0x28#8).index ≠ 4#3 ∧ (SIB.ofByte 0x28#8).ss = 0#2
      ∧ FormPair.wf { at16 := slashR16, at32 := slashR32 } = true ∧ slashR32.regClass = some .r32
      ∧ RegClass.width .r32 = some .w32 ∧ slashR16.rmClass = some .rm16 ∧ RmClass.width .rm16 = some .w16
      ∧ FormPair.wf { at16 := { opcode := [0x90#8], opReg := .rb, size := .byte }, at32 := { opcode := [0x90#8], opReg := .rb, size := .byte } } = true
      ∧ OpReg.width .rb = some .w8
      ∧ FormPair.wf { at16 := { opcode := [0x90#8], moffs := some .moffs16 }, at32 := { opcode := [0x90#8], moffs := some .moffs32 } } = true
      ∧ MoffsClass.width .moffs32 = .w32
      ∧ nextOf (readSreg (flat []) (specOf .s32 [0xE8#8])) = some 0#16 := by
  decide +kernel

theorem witness_NarrowWritesLeaveTheOtherBits :
    (0#3 : BitVec 3).toNat < 4 ∧ (3#3 : BitVec 3).toNat < 4 ∧ (3#3 : BitVec 3) ≠ 7#3 ∧ 4 ≤ (4#3 : BitVec 3).toNat ∧ 4 ≤ (7#3 : BitVec 3).toNat := by
  decide

theorem witness_MemReadAssemblesItsBytes : 0 < 1 ∧ 7 < 8 := by decide

/-- At the top of memory, eight bytes, and an address outside them. -/
theorem witness_MemWriteStoresItsBytesAndNoOther :
    Memory.wf [{ fst := 0, snd := 1#8 }, { fst := 0xFFFFFFFF, snd := 2#8 }] = true ∧ 8 ≤ 8 ∧ 7 < 8
      ∧ ∀ k, k < 8 → (7#32 : Word32) ≠ 0xFFFFFFFF#32 + BitVec.ofNat 32 k := by decide +kernel

theorem witness_MemReadAfterMemWriteGivesTheValue :
    Memory.wf [{ fst := 0, snd := 1#8 }, { fst := 0xFFFFFFFF, snd := 2#8 }] = true ∧ 8 ≤ 8 := by decide +kernel

/-- A denied read, an admitted one, a denied write, an admitted write into code and one clear of it. -/
theorem witness_SegmentAccessChecksThenAccesses :
    accessCheck { flat [] with access := [denyAt .ds .read 0x10#32] } .ds 0x10#32 4 .read = some gp0
      ∧ accessCheck { flat [] with access := [denyAt .ds .read 0x10#32] } .ds 0x11#32 4 .read = none
      ∧ accessCheck { flat [] with access := [denyAt .ds .write 0x10#32] } .ds 0x10#32 4 .write = some gp0
      ∧ accessCheck (flat []) .ds 0xFD#32 4 .write = none
      ∧ (3 < 4 ∧ inCode { flat [] with codeRegion := [{ lo := 0x100#32, hi := 0x100#32 }] } (0#32 + 0xFD#32 + BitVec.ofNat 32 3) = true)
      ∧ ∀ k, k < 4 → inCode { flat [] with codeRegion := [{ lo := 0x100#32, hi := 0x100#32 }] } (0#32 + 0xFC#32 + BitVec.ofNat 32 k) = false := by
  decide +kernel

/-- A register operand, and a memory operand under each condition, with an override and without. -/
theorem witness_ReadRMAfterWriteRMGivesTheValue :
    (specOf .s32 [0xC7#8]).modrm.mod = 3#2 ∧ (6#3 : BitVec 3) ≠ (specOf .s32 [0xC7#8]).modrm.rm ∧ (specOf .s32 [0x00#8]).modrm.mod ≠ 3#2 ∧ (flat []).mem.wf = true
      ∧ accessCheck (flat []) (segOrOverride (flat []) (defaultSeg (flat []) (specOf .s32 [0x00#8]))) (ea (flat []) (specOf .s32 [0x00#8]))
          (OpWidth.bytes .w32) .write = none
      ∧ accessCheck (flat []) (segOrOverride (flat []) (defaultSeg (flat []) (specOf .s32 [0x00#8]))) (ea (flat []) (specOf .s32 [0x00#8]))
          (OpWidth.bytes .w32) .read = none
      ∧ touchesCode (flat []) (lin (flat []) (segOrOverride (flat []) (defaultSeg (flat []) (specOf .s32 [0x00#8])))
          (ea (flat []) (specOf .s32 [0x00#8]))) (OpWidth.bytes .w32) = false
      ∧ (flat []).pfx.seg = none ∧ ({ flat [] with pfx := { seg := some .es } } : State).pfx.seg = some .es := by decide +kernel

/-- An operand whose write alone is denied is read and raises when written; an operand whose read is denied in the overriding
segment raises when read (R171, R233). -/
theorem test_rm_memory_is_checked :
    (nextOf (readRM { withMem (Memory.write [] 0x1000#32 2 0xBEEF#16) with access := [denyAt .ds .write 0x1000#32] } .w16
        (specOf .s32 [0x05#8, 0#8, 0x10#8, 0#8, 0#8]))).map BitVec.toNat = some 0xBEEF
      ∧ faultOf (writeRM { flat [] with access := [denyAt .ds .write 0x1000#32] } .w16
          (specOf .s32 [0x05#8, 0#8, 0x10#8, 0#8, 0#8]) 0xBEEF#16) = some (.exception 13 (some 0))
      ∧ faultOf (readRM { flat [] with access := [denyAt .es .read 0x1000#32], pfx := { seg := some .es } } .w16
          (specOf .s32 [0x05#8, 0#8, 0x10#8, 0#8, 0#8])) = some (.exception 13 (some 0)) := by decide +kernel

/-- A register, an operand whose read is admitted, one whose read is turned down, and a code offset that is no far pointer. -/
theorem witness_TwoPartOperandsLayout :
    (specOf .s32 [0xC0#8]).modrm.mod = 3#2 ∧ (∀ v, CodeField.cw 0x1234#16 ≠ .cd v) ∧ (∀ v, CodeField.cd 0#32 ≠ .cp v)
      ∧ memOperand { flat [] with access := [denyAt .ds .read 0x1000#32] } (specOf .s32 [0x05#8, 0#8, 0x10#8, 0#8, 0#8]) =
          .next (.ds, 0x1000#32)
      ∧ [4, 6, 8].map (fun n => accessCheck { flat [] with access := [denyAt .ds .read 0x1000#32] } .ds 0x1000#32 n .read) =
          [some gp0, some gp0, some gp0]
      ∧ memOperand (flat []) (specOf .s32 [0x05#8, 0#8, 0x10#8, 0#8, 0#8]) = .next (.ds, 0x1000#32)
      ∧ accessCheck (flat []) .ds 0x1000#32 4 .read = none ∧ accessCheck (flat []) .ds 0x1000#32 6 .read = none
      ∧ accessCheck (flat []) .ds 0x1000#32 8 .read = none :=
  ⟨by decide +kernel, fun _ => nofun, fun _ => nofun, eq_next_of_nextOf (by decide +kernel), by decide +kernel,
    eq_next_of_nextOf (by decide +kernel), by decide +kernel⟩

theorem witness_DescriptorTableLoadsSetLimitAndBase :
    (specOf .s32 [0xC0#8]).modrm.mod = 3#2
      ∧ memOperand (flat []) (specOf .s32 [0x05#8, 0#8, 0x10#8, 0#8, 0#8]) = .next (.ds, 0x1000#32)
      ∧ accessCheck (flat []) .ds 0x1000#32 2 .read = none ∧ accessCheck (flat []) .ds (0x1000#32 + 2#32) 4 .read = none
      ∧ memOperand { flat [] with access := [denyAt .ds .read 0x1000#32] } (specOf .s32 [0x05#8, 0#8, 0x10#8, 0#8, 0#8]) =
          .next (.ds, 0x1000#32)
      ∧ accessCheck { flat [] with access := [denyAt .ds .read 0x1000#32] } .ds 0x1000#32 2 .read = some gp0
      ∧ memOperand { flat [] with access := [denyAt .ds .read 0x1002#32] } (specOf .s32 [0x05#8, 0#8, 0x10#8, 0#8, 0#8]) =
          .next (.ds, 0x1000#32)
      ∧ accessCheck { flat [] with access := [denyAt .ds .read 0x1002#32] } .ds 0x1000#32 2 .read = none
      ∧ accessCheck { flat [] with access := [denyAt .ds .read 0x1002#32] } .ds (0x1000#32 + 2#32) 4 .read = some gp0 :=
  ⟨by decide +kernel, eq_next_of_nextOf (by decide +kernel), by decide +kernel, by decide +kernel, eq_next_of_nextOf (by decide +kernel), by decide +kernel,
    eq_next_of_nextOf (by decide +kernel), by decide +kernel, by decide +kernel⟩

theorem witness_TruncateKeepsTheLow16Bits : 16 ≤ 16 ∧ 8 ≤ 16 := by decide

/-- The widths on both sides of the operand size, for the extensions. -/
theorem witness_ZeroExtendKeepsTheValue :
    16 ≤ AttrSize.bits .s16 ∧ AttrSize.bits .s16 < 17 ∧ 32 ≤ AttrSize.bits .s32 ∧ AttrSize.bits .s32 < 33 := by decide

theorem witness_SignExtendKeepsTheSignedValue :
    16 ≤ AttrSize.bits .s16 ∧ AttrSize.bits .s16 < 17 ∧ 32 ≤ AttrSize.bits .s32 ∧ AttrSize.bits .s32 < 33 := by decide

/-- SP = 0 wraps to FFFE: denied, into code, and admitted; and ESP under a 32-bit stack. -/
theorem witness_PushStoresAtTheNewTop :
    (0xFFFE#32 : Word32) = ((stack .s16 0xABCD0000#32 []).regs.r16 4#3 - BitVec.ofNat 16 (AttrSize.bytes .s16)).setWidth 32
      ∧ accessCheck { stack .s16 0xABCD0000#32 [] with access := [denyAt .ss .write 0xFFFE#32] } .ss 0xFFFE#32 (AttrSize.bytes .s16) .write = some gp0
      ∧ accessCheck { stack .s16 0xABCD0000#32 [] with codeRegion := [{ lo := 0xFFFF#32, hi := 0xFFFF#32 }] } .ss 0xFFFE#32
          (AttrSize.bytes .s16) .write = none
      ∧ touchesCode { stack .s16 0xABCD0000#32 [] with codeRegion := [{ lo := 0xFFFF#32, hi := 0xFFFF#32 }] }
          (lin (stack .s16 0xABCD0000#32 []) .ss 0xFFFE#32) (AttrSize.bytes .s16) = true
      ∧ accessCheck (stack .s16 0xABCD0000#32 []) .ss 0xFFFE#32 (AttrSize.bytes .s16) .write = none
      ∧ touchesCode (stack .s16 0xABCD0000#32 []) (lin (stack .s16 0xABCD0000#32 []) .ss 0xFFFE#32) (AttrSize.bytes .s16) = false
      ∧ (stack .s16 0xABCD0000#32 []).mem.wf = true ∧ (stack .s16 0xABCD0000#32 []).stackAddrSize = .s16
      ∧ (0xFFFFFFFE#32 : Word32) = (stack .s32 2#32 []).regs.esp - BitVec.ofNat 32 (AttrSize.bytes .s32)
      ∧ (stack .s32 2#32 []).stackAddrSize = .s32 := by decide +kernel

theorem witness_PopReturnsTheTop :
    accessCheck { stack .s32 0xFFC#32 [] with access := [denyAt .ss .read 0xFFC#32] } .ss (stackTop (stack .s32 0xFFC#32 []))
        (AttrSize.bytes .s32) .read = some gp0
      ∧ accessCheck (stack .s32 0xFFC#32 []) .ss (stackTop (stack .s32 0xFFC#32 [])) (AttrSize.bytes .s32) .read = none
      ∧ (stack .s16 0xFFC#32 []).stackAddrSize = .s16 ∧ (stack .s32 0xFFC#32 []).stackAddrSize = .s32 := by decide +kernel

theorem witness_PopAfterPushRestoresTheStack :
    (stack .s16 0xABCD0000#32 []).mem.wf = true
      ∧ ∃ t, push (stack .s16 0xABCD0000#32 []) .s16 0xBEEF#16 = .next t
          ∧ accessCheck t .ss (stackTop t) (AttrSize.bytes .s16) .read = none :=
  ⟨by decide, { stack .s16 0xABCDFFFE#32 [] with mem := Memory.write [] 0xFFFE#32 2 0xBEEF#16 },
    eq_next_of_nextOf (by decide +kernel), by decide +kernel⟩

/-- A byte whose read is admitted and one whose read is turned down. -/
theorem witness_BitOfMemoryRoundsDown :
    accessCheck (flat []) .ds 0x1001#32 1 .read = none
      ∧ accessCheck { flat [] with access := [denyAt .ds .read 0x1001#32] } .ds 0x1001#32 1 .read = some gp0 := by decide +kernel

/-- Both sides of both ranges. -/
theorem witness_BitOfRegisterIsInRange :
    31 < AttrSize.bits .s32 ∧ AttrSize.bits .s32 ≤ 32 ∧ 15 < AttrSize.bits .s16 ∧ AttrSize.bits .s16 ≤ 16 := by decide

end Sys2Proof.Tests
end

/-!
The bytes of memory accesses (20_memory.md R57, R58) and of an instruction's multi-byte fields (R59). Every field is a
`takeLE`, so R59 comes down to one rule: a byte in front of a field joins it as the lowest part.
-/

namespace Sys2Proof

open Sys2Proof.Machine

/-! ### MemRead and MemWrite, byte by byte -/

theorem Machine.Memory.read_one (m : Memory) (a : Word32) : m.read a 1 = m.byteAt a := by
  simp [Memory.read, Memory.bytesAt, leNat]

theorem Machine.Memory.byteAt_write_same (m : Memory) (a : Word32) (n : Nat) (v : BitVec (8 * n)) (k : Nat)
    (h : m.wf = true) (hn : n ≤ 2 ^ 32) (hk : k < n) :
    (m.write a n v).byteAt (a + BitVec.ofNat 32 k) = v.extractLsb' (8 * k) 8 := by
  have hlen : k < (leBytes n v.toNat).length := by rwa [leBytes_length]
  calc (m.write a n v).byteAt (a + BitVec.ofNat 32 k)
      = (leBytes n v.toNat)[k] := Memory.byteAt_put_same _ m a k h (by rwa [leBytes_length]) hlen
    _ = BitVec.ofNat 8 (v.toNat / 2 ^ (8 * k)) := leBytes_getElem n v.toNat k hlen
    _ = v.extractLsb' (8 * k) 8 := by rw [BitVec.extractLsb', Nat.shiftRight_eq_div_pow]

theorem Machine.Memory.byteAt_write_other (m : Memory) (a b : Word32) (n : Nat) (v : BitVec (8 * n))
    (h : ∀ k, k < n → b ≠ a + BitVec.ofNat 32 k) : (m.write a n v).byteAt b = m.byteAt b :=
  Memory.byteAt_put_other _ m a b (by rwa [leBytes_length])

/-- Settles O41: byte `k` is the one-byte part of the read at offset `k`. -/
theorem memReadAssemblesItsBytes : Obligations.MemReadAssemblesItsBytes := by
  intro m a n k hk
  exact (Memory.read_part m a n k 1 hk).trans (Memory.read_one m _)

/-- Settles O42. Canonical form is what makes a written byte read back; `n ≤ 8` keeps the written addresses apart. -/
theorem memWriteStoresItsBytesAndNoOther : Obligations.MemWriteStoresItsBytesAndNoOther := by
  intro m a n v hwf hn
  exact ⟨fun k hk => Memory.byteAt_write_same m a n v k hwf (by omega) hk,
    fun b hb => Memory.byteAt_write_other m a b n v hb⟩

/-! ### Multi-byte fields of an instruction -/

/-- A byte appended below a value is the value's first byte in memory. -/
theorem leBytes_append_byte {n : Nat} (v : BitVec (8 * n)) (b : Byte) :
    leBytes (n + 1) (v ++ b).toNat = b :: leBytes n v.toNat := by
  have hb := b.isLt
  have e : (v ++ b).toNat = v.toNat * 256 + b.toNat := by
    rw [BitVec.toNat_append, ← Nat.shiftLeft_add_eq_or_of_lt hb, Nat.shiftLeft_eq]
  have hdiv : (v.toNat * 256 + b.toNat) / 256 = v.toNat := by omega
  have hlow : BitVec.ofNat 8 (v.toNat * 256 + b.toNat) = b := by
    apply BitVec.eq_of_toNat_eq
    rw [BitVec.toNat_ofNat]
    omega
  rw [e, leBytes, hdiv, hlow]

/-- A byte in front of a field joins it as the lowest part. -/
theorem takeLE_cons {n : Nat} {bs rest : List Byte} {v : BitVec (8 * n)} (b : Byte) (h : takeLE n bs = .ok v rest) :
    takeLE (n + 1) (b :: bs) = .ok (v ++ b) rest := by
  have hread := takeLE_leBytes (n + 1) (v ++ b) rest
  rwa [leBytes_append_byte, List.cons_append, ← takeLE_eq_ok h] at hread

section
variable (a b c d e f : Byte) (rest : List Byte)

theorem takeLE_one : takeLE 1 (a :: rest) = .ok a rest := by
  have h := takeLE_leBytes 1 a rest
  rwa [leBytes_one] at h

theorem takeLE_two : takeLE 2 (a :: b :: rest) = .ok (b ++ a) rest := takeLE_cons a (takeLE_one b rest)

theorem takeLE_four : takeLE 4 (a :: b :: c :: d :: rest) = .ok (d ++ c ++ b ++ a) rest :=
  takeLE_cons a (takeLE_cons b (takeLE_two c d rest))

theorem takeLE_six : takeLE 6 (a :: b :: c :: d :: e :: f :: rest) = .ok (f ++ e ++ d ++ c ++ b ++ a) rest :=
  takeLE_cons a (takeLE_cons b (takeLE_four c d e f rest))

end

/-- Settles O31: each field is the `takeLE` of its width. -/
theorem instructionFieldsAreLittleEndian : Obligations.InstructionFieldsAreLittleEndian := by
  intro a b c d e f rest
  have h1 := takeLE_one a rest
  have h2 := takeLE_two a b rest
  have h4 := takeLE_four a b c d rest
  have h6 := takeLE_six a b c d e f rest
  refine ⟨takeBytes_append [a, b] rest, ?disp8, ?disp16, ?disp32, fun _ => ?moffs16, fun _ => ?moffs32,
    ?cb, ?cw, ?cd, ?cp, ?ib, ?iw, ?id⟩
  case disp8 => rw [parseDisp, h1, Parse.andThen_ok]
  case disp16 => rw [parseDisp, h2, Parse.andThen_ok]
  case disp32 => rw [parseDisp, h4, Parse.andThen_ok]
  case moffs16 => rw [parseMoffs, h2, Parse.andThen_ok]
  case moffs32 => rw [parseMoffs, h4, Parse.andThen_ok]
  case cb => rw [parseCode, h1, Parse.andThen_ok]
  case cw => rw [parseCode, h2, Parse.andThen_ok]
  case cd => rw [parseCode, h4, Parse.andThen_ok]
  case cp => rw [parseCode, h6, Parse.andThen_ok]
  case ib => rw [parseImm, h1, Parse.andThen_ok]
  case iw => rw [parseImm, h2, Parse.andThen_ok]
  case id => rw [parseImm, h4, Parse.andThen_ok]

end Sys2Proof

/-!
Which fields follow a ModR/M byte (30_encoding.md R89): one equation of `sibFollows` and of `dispSize` per value of mod, from
which the fourteen rows of the table are read off.
-/

namespace Sys2Proof

open Sys2Proof.Machine

section
variable {m : ModRM} (as : AttrSize) (o : Option (BitVec 3))

/-! ### The SIB byte -/

theorem sibFollows_s16 (m : ModRM) : sibFollows .s16 m = false := rfl

theorem sibFollows_s32_iff : sibFollows .s32 m = true ↔ m.mod ≠ 3#2 ∧ m.rm = 4#3 := by
  simp [sibFollows]

theorem sibFollows_s32_false_of_rm_ne (h : m.rm ≠ 4#3) : sibFollows .s32 m = false :=
  Bool.eq_false_iff.mpr fun hs => h (sibFollows_s32_iff.mp hs).2

theorem sibFollows_s32_false_of_register (h : m.mod = 3#2) : sibFollows .s32 m = false :=
  Bool.eq_false_iff.mpr fun hs => (sibFollows_s32_iff.mp hs).1 h

theorem sibFollows_s32_of_memory {k : BitVec 2} (hmod : m.mod = k) (hrm : m.rm = 4#3) (hk : k ≠ 3#2 := by decide) :
    sibFollows .s32 m = true :=
  sibFollows_s32_iff.mpr ⟨hmod ▸ hk, hrm⟩

/-! ### The displacement -/

theorem dispSize_s16_mod0 (h : m.mod = 0#2) : dispSize .s16 m o = if m.rm = 6#3 then .d16 else .none := by
  simp [dispSize, h]

theorem dispSize_s32_mod0 (h : m.mod = 0#2) :
    dispSize .s32 m o = if m.rm = 5#3 ∨ m.rm = 4#3 ∧ o = some 5#3 then .d32 else .none := by
  simp [dispSize, h, ite_or]

theorem dispSize_mod1 (h : m.mod = 1#2) : dispSize as m o = .d8 := by
  cases as <;> simp [dispSize, h]

theorem dispSize_s16_mod2 (h : m.mod = 2#2) : dispSize .s16 m o = .d16 := by
  simp [dispSize, h]

theorem dispSize_s32_mod2 (h : m.mod = 2#2) : dispSize .s32 m o = .d32 := by
  simp [dispSize, h]

theorem dispSize_mod3 (h : m.mod = 3#2) : dispSize as m o = .none := by
  cases as <;> simp [dispSize, h]

/-! Only under mod = 00 does the displacement depend on rm, and only beside a SIB byte on its base. -/

theorem dispSize_s32_mod0_rm5 (hmod : m.mod = 0#2) (hrm : m.rm = 5#3) : dispSize .s32 m o = .d32 := by
  rw [dispSize_s32_mod0 o hmod, if_pos (.inl hrm)]

theorem dispSize_s32_mod0_noSib (hmod : m.mod = 0#2) (h4 : m.rm ≠ 4#3) (h5 : m.rm ≠ 5#3) : dispSize .s32 m o = .none := by
  rw [dispSize_s32_mod0 o hmod, if_neg (by simp [h4, h5])]

theorem dispSize_s32_mod0_sib (hmod : m.mod = 0#2) (hrm : m.rm = 4#3) (b : BitVec 3) :
    dispSize .s32 m (some b) = if b = 5#3 then .d32 else .none := by
  simp [dispSize_s32_mod0 _ hmod, hrm]

end

/-- Settles O30, row by row in the order of R89's table. -/
theorem sibAndDisplacementPresence : Obligations.SibAndDisplacementPresence := by
  intro m o
  refine ⟨sibFollows_s16 m, ?mod0_16, ?mod0_16_rm6, dispSize_mod1 .s16 o, dispSize_s16_mod2 o, dispSize_mod3 .s16 o,
    ?mod0, ?mod0_rm5, ?mod0_sib, ?mod1, ?mod1_sib, ?mod2, ?mod2_sib, ?mod3⟩
  case mod0_16 => exact fun hmod hrm => (dispSize_s16_mod0 o hmod).trans (if_neg hrm)
  case mod0_16_rm6 => exact fun hmod hrm => (dispSize_s16_mod0 o hmod).trans (if_pos hrm)
  case mod0 => exact fun hmod h4 h5 => ⟨sibFollows_s32_false_of_rm_ne h4, dispSize_s32_mod0_noSib o hmod h4 h5⟩
  case mod0_rm5 =>
    intro hmod hrm
    exact ⟨sibFollows_s32_false_of_rm_ne (by simp [hrm]), dispSize_s32_mod0_rm5 o hmod hrm⟩
  case mod0_sib =>
    intro hmod hrm
    have hdisp := dispSize_s32_mod0_sib hmod hrm
    exact ⟨sibFollows_s32_of_memory hmod hrm, fun b hb => (hdisp b).trans (if_neg hb), hdisp 5#3⟩
  case mod1 => exact fun hmod hrm => ⟨sibFollows_s32_false_of_rm_ne hrm, dispSize_mod1 .s32 o hmod⟩
  case mod1_sib => exact fun hmod hrm => ⟨sibFollows_s32_of_memory hmod hrm, dispSize_mod1 .s32 o hmod⟩
  case mod2 => exact fun hmod hrm => ⟨sibFollows_s32_false_of_rm_ne hrm, dispSize_s32_mod2 o hmod⟩
  case mod2_sib => exact fun hmod hrm => ⟨sibFollows_s32_of_memory hmod hrm, dispSize_s32_mod2 o hmod⟩
  case mod3 => exact fun hmod => ⟨sibFollows_s32_false_of_register hmod, dispSize_mod3 .s32 o hmod⟩

end Sys2Proof

/-!
The addressing forms against the printed tables (41_addressing.md R158, R163, R168, R170). What a table says of all its rows is
decided once over the rows; a form meets the table through the lookup of its row.
-/

namespace Sys2Proof

open Sys2Proof.Machine

/-! ### The rows of Table 17-2 and the default segment of a 16-bit form -/

theorem Machine.AddrRow.find_eq_some {t : List AddrRow} {mod : BitVec 2} {rm : BitVec 3} {r : AddrRow}
    (h : AddrRow.find t mod rm = some r) : r ∈ t ∧ r.mod = mod ∧ r.rm = rm := by
  have hkey := List.find?_some h
  rw [Bool.and_eq_true, beq_iff_eq, beq_iff_eq] at hkey
  exact ⟨List.mem_of_find?_eq_some h, hkey⟩

/-- The rows with BP are the ones the model's default segment names by mod and r/m. -/
theorem ebp_mem_regs_of_table17_2 :
    ∀ r ∈ table17_2, Reg.ebp ∈ r.regs ↔ r.rm = 2#3 ∨ r.rm = 3#3 ∨ (r.rm = 6#3 ∧ r.mod ≠ 0#2) := by decide

theorem seg_of_table17_2 : ∀ r ∈ table17_2, r.seg = if Reg.ebp ∈ r.regs then .ss else .ds := by decide

theorem defaultSeg16_of_row {a : AddrSpec} {r : AddrRow} (h : AddrRow.find table17_2 a.modrm.mod a.modrm.rm = some r) :
    defaultSeg16 a = if Reg.ebp ∈ r.regs then .ss else .ds := by
  obtain ⟨hrow, hmod, hrm⟩ := AddrRow.find_eq_some h
  rw [defaultSeg16, ← hmod, ← hrm]
  exact if_congr (ebp_mem_regs_of_table17_2 r hrow).symm rfl rfl

/-- Settles O34: the form and its row of Table 17-2 both take SS exactly when the row has BP. -/
theorem sixteenBitDefaultSegmentIsSSWithBP : Obligations.SixteenBitDefaultSegmentIsSSWithBP := by
  intro a r h
  have hform := defaultSeg16_of_row h
  have hrow := seg_of_table17_2 r (AddrRow.find_eq_some h).1
  exact ⟨fun hbp => hform.trans (if_pos hbp), fun hbp => hform.trans (if_neg hbp), hform.trans hrow.symm⟩

/-! ### The scaled index of a SIB byte and its row of Table 17-4 -/

theorem scaledIndex_none (g : Regs) {x : SIB} (h : x.index = 4#3) : scaledIndex g x = 0#32 := if_pos h

theorem scaledIndex_register (g : Regs) {x : SIB} (h : x.index ≠ 4#3) :
    scaledIndex g x = g.r32 x.index * BitVec.ofNat 32 (2 ^ x.ss.toNat) := if_neg h

/-- The lookup in Table 17-4 in closed form: every ss and index has its row, and the row holds the index register and 2^ss. -/
theorem Machine.ScaleRow.find_eq : ∀ (ss : BitVec 2) (index : BitVec 3),
    ScaleRow.find ss index =
      some { ss := ss, index := index, scaled := if index = 4#3 then none else some (regOfCode index, 2 ^ ss.toNat) } := by
  decide

/-- Settles O37: the two branches of the scaled index, and the row that the lookup finds. -/
theorem scaledIndexIsRegisterTimesScale : Obligations.ScaledIndexIsRegisterTimesScale := by
  intro g x
  exact ⟨scaledIndex_none g, scaledIndex_register g, _, ScaleRow.find_eq x.ss x.index, rfl⟩

end Sys2Proof

/-!
The functions of the "Operation" sections on values (42_operation_primitives.md R190, R192, R193, R200): what each does to a
value as a number.
-/

namespace Sys2Proof

open Sys2Proof.Machine

/-! ### Truncation and extension -/

section
variable {n : Nat} (v : BitVec n)

theorem truncate16_toNat : (truncate16 v).toNat = v.toNat % 2 ^ 16 := BitVec.toNat_setWidth 16 v

theorem truncate16_toNat_of_le (h : n ≤ 16) : (truncate16 v).toNat = v.toNat := BitVec.toNat_setWidth_of_le h

theorem zeroExtend_of_le {os : AttrSize} (h : n ≤ os.bits) : zeroExtend os v = .next (v.setWidth os.bits) := if_pos h

theorem zeroExtend_of_lt {os : AttrSize} (h : os.bits < n) : zeroExtend os v = .refused .extendOfWiderValue :=
  if_neg (Nat.not_le.mpr h)

theorem signExtend_of_le {os : AttrSize} (h : n ≤ os.bits) : signExtend os v = .next (v.signExtend os.bits) := if_pos h

theorem signExtend_of_lt {os : AttrSize} (h : os.bits < n) : signExtend os v = .refused .extendOfWiderValue :=
  if_neg (Nat.not_le.mpr h)

end

theorem OpWidth.eight_le_bits (w : OpWidth) : 8 ≤ w.bits := by cases w <;> decide

/-- No operand is narrower than a byte, so an imm8 keeps its sign at every width. -/
theorem imm8With_toInt (w : OpWidth) (v : Byte) : (imm8With w v).toInt = v.toInt :=
  BitVec.toInt_signExtend_of_le w.eight_le_bits

/-- Settles O49: 16 bits hold every value of at most 16 bits whole. -/
theorem truncateKeepsTheLow16Bits : Obligations.TruncateKeepsTheLow16Bits :=
  fun _ v => ⟨truncate16_toNat v, truncate16_toNat_of_le v⟩

/-- Settles O50: widening to the operand size keeps the unsigned value. -/
theorem zeroExtendKeepsTheValue : Obligations.ZeroExtendKeepsTheValue := by
  intro os n v
  exact ⟨fun h => ⟨v.setWidth os.bits, zeroExtend_of_le v h, BitVec.toNat_setWidth_of_le h⟩, zeroExtend_of_lt v⟩

/-- Settles O51: widening with the sign keeps the signed value, and a byte's lies from -128 to 127. -/
theorem signExtendKeepsTheSignedValue : Obligations.SignExtendKeepsTheSignedValue := by
  constructor
  · intro os n v
    exact ⟨fun h => ⟨v.signExtend os.bits, signExtend_of_le v h, BitVec.toInt_signExtend_of_le h⟩, signExtend_of_lt v⟩
  · intro w v
    rw [imm8With_toInt]
    have hlo : -128 ≤ v.toInt := BitVec.le_toInt v
    have hhi : v.toInt < 128 := BitVec.toInt_lt
    exact ⟨rfl, hlo, by omega⟩

/-! ### DIV and MOD -/

/-- MOD, which R200 defines through DIV, is the remainder of the rounding-down division. -/
theorem bitMod_eq_fmod (a n : Int) : bitMod a n = a.fmod n := (Int.fmod_def a n).symm

theorem bitMod_nonneg (a : Int) {n : Int} (h : 0 < n) : 0 ≤ bitMod a n :=
  bitMod_eq_fmod a n ▸ Int.fmod_nonneg_of_pos a h

theorem bitMod_lt (a : Int) {n : Int} (h : 0 < n) : bitMod a n < n :=
  bitMod_eq_fmod a n ▸ Int.fmod_lt_of_pos a h

/-- Settles O55: the bounds of DIV are those of MOD, moved by `8 * (a DIV 8)`. -/
theorem bitDivAndModRoundDown : Obligations.BitDivAndModRoundDown := by
  refine ⟨fun a => ?_, by decide⟩
  have hdef : bitMod a 8 = a - 8 * bitDiv a 8 := rfl
  have hnonneg : 0 ≤ bitMod a 8 := bitMod_nonneg a (by decide)
  have hlt : bitMod a 8 < 8 := bitMod_lt a (by decide)
  exact ⟨by omega, by omega, hdef, hnonneg, hlt⟩

end Sys2Proof

/-!
The segment and offset of an operand by its kind (40_prefixes.md R141, 41_addressing.md R171, R172, 42_operation_primitives.md
R191, 44_named_instructions.md R220): one equation per case of the override, of AddressSize and of mod.
-/

namespace Sys2Proof

open Sys2Proof.Machine

section
variable {s : State} {a : AddrSpec}

/-! ### The overriding segment -/

theorem segOrOverride_of_some {g : SegName} (h : s.pfx.seg = some g) (dflt : SegName) : segOrOverride s dflt = g := by
  rw [segOrOverride, h, Option.getD_some]

theorem segOrOverride_of_none (h : s.pfx.seg = none) (dflt : SegName) : segOrOverride s dflt = dflt := by
  rw [segOrOverride, h, Option.getD_none]

theorem segOrOverride_eq {g dflt : SegName} (h : s.pfx.seg = some g ∨ s.pfx.seg = none ∧ g = dflt) :
    segOrOverride s dflt = g := by
  obtain hover | ⟨hnone, rfl⟩ := h
  · exact segOrOverride_of_some hover dflt
  · exact segOrOverride_of_none hnone g

/-! ### ModR/M operands -/

theorem ea_s16 (h : s.addressSize = .s16) : ea s a = ea16 s.regs a := by rw [ea, h]

theorem ea_s32 (h : s.addressSize = .s32) : ea s a = ea32 s.regs a := by rw [ea, h]

theorem defaultSeg_s16 (h : s.addressSize = .s16) : defaultSeg s a = defaultSeg16 a := by rw [defaultSeg, h]

theorem defaultSeg_s32 (h : s.addressSize = .s32) : defaultSeg s a = defaultSeg32 a := by rw [defaultSeg, h]

theorem memOperand_register (h : a.modrm.mod = 3#2) : memOperand s a = .refused .registerWhereMemoryRequired := if_pos h

theorem memOperand_memory (h : a.modrm.mod ≠ 3#2) :
    memOperand s a = .next (segOrOverride s (defaultSeg s a), ea s a) := if_neg h

theorem addrOf_register (h : a.modrm.mod = 3#2) : addrOf s a = .refused .addrOfRegister := if_pos h

theorem addrOf_memory (h : a.modrm.mod ≠ 3#2) : addrOf s a = .next (ea s a) := if_neg h

/-! ### moffs operands -/

/-- A moffs offset of either size is its own value as a doubleword. -/
theorem moffsEA_eq {o : MoffsField} {off : Word32} (h16 : ∀ u, o = .o16 u → off.toNat = u.toNat)
    (h32 : ∀ u, o = .o32 u → off = u) : moffsEA o = off := by
  cases o with
  | o16 u =>
    have hwide : (u.setWidth 32).toNat = u.toNat := BitVec.toNat_setWidth_of_le (by decide)
    exact BitVec.eq_of_toNat_eq (hwide.trans (h16 u rfl).symm)
  | o32 u => exact (h32 u rfl).symm

/-! ### String operands -/

theorem stringSource_s16 (h : s.addressSize = .s16) :
    stringSource s = .next (segOrOverride s .ds, (s.regs.esi.extractLsb' 0 16).setWidth 32) := by
  rw [stringSource, h]
  rfl

theorem stringDest_s16 (h : s.addressSize = .s16) :
    stringDest s = .next (.es, (s.regs.edi.extractLsb' 0 16).setWidth 32) := by
  rw [stringDest, h]
  rfl

theorem stringSource_s32 (h : s.addressSize = .s32) : stringSource s = .refused .stringAddressNotInSource := by
  rw [stringSource, h]

theorem stringDest_s32 (h : s.addressSize = .s32) : stringDest s = .refused .stringAddressNotInSource := by
  rw [stringDest, h]

end

/-- Settles O38, by the kind of operand: ModR/M, moffs, string. -/
theorem memoryOperandUsesTheOverride : Obligations.MemoryOperandUsesTheOverride := by
  intro s a
  refine ⟨fun h => ⟨ea_s16 h, defaultSeg_s16 h⟩, fun h => ⟨ea_s32 h, defaultSeg_s32 h⟩,
    fun h => ⟨memOperand_register h, addrOf_register h⟩, ?memory, ?moffs, ?string, ?string16,
    fun h => ⟨stringSource_s32 h, stringDest_s32 h⟩⟩
  case memory =>
    intro h
    refine ⟨addrOf_memory h, fun g hover => ?_, fun hnone => ?_⟩
    · rw [memOperand_memory h, segOrOverride_of_some hover]
    · rw [memOperand_memory h, segOrOverride_of_none hnone]
  case moffs =>
    intro w o v g off hseg h16 h32
    rw [readMoffs, writeMoffs, segOrOverride_eq hseg, moffsEA_eq h16 h32]
    exact ⟨rfl, rfl⟩
  case string => exact fun w v g off => ⟨andThen_next _ _, andThen_next _ _⟩
  case string16 =>
    intro h
    rw [stringSource_s16 h]
    refine ⟨fun g hover => ?_, fun hnone => ?_, stringDest_s16 h⟩
    · rw [segOrOverride_of_some hover]
    · rw [segOrOverride_of_none hnone]

end Sys2Proof

/-!
The operands in two parts (30_encoding.md R97, R98, R105 to R107, 44_named_instructions.md R216). A two-part value is its upper
part appended to its lower part; an operand in memory is one read, of which `Memory.read_part` gives the parts.
-/

namespace Sys2Proof

open Sys2Proof.Machine

/-! ### Far pointers from their bytes -/

theorem farOf16_append (selector off : Word16) :
    farOf16 (selector ++ off) = { offset := off.setWidth 32, selector := selector } := by
  rw [farOf16, BitVec.extractLsb'_append_eq_left, BitVec.extractLsb'_append_eq_right]

theorem farOf32_append (selector : Word16) (off : Word32) :
    farOf32 (selector ++ off) = { offset := off, selector := selector } := by
  rw [farOf32, BitVec.extractLsb'_append_eq_left, BitVec.extractLsb'_append_eq_right]

theorem append_two_bytes (hi : Word16) (b1 b0 : Byte) : hi ++ b1 ++ b0 = hi ++ (b1 ++ b0) :=
  BitVec.append_assoc

theorem append_four_bytes (hi : Word16) (b3 b2 b1 b0 : Byte) :
    hi ++ b3 ++ b2 ++ b1 ++ b0 = hi ++ (b3 ++ b2 ++ b1 ++ b0) := by
  apply BitVec.eq_of_toNat_eq
  simp only [BitVec.toNat_append, Nat.shiftLeft_or_distrib, ← Nat.shiftLeft_add, Nat.or_assoc]

theorem farOfCode_s16_bytes (b0 b1 b2 b3 : Byte) :
    farOfCode .s16 (.cd (b3 ++ b2 ++ b1 ++ b0)) = some { offset := (b1 ++ b0).setWidth 32, selector := b3 ++ b2 } := by
  rw [append_two_bytes (b3 ++ b2), farOfCode, farOf16_append]

theorem farOfCode_s32_bytes (b0 b1 b2 b3 b4 b5 : Byte) :
    farOfCode .s32 (.cp (b5 ++ b4 ++ b3 ++ b2 ++ b1 ++ b0)) =
      some { offset := b3 ++ b2 ++ b1 ++ b0, selector := b5 ++ b4 } := by
  rw [append_four_bytes (b5 ++ b4), farOfCode, farOf32_append]

theorem farOfCode_s16_eq_none {c : CodeField} (h : ∀ v, c ≠ .cd v) : farOfCode .s16 c = none := by
  cases c with
  | cd v => exact absurd rfl (h v)
  | cb _ | cw _ | cp _ => rfl

theorem farOfCode_s32_eq_none {c : CodeField} (h : ∀ v, c ≠ .cp v) : farOfCode .s32 c = none := by
  cases c with
  | cp v => exact absurd rfl (h v)
  | cb _ | cw _ | cd _ => rfl

/-! ### The parts of one read -/

section
variable (m : Memory) (addr : Word32)

theorem Machine.Memory.read_low {n l : Nat} (h : l ≤ n) : (m.read addr n).extractLsb' 0 (8 * l) = m.read addr l := by
  have hpart := m.read_part addr n 0 l (by omega)
  rwa [BitVec.add_zero] at hpart

theorem word0_read4 : (m.read addr 4).extractLsb' 0 16 = m.read addr 2 := m.read_low addr (l := 2) (by decide)

theorem word1_read4 : (m.read addr 4).extractLsb' 16 16 = m.read (addr + 2#32) 2 := m.read_part addr 4 2 2 (by decide)

theorem dword0_read6 : (m.read addr 6).extractLsb' 0 32 = m.read addr 4 := m.read_low addr (l := 4) (by decide)

theorem word2_read6 : (m.read addr 6).extractLsb' 32 16 = m.read (addr + 4#32) 2 := m.read_part addr 6 4 2 (by decide)

theorem dword0_read8 : (m.read addr 8).extractLsb' 0 32 = m.read addr 4 := m.read_low addr (l := 4) (by decide)

theorem dword1_read8 : (m.read addr 8).extractLsb' 32 32 = m.read (addr + 4#32) 4 := m.read_part addr 8 4 4 (by decide)

theorem farOf16_read :
    farOf16 (m.read addr 4) = { offset := (m.read addr 2).setWidth 32, selector := m.read (addr + 2#32) 2 } := by
  rw [farOf16, word0_read4, word1_read4]

theorem farOf32_read : farOf32 (m.read addr 6) = { offset := m.read addr 4, selector := m.read (addr + 4#32) 2 } := by
  rw [farOf32, dword0_read6, word2_read6]

end

/-! ### Reading an operand that must be in memory: a register, an access admitted, an access turned down -/

section
variable {s : State} {a : AddrSpec} {g : SegName} {off : Word32} {n : Nat} {e : Exn} {α : Type}

theorem andThen_memOperand_register (h : a.modrm.mod = 3#2) (f : SegName × Word32 → Res α) :
    andThen (memOperand s a) f = .refused .registerWhereMemoryRequired := by
  rw [memOperand_register h, andThen_refused]

theorem readOperand_of_ok (hop : memOperand s a = .next (g, off)) (h : accessCheck s g off n .read = none)
    (f : BitVec (8 * n) → Res α) :
    (andThen (memOperand s a) fun p => andThen (segRead s p.1 p.2 n) f) = f (s.mem.read (lin s g off) n) := by
  rw [hop, andThen_next, segRead_of_ok h, andThen_next]

theorem readOperand_of_some (hop : memOperand s a = .next (g, off)) (h : accessCheck s g off n .read = some e)
    (f : BitVec (8 * n) → Res α) :
    (andThen (memOperand s a) fun p => andThen (segRead s p.1 p.2 n) f) = .fault (.exception e.name.number e.code) := by
  rw [hop, andThen_next, segRead_of_some h, raise, andThen_fault]

/-! ### Far pointers in memory -/

theorem readFar_register (os : AttrSize) (h : a.modrm.mod = 3#2) :
    readFar s os a = .refused .registerWhereMemoryRequired :=
  andThen_memOperand_register h _

theorem readFar_s16_of_ok (hop : memOperand s a = .next (g, off)) (h : accessCheck s g off 4 .read = none) :
    readFar s .s16 a = .next { offset := (s.mem.read (lin s g off) 2).setWidth 32,
                               selector := s.mem.read (lin s g off + 2#32) 2 } := by
  rw [readFar, readOperand_of_ok hop h, farOf16_read]

theorem readFar_s32_of_ok (hop : memOperand s a = .next (g, off)) (h : accessCheck s g off 6 .read = none) :
    readFar s .s32 a = .next { offset := s.mem.read (lin s g off) 4,
                               selector := s.mem.read (lin s g off + 4#32) 2 } := by
  rw [readFar, readOperand_of_ok hop h, farOf32_read]

theorem readFar_s16_of_some (hop : memOperand s a = .next (g, off)) (h : accessCheck s g off 4 .read = some e) :
    readFar s .s16 a = .fault (.exception e.name.number e.code) :=
  readOperand_of_some hop h _

theorem readFar_s32_of_some (hop : memOperand s a = .next (g, off)) (h : accessCheck s g off 6 .read = some e) :
    readFar s .s32 a = .fault (.exception e.name.number e.code) :=
  readOperand_of_some hop h _

/-! ### Pairs, and BOUND's operand and the r/m classes that are made of them -/

theorem readPair16_register (h : a.modrm.mod = 3#2) : readPair16 s a = .refused .registerWhereMemoryRequired :=
  andThen_memOperand_register h _

theorem readPair32_register (h : a.modrm.mod = 3#2) : readPair32 s a = .refused .registerWhereMemoryRequired :=
  andThen_memOperand_register h _

theorem readPair16_of_ok (hop : memOperand s a = .next (g, off)) (h : accessCheck s g off 4 .read = none) :
    readPair16 s a = .next (s.mem.read (lin s g off) 2, s.mem.read (lin s g off + 2#32) 2) := by
  rw [readPair16, readOperand_of_ok hop h, word0_read4, word1_read4]

theorem readPair32_of_ok (hop : memOperand s a = .next (g, off)) (h : accessCheck s g off 8 .read = none) :
    readPair32 s a = .next (s.mem.read (lin s g off) 4, s.mem.read (lin s g off + 4#32) 4) := by
  rw [readPair32, readOperand_of_ok hop h, dword0_read8, dword1_read8]

theorem readPair16_of_some (hop : memOperand s a = .next (g, off)) (h : accessCheck s g off 4 .read = some e) :
    readPair16 s a = .fault (.exception e.name.number e.code) :=
  readOperand_of_some hop h _

theorem readPair32_of_some (hop : memOperand s a = .next (g, off)) (h : accessCheck s g off 8 .read = some e) :
    readPair32 s a = .fault (.exception e.name.number e.code) :=
  readOperand_of_some hop h _

theorem boundOperand_s16 (s : State) (a : AddrSpec) :
    boundOperand s .s16 a = andThen (readPair16 s a) fun p => .next (p.1.setWidth 32, p.2.setWidth 32) := rfl

theorem boundOperand_s32 (s : State) (a : AddrSpec) : boundOperand s .s32 a = readPair32 s a := rfl

theorem readRmOf_pair16x16 (s : State) (a : AddrSpec) :
    readRmOf s .pair16x16 a = andThen (readPair16 s a) fun p => .next (.bounds16 p.1 p.2) := rfl

theorem readRmOf_pair32x32 (s : State) (a : AddrSpec) :
    readRmOf s .pair32x32 a = andThen (readPair32 s a) fun p => .next (.bounds32 p.1 p.2) := rfl

theorem boundOperand_register (os : AttrSize) (h : a.modrm.mod = 3#2) :
    boundOperand s os a = .refused .registerWhereMemoryRequired := by
  cases os with
  | s16 => rw [boundOperand_s16, readPair16_register h, andThen_refused]
  | s32 => exact readPair32_register h

end

/-- Settles O46: far pointers in the instruction, registers, the far classes, then the one access of 4, 6 or 8 bytes. -/
theorem twoPartOperandsLayout : Obligations.TwoPartOperandsLayout := by
  refine ⟨?code, fun c => ⟨farOfCode_s16_eq_none, farOfCode_s32_eq_none⟩, ?register, fun s a => ⟨rfl, rfl⟩, ?memory⟩
  case code => exact fun b0 b1 b2 b3 b4 b5 => ⟨farOfCode_s16_bytes b0 b1 b2 b3, farOfCode_s32_bytes b0 b1 b2 b3 b4 b5⟩
  case register =>
    intro s a os h
    rw [readRmOf_pair16x16, readRmOf_pair32x32, readPair16_register h, readPair32_register h]
    exact ⟨readFar_register os h, boundOperand_register os h, andThen_refused _ _, andThen_refused _ _⟩
  case memory =>
    intro s a g off hop
    rw [boundOperand_s16, boundOperand_s32, readRmOf_pair16x16, readRmOf_pair32x32]
    refine ⟨fun h => ?ok4, readFar_s32_of_ok hop, fun h => ?ok8, fun e h => ?denied4, fun e => readFar_s32_of_some hop,
      fun e h => ?denied8⟩
    case ok4 =>
      rw [readPair16_of_ok hop h, andThen_next, andThen_next]
      exact ⟨readFar_s16_of_ok hop h, rfl, rfl⟩
    case ok8 =>
      rw [readPair32_of_ok hop h, andThen_next]
      exact ⟨rfl, rfl⟩
    case denied4 =>
      rw [readPair16_of_some hop h, andThen_fault, andThen_fault]
      exact ⟨readFar_s16_of_some hop h, rfl, rfl⟩
    case denied8 =>
      rw [readPair32_of_some hop h, andThen_fault]
      exact ⟨rfl, rfl⟩

end Sys2Proof

/-!
The exceptions by name (60_exceptions.md R231).
-/

namespace Sys2Proof

open Sys2Proof.Machine

/-- Settles O59: the numbers by evaluation in Table 17-6's order, and each name of the model found in the table. -/
theorem exceptionNumbersFollowTable17_6 : Obligations.ExceptionNumbersFollowTable17_6 := by
  refine ⟨?numbers, ?complete⟩
  case numbers => rfl
  case complete =>
    intro x
    cases x <;> decide

end Sys2Proof

/-!
The rows of the opcode table and the step (40_prefixes.md R130 to R146, 43_flag_control.md R210, R211, 60_exceptions.md R240).
The row of a prefix is `recordPrefix` on the decode state, a step is what the decoder says of the window, and the answer of the
decoder but for the two sizes is settled by the scan of the prefix run.
-/

namespace Sys2Proof

open Sys2Proof.Machine

/-! ### CMC -/

theorem exec_cmc_of_rep {s : State} (h : s.pfx.rep.isSome = true) : exec .cmc s = .refused .repOnNonString := by
  rw [exec, execCmc_eq, if_pos h]

theorem exec_cmc_of_lock {s : State} (hrep : s.pfx.rep = none) (hlock : s.pfx.lock = true) :
    exec .cmc s = .refused .lockNotDefined := by
  rw [exec, execCmc_eq, if_neg (by simp [hrep]), if_pos hlock]

theorem exec_cmc_of_clear {s : State} (hrep : s.pfx.rep = none) (hlock : s.pfx.lock = false) :
    exec .cmc s = .next { s with cf := !s.cf, pc := s.pc + BitVec.ofNat 32 (s.pfx.count + 1), pfx := {} } := by
  rw [exec, execCmc_eq, if_neg (by simp [hrep]), if_neg (by simp [hlock])]

/-- CMC has these three outcomes, by the decode state alone. -/
theorem exec_cmc_cases (s : State) :
    s.pfx.rep.isSome = true ∨ (s.pfx.rep = none ∧ s.pfx.lock = true) ∨ (s.pfx.rep = none ∧ s.pfx.lock = false) := by
  cases hrep : s.pfx.rep with
  | some r => exact .inl rfl
  | none =>
    cases hlock : s.pfx.lock with
    | true => exact .inr (.inl ⟨rfl, rfl⟩)
    | false => exact .inr (.inr ⟨rfl, rfl⟩)

theorem exec_cmc_eq_next {s t : State} (h : exec .cmc s = .next t) :
    s.pfx.rep = none ∧ s.pfx.lock = false
      ∧ t = { s with cf := !s.cf, pc := s.pc + BitVec.ofNat 32 (s.pfx.count + 1), pfx := {} } := by
  obtain hrep | ⟨hrep, hlock⟩ | ⟨hrep, hlock⟩ := exec_cmc_cases s
  · rw [exec_cmc_of_rep hrep] at h; cases h
  · rw [exec_cmc_of_lock hrep hlock] at h; cases h
  · rw [exec_cmc_of_clear hrep hlock] at h; cases h; exact ⟨hrep, hlock, rfl⟩

/-- CMC raises no exception (decision D20). -/
theorem exec_cmc_ne_fault (s : State) (f : Fault) : exec .cmc s ≠ .fault f := by
  obtain hrep | ⟨hrep, hlock⟩ | ⟨hrep, hlock⟩ := exec_cmc_cases s
  · rw [exec_cmc_of_rep hrep]; nofun
  · rw [exec_cmc_of_lock hrep hlock]; nofun
  · rw [exec_cmc_of_clear hrep hlock]; nofun

/-- Without a repeat prefix and LOCK a decode state stands for at most three bytes. -/
theorem count_le_three {p : Prefixes} (hrep : p.rep = none) (hlock : p.lock = false) : p.count ≤ 3 := by
  have hseg := Bool.toNat_le p.seg.isSome
  have hop := Bool.toNat_le p.opsize
  have had := Bool.toNat_le p.adsize
  simp only [Prefixes.count, hrep, hlock, Option.isSome_none, Bool.toNat_false]
  omega

/-! ### What the decoder says of a window, whatever the default sizes -/

theorem decode_of_scan_short {bs : List Byte} (h : scanPrefixes {} bs = .short) (a b : AttrSize) : decode a b bs = .short := by
  rw [decode, decodeWith, h, Parse.andThen_short]

theorem decode_of_scan_refuse {bs : List Byte} {r : DecodeStop} (h : scanPrefixes {} bs = .refuse r) (a b : AttrSize) :
    decode a b bs = .refuse r := by
  rw [decode, decodeWith, h, Parse.andThen_refuse]

theorem decode_of_scan_unlisted {bs : List Byte} {x : List Instr × Prefixes} {c : Byte} {rest : List Byte}
    (h : scanPrefixes {} bs = .ok x (c :: rest)) (hc : opcodeRow c = none) (a b : AttrSize) :
    decode a b bs = .refuse (.opcodeNotInSource c) := by
  simp only [decode, decodeWith, h, Parse.andThen_ok, takeByte, hc, Option.toList_none, findForm_nil, Parse.andThen_refuse]

/-- The bytes run out in the prefix run, or are refused, or are a well-formed run and F5: whatever the default sizes. -/
theorem decode_cases (bs : List Byte) :
    scanPrefixes {} bs = .short ∨ (∃ r, ∀ a b, decode a b bs = .refuse r)
      ∨ ∃ l rest, prefixRunWf l = true ∧ bs = l.map encodeRow ++ 0xF5#8 :: rest := by
  cases hscan : scanPrefixes {} bs with
  | short => exact .inl rfl
  | refuse r => exact .inr (.inl ⟨r, decode_of_scan_refuse hscan⟩)
  | ok x r =>
    obtain ⟨hbs, hrec, -, c, rest, rfl, -⟩ := scanPrefixes_eq_ok bs {} x.2 x.1 r hscan
    cases hrow : opcodeRow c with
    | none => exact .inr (.inl ⟨_, decode_of_scan_unlisted hscan hrow⟩)
    | some y =>
      obtain ⟨rfl, -⟩ := opcodeRow_eq c y hrow
      exact .inr (.inr ⟨x.1, rest, (wf_of_recordAll x.1 {} x.2 hrec).1, hbs⟩)

/-- The decoder runs out of bytes only in a well-formed prefix run, that is, within four bytes. -/
theorem length_le_four_of_decode_short {a b : AttrSize} {bs : List Byte} (h : decode a b bs = .short) : bs.length ≤ 4 := by
  obtain hscan | ⟨r, hr⟩ | ⟨l, rest, hwf, rfl⟩ := decode_cases bs
  · obtain ⟨l, q, rfl, hrec⟩ := scanPrefixes_eq_short bs {} hscan
    rw [List.length_map]
    exact length_le_four_of_wf l (wf_of_recordAll l {} q hrec).1
  · rw [hr] at h; cases h
  · obtain ⟨q, -, hok⟩ := decode_cmc a b l rest hwf
    rw [hok] at h; cases h

/-! ### The step by what the decoder says of the window -/

theorem step_of_decode_ok {s : State} {d : Decoded Instr} {rest : List Byte}
    (h : decode s.defaultOperandSize s.defaultAddressSize (fetchFrom s Config.maxInstrLen s.pc).1 = .ok d rest) :
    step s = runRows exec (d.prefixes ++ [d.op]) (startInstr s) := by
  simp only [step, stepWith, h]

theorem step_of_decode_refuse {s : State} {r : DecodeStop}
    (h : decode s.defaultOperandSize s.defaultAddressSize (fetchFrom s Config.maxInstrLen s.pc).1 = .refuse r) :
    step s = .refused (refusalOf r) := by
  simp only [step, stepWith, h]

theorem step_of_decode_short_some {s : State} {e : Exn}
    (h : decode s.defaultOperandSize s.defaultAddressSize (fetchFrom s Config.maxInstrLen s.pc).1 = .short)
    (he : (fetchFrom s Config.maxInstrLen s.pc).2 = some e) : step s = .fault (.exception e.name.number e.code) := by
  simp only [step, stepWith, h, he, raise]

theorem step_of_decode_short_none {s : State}
    (h : decode s.defaultOperandSize s.defaultAddressSize (fetchFrom s Config.maxInstrLen s.pc).1 = .short)
    (he : (fetchFrom s Config.maxInstrLen s.pc).2 = none) : step s = .refused .instructionTooLong := by
  simp only [step, stepWith, h, he]

/-- The step over a window that begins with a well-formed prefix run and F5. -/
theorem step_of_window {s : State} {l : List Instr} {rest : List Byte} (hwf : prefixRunWf l = true)
    (hw : (fetchFrom s Config.maxInstrLen s.pc).1 = l.map encodeRow ++ 0xF5#8 :: rest) :
    ∃ q, recordAll l {} = some q ∧ step s = exec .cmc { s with pfx := q } := by
  obtain ⟨q, hrec, hok⟩ := decode_cmc s.defaultOperandSize s.defaultAddressSize l rest hwf
  rw [← hw] at hok
  refine ⟨q, hrec, ?_⟩
  rw [step_of_decode_ok hok, runRows_of_recordAll (l.map canonRow) (startInstr s) q [.cmc] (by simpa using hrec),
    runRows_singleton]
  rfl

/-- All that a step that answers can have done: CMC, with no more than three prefix bytes before it. -/
theorem step_eq_next {s t : State} (h : step s = .next t) :
    ∃ n, 1 ≤ n ∧ n ≤ 4 ∧ t = { s with cf := !s.cf, pc := s.pc + BitVec.ofNat 32 n, pfx := {} } := by
  obtain ⟨_, _, q, _, _, _, _, _, hcmc⟩ | ⟨r, _, hr⟩ | ⟨hshort, _⟩ := step_cases s
  · rw [hcmc] at h
    obtain ⟨hrep, hlock, ht⟩ := exec_cmc_eq_next h
    have hcount : q.count ≤ 3 := count_le_three hrep hlock
    exact ⟨q.count + 1, by omega, by omega, ht⟩
  · rw [hr] at h; cases h
  · cases he : (fetchFrom s Config.maxInstrLen s.pc).2 with
    | some e => rw [step_of_decode_short_some hshort he] at h; cases h
    | none => rw [step_of_decode_short_none hshort he] at h; cases h

/-- A step that faults needed a byte beyond its window, within the first five bytes, and that byte may not be fetched. -/
theorem step_eq_fault {s : State} {f : Fault} (h : step s = .fault f) :
    ∃ e, (fetchFrom s Config.maxInstrLen s.pc).2 = some e ∧ (fetchFrom s Config.maxInstrLen s.pc).1.length ≤ 4
      ∧ f = .exception e.name.number e.code := by
  obtain ⟨_, _, q, _, _, _, _, _, hcmc⟩ | ⟨r, _, hr⟩ | ⟨hshort, _⟩ := step_cases s
  · rw [hcmc] at h; exact absurd h (exec_cmc_ne_fault _ f)
  · rw [hr] at h; cases h
  · cases he : (fetchFrom s Config.maxInstrLen s.pc).2 with
    | none => rw [step_of_decode_short_none hshort he] at h; cases h
    | some e =>
      rw [step_of_decode_short_some hshort he] at h
      cases h
      exact ⟨e, rfl, length_le_four_of_decode_short hshort, rfl⟩

/-! ### The invariant -/

theorem Machine.State.inv_iff (s : State) : s.inv = true ↔ s.mem.wf = true ∧ s.io.ioWf = true ∧ s.pfx = {} := by
  rw [State.inv, Bool.and_eq_true, Bool.and_eq_true, beq_iff_eq, and_assoc]

/-- Settles O21: a step that answers leaves memory and the I/O space alone and clears the decode state. -/
theorem everyStepKeepsTheInvariant : Obligations.EveryStepKeepsTheInvariant := by
  intro s t hinv h
  obtain ⟨hmem, hio, -⟩ := s.inv_iff.mp hinv
  obtain ⟨n, -, -, rfl⟩ := step_eq_next h
  exact (State.inv_iff _).mpr ⟨hmem, hio, rfl⟩

/-- Settles O20: nothing is listed after reset. -/
theorem resetSatisfiesTheInvariant : Obligations.ResetSatisfiesTheInvariant :=
  State.reset.inv_iff.mpr ⟨rfl, rfl, rfl⟩

/-! ### What every step keeps and where every fault comes from -/

/-- Settles O17: the step can only have been CMC after at most three prefix bytes. -/
theorem everyStepChangesOnlyCarryAndPc : Obligations.EveryStepChangesOnlyCarryAndPc :=
  fun _ _ => step_eq_next

/-- Settles O18: the window stops at the first byte that may not be fetched. -/
theorem everyFaultComesFromTheFirstFailingFetch : Obligations.EveryFaultComesFromTheFirstFailingFetch := by
  intro s f h
  obtain ⟨e, he, hlen, hf⟩ := step_eq_fault h
  obtain ⟨-, hbefore, hat, -⟩ := fetchFrom_spec s Config.maxInstrLen s.pc
  exact ⟨_, e, hlen, hat e he, hbefore, hf⟩

/-- Settles O22, by induction on the steps allowed. -/
theorem aRunThatEndsChangedOnlyCarryAndPc : Obligations.ARunThatEndsChangedOnlyCarryAndPc := by
  intro n
  induction n with
  | zero =>
    intro s t h
    rw [runSteps] at h
    split at h
    next hend => cases h; exact ⟨hend, rfl⟩
    next => cases h
  | succ n ih =>
    intro s t h
    rw [runSteps] at h
    split at h
    next hend => cases h; exact ⟨hend, rfl⟩
    next =>
      split at h
      next s' hs =>
        obtain ⟨k, -, -, rfl⟩ := step_eq_next hs
        have hrest := ih _ t h
        exact hrest
      next => cases h
      next => cases h

/-! ### The default sizes, the stack address size and the mode -/

/-- The state with other sizes and another mode. -/
def Machine.State.withSizes (s : State) (a b c : AttrSize) (m : Mode) : State :=
  { s with defaultOperandSize := a, defaultAddressSize := b, stackAddrSize := c, mode := m }

section
variable (s : State) (a b c : AttrSize) (m : Mode)

theorem fetchFrom_withSizes : ∀ (n : Nat) (off : Word32), fetchFrom (s.withSizes a b c m) n off = fetchFrom s n off
  | 0, _ => rfl
  | n + 1, off => by
    have hcheck : accessCheck (s.withSizes a b c m) .cs off 1 .fetch = accessCheck s .cs off 1 .fetch := rfl
    have hbyte : (s.withSizes a b c m).mem.byteAt (lin (s.withSizes a b c m) .cs off) = s.mem.byteAt (lin s .cs off) := rfl
    rw [fetchFrom, fetchFrom, hcheck, hbyte, fetchFrom_withSizes n]

theorem exec_cmc_withSizes :
    exec .cmc (s.withSizes a b c m) = andThen (exec .cmc s) fun t => .next (t.withSizes a b c m) := by
  obtain hrep | ⟨hrep, hlock⟩ | ⟨hrep, hlock⟩ := exec_cmc_cases s
  · rw [exec_cmc_of_rep hrep, exec_cmc_of_rep (s := s.withSizes a b c m) hrep, andThen_refused]
  · rw [exec_cmc_of_lock hrep hlock, exec_cmc_of_lock (s := s.withSizes a b c m) hrep hlock, andThen_refused]
  · rw [exec_cmc_of_clear hrep hlock, exec_cmc_of_clear (s := s.withSizes a b c m) hrep hlock, andThen_next]
    rfl

end

/-- Settles O19: the window is the same, and the sizes reach no part of the decoder's answer that the step uses. -/
theorem stepDoesNotDependOnSizesOrMode : Obligations.StepDoesNotDependOnSizesOrMode := by
  intro s a b c m
  change step (s.withSizes a b c m) = andThen (step s) fun t => .next (t.withSizes a b c m)
  have hwin : fetchFrom (s.withSizes a b c m) Config.maxInstrLen (s.withSizes a b c m).pc
      = fetchFrom s Config.maxInstrLen s.pc := fetchFrom_withSizes s a b c m _ _
  obtain hscan | ⟨r, hr⟩ | ⟨l, rest, hwf, hbs⟩ := decode_cases (fetchFrom s Config.maxInstrLen s.pc).1
  · cases he : (fetchFrom s Config.maxInstrLen s.pc).2 with
    | some e =>
      rw [step_of_decode_short_some (decode_of_scan_short hscan _ _) he, andThen_fault,
        step_of_decode_short_some (decode_of_scan_short (hwin ▸ hscan) _ _) (hwin ▸ he)]
    | none =>
      rw [step_of_decode_short_none (decode_of_scan_short hscan _ _) he, andThen_refused,
        step_of_decode_short_none (decode_of_scan_short (hwin ▸ hscan) _ _) (hwin ▸ he)]
  · rw [step_of_decode_refuse (hr _ _), andThen_refused, step_of_decode_refuse (by rw [hwin]; exact hr _ _)]
  · obtain ⟨q, hrec, hstep⟩ := step_of_window hwf hbs
    obtain ⟨q', hrec', hstep'⟩ := step_of_window (s := s.withSizes a b c m) hwf (hwin ▸ hbs)
    obtain rfl : q = q' := Option.some.inj (hrec.symm.trans hrec')
    rw [hstep, hstep']
    exact exec_cmc_withSizes { s with pfx := q } a b c m

/-- Settles O10: the step by the answer of the decoder. -/
theorem stepRunsTheDecodedRows : Obligations.StepRunsTheDecodedRows := by
  intro s d rest h
  have hrun := step_of_decode_ok h
  refine ⟨hrun, fun hnil => ?_⟩
  rw [hrun, hnil, List.nil_append, runRows_singleton]

end Sys2Proof

/-!
The prefix rows one by one (40_prefixes.md R131 to R143, 30_encoding.md R85).
-/

namespace Sys2Proof

open Sys2Proof.Machine

/-! ### A prefix row is what it records -/

section
variable {i : Instr} {s t : State} {p q : Prefixes} {g : PrefixGroup}

theorem exec_of_recordPrefix (h : recordPrefix i s.pfx = some q) : exec i s = .next { s with pfx := q } := by
  rw [exec_of_isPrefix i s (recordPrefix_isPrefix h), h]

theorem exec_of_seen (hg : i.group = some g) (hseen : s.pfx.seen g = true) : exec i s = .refused .prefixGroupRepeated := by
  have hprefix : i.isPrefix = true := by rw [Instr.isPrefix, hg, Option.isSome_some]
  rw [exec_of_isPrefix i s hprefix, (recordPrefix_spec i s.pfx g hg).1 hseen]

theorem exec_prefix_eq_next (hi : i.isPrefix = true) (h : exec i s = .next t) :
    ∃ q, recordPrefix i s.pfx = some q ∧ t = { s with pfx := q } := by
  rw [exec_of_isPrefix i s hi] at h
  cases hrec : recordPrefix i s.pfx with
  | none => rw [hrec] at h; cases h
  | some q => rw [hrec] at h; cases h; exact ⟨q, rfl, rfl⟩

theorem count_of_recordPrefix (h : recordPrefix i p = some q) : q.count = p.count + 1 := by
  obtain ⟨g, hg⟩ := Option.isSome_iff_exists.mp (recordPrefix_isPrefix h)
  obtain ⟨hold, hnew⟩ := recordPrefix_spec i p g hg
  cases hseen : p.seen g with
  | true => rw [hold hseen] at h; cases h
  | false =>
    obtain ⟨q', hq', hcount, -⟩ := hnew hseen
    rw [h] at hq'
    cases hq'
    exact hcount

theorem withRep_of_clear (r : RepByte) (hrep : p.rep = none) (hlock : p.lock = false) :
    p.withRep r = some { p with rep := some r } := if_neg (by simp [hrep, hlock])

theorem withLock_of_clear (hrep : p.rep = none) (hlock : p.lock = false) :
    p.withLock = some { p with lock := true } := if_neg (by simp [hrep, hlock])

theorem withSeg_of_none (sg : SegName) (h : p.seg = none) : p.withSeg sg = some { p with seg := some sg } :=
  if_neg (by simp [h])

theorem withOpSize_of_clear (h : p.opsize = false) : p.withOpSize = some { p with opsize := true } := if_neg (by simp [h])

theorem withAdSize_of_clear (h : p.adsize = false) : p.withAdSize = some { p with adsize := true } := if_neg (by simp [h])

theorem sizeAttr_true (a : AttrSize) : sizeAttr a true = a.other := rfl

theorem sizeAttr_false (a : AttrSize) : sizeAttr a false = a := rfl

theorem other_ne (a : AttrSize) : a.other ≠ a := by cases a <;> decide

/-- A repeat row before CMC is refused: CMC finds `pfx.rep` set. -/
theorem cmc_after_rep {r : RepByte} (h : exec i s = .next { s with pfx := { s.pfx with rep := some r } }) :
    andThen (exec i s) (exec .cmc) = .refused .repOnNonString := by
  rw [h, andThen_next, exec_cmc_of_rep rfl]

end

/-! ### CMC and its refusals -/

/-- Settles O1: the case of CMC without a repeat prefix and LOCK. -/
theorem cmcComplementsCarryAndAdvancesPc : Obligations.CmcComplementsCarryAndAdvancesPc :=
  fun _ => exec_cmc_of_clear

/-- Settles O2: the two other cases of CMC. -/
theorem cmcIsRefusedAfterRepeatOrLock : Obligations.CmcIsRefusedAfterRepeatOrLock :=
  fun _ => ⟨exec_cmc_of_rep, exec_cmc_of_lock⟩

/-! ### What each prefix row sets -/

/-- Settles O3: each row records its byte, and CMC finds it. -/
theorem repeatRowsSetRepAndNothingElse : Obligations.RepeatRowsSetRepAndNothingElse := by
  intro s hrep hlock
  have hset (r : RepByte) := withRep_of_clear r hrep hlock
  have h1 : exec .rep s = _ := exec_of_recordPrefix (hset .f3)
  have h2 : exec .repeRepz s = _ := exec_of_recordPrefix (hset .f3)
  have h3 : exec .repneRepnz s = _ := exec_of_recordPrefix (hset .f2)
  refine ⟨h1, h2, h3, fun i hi => ?_⟩
  simp only [List.mem_cons, List.not_mem_nil, or_false] at hi
  obtain rfl | rfl | rfl := hi
  · exact cmc_after_rep h1
  · exact cmc_after_rep h2
  · exact cmc_after_rep h3

/-- Settles O4: the row records LOCK, and CMC finds it. -/
theorem lockRowSetsLockAndNothingElse : Obligations.LockRowSetsLockAndNothingElse := by
  intro s hrep hlock
  have h : exec .lock s = _ := exec_of_recordPrefix (withLock_of_clear hrep hlock)
  refine ⟨h, ?_⟩
  rw [h, andThen_next]
  exact exec_cmc_of_lock hrep rfl

/-- Settles O5: each row records its segment. -/
theorem segmentOverrideRowsSetSegAndNothingElse : Obligations.SegmentOverrideRowsSetSegAndNothingElse := by
  intro s h
  have hset (sg : SegName) := withSeg_of_none sg h
  exact ⟨exec_of_recordPrefix (hset .cs), exec_of_recordPrefix (hset .ss), exec_of_recordPrefix (hset .ds),
    exec_of_recordPrefix (hset .es), exec_of_recordPrefix (hset .fs), exec_of_recordPrefix (hset .gs)⟩

/-- Settles O6: `sizeAttr` at `opsize` false and true. -/
theorem operandSizeRowSelectsTheOtherSize : Obligations.OperandSizeRowSelectsTheOtherSize := by
  intro s h
  have hbefore : s.operandSize = s.defaultOperandSize := by rw [State.operandSize, h, sizeAttr_false]
  refine ⟨_, exec_of_recordPrefix (withOpSize_of_clear h), rfl, ?_, rfl, rfl, hbefore, other_ne _⟩
  rw [hbefore]
  exact sizeAttr_true _

/-- Settles O7: `sizeAttr` at `adsize` false and true. -/
theorem addressSizeRowSelectsTheOtherSize : Obligations.AddressSizeRowSelectsTheOtherSize := by
  intro s h
  have hbefore : s.addressSize = s.defaultAddressSize := by rw [State.addressSize, h, sizeAttr_false]
  refine ⟨_, exec_of_recordPrefix (withAdSize_of_clear h), rfl, ?_, rfl, rfl, hbefore, other_ne _⟩
  rw [hbefore]
  exact sizeAttr_true _

/-! ### A group at most once -/

theorem group_of_repeatLock_row : ∀ i ∈ [Instr.rep, .repeRepz, .repneRepnz, .lock], i.group = some .repeatLock := by decide

theorem group_of_segment_row :
    ∀ i ∈ [Instr.csOverride, .ssOverride, .dsOverride, .esOverride, .fsOverride, .gsOverride],
      i.group = some .segment := by decide

/-- Settles O8, group by group. -/
theorem repeatedGroupRowsAreRefused : Obligations.RepeatedGroupRowsAreRefused := by
  intro s
  refine ⟨fun h i hi => exec_of_seen (group_of_repeatLock_row i hi) ?_,
    fun h i hi => exec_of_seen (group_of_segment_row i hi) h,
    fun h => exec_of_seen (g := .operandSize) rfl h, fun h => exec_of_seen (g := .addressSize) rfl h⟩
  rwa [Prefixes.seen, Bool.or_eq_true]

/-- Settles O9: what the row records is all that it changes. -/
theorem prefixRowsChangeOnlyTheDecodeState : Obligations.PrefixRowsChangeOnlyTheDecodeState := by
  intro i s t hi h
  obtain ⟨q, hrec, rfl⟩ := exec_prefix_eq_next hi h
  exact ⟨rfl, count_of_recordPrefix hrec⟩

end Sys2Proof

/-!
The step over code that stands at `pc` (30_encoding.md R85, R114, 40_prefixes.md R144 to R146): what the decoder reads from the
bytes of a prefix run followed by F5, by a byte without a row, by nothing, or of a run that repeats a group.
-/

namespace Sys2Proof

open Sys2Proof.Machine

/-! ### Well-formed instructions -/

theorem op_of_wf {x : Insn} (h : x.wf = true) : x.op = .cmc := by
  rw [Insn.wf, Bool.and_eq_true] at h
  revert h
  cases x.op <;> simp [Instr.isPrefix, Instr.group]

theorem prefixes_of_wf {x : Insn} (h : x.wf = true) : prefixRunWf x.prefixes = true := by
  rw [Insn.wf, Bool.and_eq_true] at h
  exact h.1

theorem encode_of_cmc {x : Insn} (h : x.op = .cmc) : encode x = x.prefixes.map encodeRow ++ [0xF5#8] := by
  rw [encode, h, encodeRow]

theorem encode_length (x : Insn) : (encode x).length = x.prefixes.length + 1 := by
  rw [encode, List.length_append, List.length_map, List.length_singleton]

/-- A step over a well-formed instruction is CMC under the decode state of its prefixes. -/
theorem step_of_insn {s : State} {x : Insn} (hwf : x.wf = true) (hc : s.holdsCode (encode x)) :
    ∃ q, recordAll x.prefixes {} = some q ∧ step s = exec .cmc { s with pfx := q } := by
  rw [encode_of_cmc (op_of_wf hwf)] at hc
  exact step_of_holdsCode s x.prefixes (prefixes_of_wf hwf) hc

/-- Settles O11: the rows of the prefixes leave the decode state that the step runs CMC under. -/
theorem stepRunsTheEncodedInstruction : Obligations.StepRunsTheEncodedInstruction := by
  intro s x hwf hc
  obtain ⟨q, hrec, hstep⟩ := step_of_insn hwf hc
  rw [hstep, op_of_wf hwf, runRows_of_recordAll x.prefixes (startInstr s) q [.cmc] hrec, runRows_singleton]
  rfl

/-! ### The decode state of a recorded run -/

section
variable {l : List Instr} {q : Prefixes}

theorem count_of_recordAll (h : recordAll l {} = some q) : q.count = l.length := by
  obtain ⟨q', hq', hcount, -⟩ := recordAll_of_wf l {} (wf_of_recordAll l {} q h).1 (by simp)
  rw [h] at hq'
  cases hq'
  simpa using hcount

theorem clear_of_recordAll (h : recordAll l {} = some q) (hl : ∀ i ∈ l, i.group ≠ some .repeatLock) :
    q.rep = none ∧ q.lock = false := by
  obtain ⟨q', hq', -, hseen⟩ := recordAll_of_wf l {} (wf_of_recordAll l {} q h).1 (by simp)
  rw [h] at hq'
  cases hq'
  have hnone : (l.any fun i => i.group == some .repeatLock) = false := by simpa using hl
  have hclear := hseen .repeatLock
  rw [hnone, Prefixes.seen_empty, Bool.or_false, Prefixes.seen, Bool.or_eq_false_iff] at hclear
  exact ⟨by simpa using hclear.1, hclear.2⟩

theorem rep_of_recordAll (h : recordAll l {} = some q) {i : Instr} (hi : i ∈ l)
    (hrow : i = .rep ∨ i = .repeRepz ∨ i = .repneRepnz) : q.rep.isSome = true := by
  have hrec : q.records i = true := (records_iff h i).mpr ⟨i, hi, rfl⟩
  obtain rfl | rfl | rfl := hrow <;>
    exact Option.isSome_iff_exists.mpr ⟨_, beq_iff_eq.mp hrec⟩

theorem lock_of_recordAll (h : recordAll l {} = some q) (hi : .lock ∈ l) : q.rep = none ∧ q.lock = true := by
  have hlock : q.lock = true := (records_iff h .lock).mpr ⟨.lock, hi, rfl⟩
  have hsane := sane_of_recordAll l {} q rfl h
  exact ⟨by simpa [Prefixes.sane, hlock] using hsane, hlock⟩

end

/-- Settles O12: a run without the repeat and LOCK group leaves both clear, and counts its rows. -/
theorem stepOverCmcWithUnusedPrefixes : Obligations.StepOverCmcWithUnusedPrefixes := by
  intro s x hwf _ hgroup hc
  obtain ⟨q, hrec, hstep⟩ := step_of_insn hwf hc
  obtain ⟨hrep, hlock⟩ := clear_of_recordAll hrec hgroup
  rw [hstep, exec_cmc_of_clear (s := { s with pfx := q }) hrep hlock, encode_length, count_of_recordAll hrec]

/-- Settles O13: the decode state records the repeat row or LOCK, never both. -/
theorem stepOverCmcWithRepeatOrLockIsRefused : Obligations.StepOverCmcWithRepeatOrLockIsRefused := by
  intro s x hwf _ hc
  obtain ⟨q, hrec, hstep⟩ := step_of_insn hwf hc
  rw [hstep]
  constructor
  · rintro ⟨i, hi, hrow⟩
    exact exec_cmc_of_rep (rep_of_recordAll hrec hi hrow)
  · intro hi
    obtain ⟨hrep, hlock⟩ := lock_of_recordAll hrec hi
    exact exec_cmc_of_lock hrep hlock

/-! ### Runs that are refused or that end in a fault -/

/-- A run that repeats a group repeats it within the window: no well-formed run has fifteen rows. -/
theorem recordAll_take_eq_none {l : List Instr} (h : prefixRunWf l = false) :
    recordAll (l.take Config.maxInstrLen) {} = none := by
  cases hrec : recordAll (l.take Config.maxInstrLen) {} with
  | none => rfl
  | some q =>
    have hwf := (wf_of_recordAll _ {} q hrec).1
    have hlen := length_le_four_of_wf _ hwf
    have hall : l.take Config.maxInstrLen = l := by
      rw [List.length_take] at hlen
      exact List.take_of_length_le (by simp only [Config.maxInstrLen] at hlen ⊢; omega)
    rw [hall, h] at hwf
    cases hwf

/-- Settles O14: the scan is refused within the first fifteen bytes of the run. -/
theorem stepOverARepeatedPrefixGroupIsRefused : Obligations.StepOverARepeatedPrefixGroupIsRefused := by
  intro s l hl hwf hc
  have hfirst : s.holdsCode ((l.take Config.maxInstrLen).map encodeRow) := by
    rw [← List.take_append_drop Config.maxInstrLen l, List.map_append] at hc
    exact State.holdsCode_left hc
  obtain ⟨rest, hwin⟩ := fetch_of_holdsCode s _ hfirst (by rw [List.length_map]; exact List.length_take_le _ _)
  have hscan := scanPrefixes_repeated _ {} rest (fun i hi => hl i (List.mem_of_mem_take hi)) (recordAll_take_eq_none hwf)
  exact step_of_decode_refuse (decode_of_scan_refuse (hwin ▸ hscan) _ _)

/-- Settles O15: the run is scanned and the byte after it selects no row. -/
theorem stepOverAnUnlistedOpcodeIsRefused : Obligations.StepOverAnUnlistedOpcodeIsRefused := by
  intro s l b hwf hb hc
  obtain ⟨hprefix, hopcode⟩ := prefixRow_none_of_rowOf b hb
  have hlen := length_le_four_of_wf l hwf
  obtain ⟨rest, hwin⟩ := fetch_of_holdsCode s _ hc
    (by rw [List.length_append, List.length_map, List.length_singleton, Config.maxInstrLen]; omega)
  rw [List.append_assoc, List.singleton_append] at hwin
  obtain ⟨q, hrec, -⟩ := recordAll_of_wf l {} hwf (by simp)
  have hscan := scanPrefixes_encode l {} q b rest hrec hprefix
  exact step_of_decode_refuse (decode_of_scan_unlisted (hwin ▸ hscan) hopcode _ _)

/-- Bytes that stand at `pc`, with a next byte that may not be fetched, are the whole window. -/
theorem fetch_of_denied {s : State} {bs : List Byte} {e : Exn} (hc : s.holdsCode bs) (hlen : bs.length < Config.maxInstrLen)
    (he : accessCheck s .cs (s.pc + BitVec.ofNat 32 bs.length) 1 .fetch = some e) :
    fetchFrom s Config.maxInstrLen s.pc = (bs, some e) := by
  obtain ⟨k, hk⟩ : ∃ k, Config.maxInstrLen - bs.length = k + 1 := Nat.exists_eq_succ_of_ne_zero (by omega)
  have hstop : fetchFrom s (k + 1) (s.pc + BitVec.ofNat 32 bs.length) = ([], some e) := by
    rw [fetchFrom, he]
  rw [fetchFrom_of_holds s bs _ s.pc (Nat.le_of_lt hlen) hc, hk, hstop, List.append_nil]

/-- Settles O16: the window is the run, and the decoder needs one byte more. -/
theorem stepRaisesTheFetchException : Obligations.StepRaisesTheFetchException := by
  intro s l e hwf hc he
  have hlen := length_le_four_of_wf l hwf
  have hwin := fetch_of_denied hc (by rw [List.length_map, Config.maxInstrLen]; omega) (by rwa [List.length_map])
  obtain ⟨q, hrec, -⟩ := recordAll_of_wf l {} hwf (by simp)
  have hscan := scanPrefixes_short l {} q hrec
  exact step_of_decode_short_some (decode_of_scan_short (by rwa [hwin]) _ _) (by rw [hwin])

end Sys2Proof

/-!
Decode and encode of the machine's instructions (30_encoding.md R84, R85, R113, R120, R130 to R143): the decode state says which
rows stand in the run, and F5 is the one opcode.
-/

namespace Sys2Proof

open Sys2Proof.Machine

/-! ### What the decode state says of a recorded run -/

section
variable {l : List Instr} {q : Prefixes} (h : recordAll l {} = some q)
include h

theorem rep_f3_iff : q.rep = some .f3 ↔ .rep ∈ l ∨ .repeRepz ∈ l := by
  have hname : ∀ i, canonRow .rep = canonRow i ↔ i = .rep ∨ i = .repeRepz := by intro i; cases i <;> decide
  calc q.rep = some .f3 ↔ q.records .rep = true := beq_iff_eq.symm
    _ ↔ ∃ i ∈ l, canonRow .rep = canonRow i := records_iff h .rep
    _ ↔ .rep ∈ l ∨ .repeRepz ∈ l := by simp only [hname, and_or_left, exists_or, exists_eq_right]

theorem rep_f2_iff : q.rep = some .f2 ↔ .repneRepnz ∈ l :=
  beq_iff_eq.symm.trans (records_iff_mem h (j := .repneRepnz) (by decide))

theorem lock_iff : q.lock = true ↔ .lock ∈ l := records_iff_mem h (j := .lock) (by decide)

theorem opsize_iff : q.opsize = true ↔ .opSize ∈ l := records_iff_mem h (j := .opSize) (by decide)

theorem adsize_iff : q.adsize = true ↔ .adSize ∈ l := records_iff_mem h (j := .adSize) (by decide)

/-- The row of a segment override is the one recorded as `pfx.seg`. -/
theorem seg_iff {i : Instr} {g : SegName} (hrow : q.records i = (q.seg == some g)) (hbyte : encodeRow i ≠ 0xF3#8 := by decide) :
    q.seg = some g ↔ i ∈ l := by
  rw [← records_iff_mem h hbyte, hrow, beq_iff_eq]

/-- The operand size is the default exactly where no 66H stands in the run (decision D1). -/
theorem operandSize_eq_default_iff (a : AttrSize) : sizeAttr a q.opsize = a ↔ .opSize ∉ l := by
  rw [sizeAttr_eq_default, ← opsize_iff h, Bool.not_eq_true]

/-- The address size is the default exactly where no 67H stands in the run (decision D2). -/
theorem addressSize_eq_default_iff (a : AttrSize) : sizeAttr a q.adsize = a ↔ .adSize ∉ l := by
  rw [sizeAttr_eq_default, ← adsize_iff h, Bool.not_eq_true]

end

/-- Settles O23: the run is scanned into its decode state, which records the rows of the run. -/
theorem decodeOfEncodeIsTheInstruction : Obligations.DecodeOfEncodeIsTheInstruction := by
  intro x a b rest hwf
  have hop := op_of_wf hwf
  obtain ⟨q, hrec, hdecode⟩ := decode_cmc a b x.prefixes rest (prefixes_of_wf hwf)
  rw [encode_length, encode_of_cmc hop, List.append_assoc, hop]
  exact ⟨_, hdecode, rfl, rfl, rfl, rfl, operandSize_eq_default_iff hrec a, addressSize_eq_default_iff hrec b,
    opsize_iff hrec, adsize_iff hrec, lock_iff hrec, rep_f3_iff hrec, rep_f2_iff hrec, seg_iff hrec rfl, seg_iff hrec rfl,
    seg_iff hrec rfl, seg_iff hrec rfl, seg_iff hrec rfl, seg_iff hrec rfl⟩

/-- Settles O24: what was decoded is a well-formed run before F5. -/
theorem decodedBytesAreTheEncoding : Obligations.DecodedBytesAreTheEncoding := by
  intro a b bs rest d h
  obtain ⟨hbs, hwf, hop, -, hlen⟩ := decode_eq_ok h
  rw [encode_length]
  refine ⟨?_, ?_, hlen⟩
  · rw [Insn.wf, hwf, hop]
    rfl
  · rw [encode_of_cmc hop, List.append_assoc]
    exact hbs

/-! ### The opcode map by first byte -/

/-- Settles O28: the 256 bytes by evaluation, the groups row by row. -/
theorem prefixBytesAreTheEleven : Obligations.PrefixBytesAreTheEleven := by
  refine ⟨?bytes, by decide, rfl, group_of_repeatLock_row, group_of_segment_row, rfl, rfl⟩
  case bytes => decide +kernel

/-- Settles O29: the map is a finite table, and what is decoded is CMC under its prefixes. -/
theorem opcodeMapByFirstByte : Obligations.OpcodeMapByFirstByte := by
  refine ⟨?rows, by decide, rfl, parseFields_cmc, ?decoded⟩
  case rows => decide +kernel
  case decoded =>
    intro a b bs rest d h
    obtain ⟨rfl, hwf, hop, -, hlen⟩ := decode_eq_ok h
    obtain ⟨q, -, hok⟩ := decode_cmc a b d.prefixes rest hwf
    rw [hok] at h
    have hfields : { opcode := [0xF5#8] } = d.fields := congrArg Decoded.fields (Parse.ok.inj h).1
    exact ⟨hop, hfields.symm, by omega⟩

/-- A known word: a well-formed run, under the names it is read by, and F5. -/
theorem decode_known_run (a : AttrSize) {l : List Instr} (hwf : prefixRunWf l = true) (hname : l.map canonRow = l) :
    ∃ d, decode a a (l.map encodeRow ++ [0xF5#8]) = .ok d [] ∧ d.op = .cmc ∧ d.prefixes = l
      ∧ d.length = l.length + 1 := by
  obtain ⟨q, -, hok⟩ := decode_cmc a a l [] hwf
  exact ⟨_, hok, rfl, hname, rfl⟩

/-- Settles O32: each word is the encoding of a well-formed run and CMC, or ends in a byte without a row. -/
theorem knownWordsDecode : Obligations.KnownWordsDecode := by
  refine ⟨decode_known_run .s32 (l := []) rfl rfl, decode_known_run .s32 (l := [.dsOverride]) rfl rfl,
    decode_known_run .s16 (l := [.opSize, .adSize, .esOverride]) rfl rfl, ?_⟩
  exact decode_of_scan_unlisted (x := ([], {})) (rest := [0#8]) (by decide) (by decide) .s32 .s32

/-! ### The ModR/M and SIB bytes -/

theorem ModRM.toNat_eq_fields (b : Byte) :
    b.toNat = 64 * (ModRM.ofByte b).mod.toNat + 8 * (ModRM.ofByte b).reg.toNat + (ModRM.ofByte b).rm.toNat := by
  have hb := b.isLt
  simp only [ModRM.ofByte, BitVec.extractLsb'_toNat, Nat.shiftRight_eq_div_pow]
  omega

theorem SIB.toNat_eq_fields (b : Byte) :
    b.toNat = 64 * (SIB.ofByte b).ss.toNat + 8 * (SIB.ofByte b).index.toNat + (SIB.ofByte b).base.toNat :=
  ModRM.toNat_eq_fields b

theorem table17_2_find_isSome_iff : ∀ (mod : BitVec 2) (rm : BitVec 3),
    (AddrRow.find table17_2 mod rm).isSome = true ↔ mod ≠ 3#2 := by decide

theorem table17_3_find_isSome_iff : ∀ (mod : BitVec 2) (rm : BitVec 3),
    (AddrRow.find table17_3 mod rm).isSome = true ↔ mod ≠ 3#2 := by decide

/-- Settles O27: the fields are the digits of the byte, and the tables cover them. -/
theorem modRMAndSIBByteLayout : Obligations.ModRMAndSIBByteLayout := by
  intro b
  refine ⟨⟨ModRM.toNat_eq_fields b, ModRM.toByte_ofByte b, ModRM.ofByte_toByte, fun hmod => ?_⟩,
    SIB.toNat_eq_fields b, SIB.toByte_ofByte b, SIB.ofByte_toByte, ?_⟩
  · exact ⟨(table17_2_find_isSome_iff _ _).mpr hmod, (table17_3_find_isSome_iff _ _).mpr hmod⟩
  · rw [ScaleRow.find_eq, Option.isSome_some]

end Sys2Proof

/-!
The grammar of instruction forms (30_encoding.md R80 to R111): the fields of a form are read back from their bytes, the bytes of
fields that were read are their encoding, and the decode procedure over any table is the prefix run followed by a form's fields.
-/

namespace Sys2Proof

open Sys2Proof.Machine

/-! ### Fields of one form -/

section
variable {f : Form} {as : AttrSize} {x : Fields}

theorem fits_iff : x.fits f as = true ↔
    f.selectedBy x = true ∧ addrFits f as x.addr = true ∧ moffsFits as f.moffs x.moffs = true
      ∧ codeFits f.code x.code = true ∧ immsAre x.imms f.imms = true := by
  simp only [Fields.fits, Bool.and_eq_true, and_assoc]

theorem selectedBy_iff : f.selectedBy x = true ↔
    opcodeIs f.opReg f.opcode x.opcode = true ∧ ∀ a, x.addr = some a → f.digitIs a.modrm.reg = true := by
  rw [Form.selectedBy, Bool.and_eq_true, Option.all_eq_true]

/-- A form with a digit has a ModR/M byte. -/
theorem addr_of_digit {d : BitVec 3} {a : Option AddrSpec} (hd : f.modrm = .digit d) (ha : addrFits f as a = true) :
    a.isSome = true := by
  cases a with
  | some y => rfl
  | none => simp [addrFits, hd] at ha

/-- Fields that fit a form are read from their encoding. -/
theorem readFields_encode (rest : List Byte) (hfit : x.fits f as = true) :
    readFields f as (encodeFields x ++ rest) = .ok x rest := by
  obtain ⟨hsel, haddr, hmoffs, hcode, himms⟩ := fits_iff.mp hfit
  have hop := takeBytes_append x.opcode
  rw [opcodeIs_length (selectedBy_iff.mp hsel).1] at hop
  simp only [readFields, encodeFields, List.append_assoc, hop, parseAddr_encode f as x.addr _ haddr,
    parseMoffs_encode_option as f.moffs x.moffs _ hmoffs, parseCode_encode_option f.code x.code _ hcode,
    parseImms_encode f.imms x.imms _ himms, Parse.andThen_ok]

/-- The bytes of fields that fit a form select it. -/
theorem selects_of_fits (rest : List Byte) (hfit : x.fits f as = true) :
    ∃ r, f.selects (encodeFields x ++ rest) = .ok true r := by
  obtain ⟨hsel, haddr, -⟩ := fits_iff.mp hfit
  have h := selects_encode f x rest (opcodeIs_length (selectedBy_iff.mp hsel).1) fun d hd => addr_of_digit hd haddr
  rwa [hsel] at h

theorem parseFields_encode (rest : List Byte) (hfit : x.fits f as = true) :
    parseFields f as (encodeFields x ++ rest) = .ok x rest := by
  obtain ⟨r, hsel⟩ := selects_of_fits rest hfit
  rw [parseFields, hsel, Parse.andThen_ok, if_pos rfl, readFields_encode rest hfit]

end

/-- The bytes of a row's fields find the row, where it is the first. -/
theorem findForm_cons_of_fits {α : Type} (op : Byte) {os as : AttrSize} {p : FormPair} {x : Fields} (a : α)
    (post : List (α × FormPair)) (rest : List Byte) (hfit : x.fits (p.choose os) as = true) :
    findForm op os ((a, p) :: post) (encodeFields x ++ rest) = .ok (a, p.choose os) (encodeFields x ++ rest) := by
  obtain ⟨r, hsel⟩ := selects_of_fits rest hfit
  rw [findForm, hsel, Parse.andThen_ok, if_pos rfl]

/-- Settles O25: the fields one after another, then the rows that are passed over. -/
theorem fieldsOfEncodedFieldsAreTheFields : Obligations.FieldsOfEncodedFieldsAreTheFields := by
  refine ⟨fun f as x rest hfit => parseFields_encode rest hfit, fun α op os pre bs hpre => ?_⟩
  have hpass : ∀ q ∈ pre, ∃ r, (q.2.choose os).selects bs = .ok false r := by
    intro q hq
    obtain ⟨_, _, rfl, rfl, hlen, hne⟩ := hpre q hq
    exact selects_of_ne hlen hne
  constructor
  · rw [← List.append_nil pre, findForm_append op os [] bs pre hpass, findForm_nil]
  · rintro post a p as x rest hfit rfl
    rw [findForm_append op os _ _ pre hpass, findForm_cons_of_fits op a post rest hfit]

/-! ### The other direction -/

section
variable {f : Form} {as : AttrSize} {bs rest : List Byte} {x : Fields}

/-- Fields that were read are of the form, but for what selects it, and the bytes are their encoding. -/
theorem readFields_eq_ok (h : readFields f as bs = .ok x rest) :
    bs = encodeFields x ++ rest ∧ x.opcode.length = f.opcode.length ∧ addrFits f as x.addr = true
      ∧ moffsFits as f.moffs x.moffs = true ∧ codeFits f.code x.code = true ∧ immsAre x.imms f.imms = true := by
  obtain ⟨op, r1, hop, h⟩ := Parse.andThen_eq_ok h
  obtain ⟨addr, r2, haddr, h⟩ := Parse.andThen_eq_ok h
  obtain ⟨moffs, r3, hmoffs, h⟩ := Parse.andThen_eq_ok h
  obtain ⟨code, r4, hcode, h⟩ := Parse.andThen_eq_ok h
  obtain ⟨imms, r5, himms, h⟩ := Parse.andThen_eq_ok h
  cases h
  obtain ⟨e1, hlen⟩ := takeBytes_eq_ok _ _ _ _ hop
  obtain ⟨hfa, e2⟩ := parseAddr_eq_ok haddr
  obtain ⟨hfm, e3⟩ := parseMoffs_eq_ok_option hmoffs
  obtain ⟨hfc, e4⟩ := parseCode_eq_ok_option hcode
  obtain ⟨hfi, e5⟩ := parseImms_eq_ok _ _ _ _ himms
  refine ⟨?_, hlen, hfa, hfm, hfc, hfi⟩
  simp only [encodeFields, List.append_assoc]
  rw [e1, e2, e3, e4, e5]

theorem parseFields_eq_ok (h : parseFields f as bs = .ok x rest) : x.fits f as = true ∧ bs = encodeFields x ++ rest := by
  obtain ⟨selected, r, hsel, h⟩ := Parse.andThen_eq_ok h
  cases selected with
  | false => cases h
  | true =>
    obtain ⟨rfl, hlen, haddr, hrest⟩ := readFields_eq_ok (f := f) (as := as) h
    obtain ⟨r', hsel'⟩ := selects_encode f x rest hlen fun d hd => addr_of_digit hd haddr
    rw [hsel] at hsel'
    have hselected : true = f.selectedBy x := (Parse.ok.inj hsel').1
    exact ⟨fits_iff.mpr ⟨hselected.symm, haddr, hrest⟩, rfl⟩

theorem digit_of_fits {d : BitVec 3} (hfit : x.fits f as = true) (hd : f.modrm = .digit d) :
    ∃ a, x.addr = some a ∧ a.modrm.reg = d := by
  obtain ⟨hsel, haddr, -⟩ := fits_iff.mp hfit
  obtain ⟨a, ha⟩ := Option.isSome_iff_exists.mp (addr_of_digit hd haddr)
  exact ⟨a, ha, (digitIs_iff f _).mp ((selectedBy_iff.mp hsel).2 a ha) d hd⟩

end

/-- Without a register code the opcode bytes are the form's (R94). -/
theorem eq_of_opcodeIs_none : ∀ {l m : List Byte}, opcodeIs .none l m = true → m = l
  | [], [], _ => rfl
  | [_], [_], h => by rw [beq_iff_eq.mp h]
  | [], _ :: _, h => by cases h
  | _ :: _, [], h => by simp [opcodeIs] at h
  | [_], _ :: _ :: _, h => by simp [opcodeIs] at h
  | _ :: a :: as, b :: bs, h => by
    simp only [opcodeIs, Bool.and_eq_true, beq_iff_eq] at h
    rw [h.1, eq_of_opcodeIs_none (l := a :: as) h.2]

/-- With a register code a byte of the instruction is the form's plus a code 0 to 7 (R94). -/
theorem admits_iff {r : OpReg} (hr : r ≠ .none) (form byte : Byte) :
    r.admits form byte = true ↔ ∃ c : BitVec 3, byte = form + c.setWidth 8 := by
  have hadm : r.admits form byte = true ↔ (byte - form).toNat < 8 := by
    cases r with
    | none => exact absurd rfl hr
    | rb | rw | rd => exact decide_eq_true_iff
  rw [hadm]
  constructor
  · intro h
    refine ⟨(byte - form).setWidth 3, ?_⟩
    have hback : ((byte - form).setWidth 3).setWidth 8 = byte - form := by
      apply BitVec.eq_of_toNat_eq
      rw [BitVec.toNat_setWidth, BitVec.toNat_setWidth]
      omega
    rw [hback, BitVec.add_comm, BitVec.sub_add_cancel]
  · rintro ⟨c, rfl⟩
    have hc := c.isLt
    rw [BitVec.add_comm, BitVec.add_sub_cancel, BitVec.toNat_setWidth]
    omega

theorem opcodeIs_singleton (r : OpReg) (b : Byte) (m : List Byte) :
    opcodeIs r [b] m = true ↔ ∃ c, m = [c] ∧ r.admits b c = true := by
  match m with
  | [] => simp [opcodeIs]
  | [c] => simp [opcodeIs]
  | _ :: _ :: _ => simp [opcodeIs]

/-- A /digit form refuses another reg field as an opcode without a row (log entry 46). -/
theorem parseFields_of_digit_ne {f : Form} (as : AttrSize) {b m : Byte} {d : BitVec 3} (rest : List Byte)
    (hop : f.opcode = [b]) (hd : f.modrm = .digit d) (hne : (ModRM.ofByte m).reg ≠ d) :
    parseFields f as (b :: m :: rest) = .refuse (.opcodeNotInSource b) := by
  have hlen : f.opcode.length = 1 := by rw [hop, List.length_singleton]
  obtain ⟨r, hsel⟩ := selects_of_ne (f := f) (bs := b :: m :: rest) (by simp [hlen])
    (.inr ⟨d, m, hd, by rw [hlen]; rfl, hne⟩)
  rw [parseFields, hsel, Parse.andThen_ok, if_neg (by decide), List.headD_cons]

end Sys2Proof

/-!
The decode procedure over any table of forms (30_encoding.md R111, R112, R120, 10_state.md R35): the prefix run, the sizes it
gives, a form that the bytes select, and the limit on the length.
-/

namespace Sys2Proof

open Sys2Proof.Machine

/-- A size is one of two values, so two sizes that agree on being the default are one. -/
theorem AttrSize.eq_of_eq_default_iff {a b dflt : AttrSize} (h : a = dflt ↔ b = dflt) : a = b := by
  cases dflt <;> cases a <;> cases b <;> simp at h ⊢

section
variable {α : Type} {find : Byte → List (α × FormPair)} {dOp dAddr : AttrSize}

/-- The procedure on a recorded run before the bytes of a form that is found. -/
theorem decodeWith_of_found {l : List Instr} {q : Prefixes} {bs rest r : List Byte} {b : Byte} {a : α} {f : Form} {x : Fields}
    (hrec : recordAll l {} = some q) (hhead : bs.head? = some b) (hb : prefixRow b = none)
    (hfind : findForm b (sizeAttr dOp q.opsize) (find b) bs = .ok (a, f) r)
    (hparse : parseFields f (sizeAttr dAddr q.adsize) bs = .ok x rest) :
    decodeWith find dOp dAddr (l.map encodeRow ++ bs) =
      if Config.maxInstrLen < l.length + x.length then .refuse .instructionTooLong
      else .ok { prefixes := l.map canonRow, pfx := q, operandSize := sizeAttr dOp q.opsize,
                 addressSize := sizeAttr dAddr q.adsize, op := a, fields := x, length := l.length + x.length } rest := by
  obtain ⟨tail, rfl⟩ := List.head?_eq_some_iff.mp hhead
  simp only [decodeWith, scanPrefixes_encode l {} q b tail hrec hb, Parse.andThen_ok, takeByte, hfind, hparse, List.length_map]

/-- What the procedure answers: a recorded run, and the fields of a form of the first opcode byte, within the limit. -/
theorem decodeWith_eq_ok {bs rest : List Byte} {d : Decoded α} (h : decodeWith find dOp dAddr bs = .ok d rest) :
    bs = d.prefixes.map encodeRow ++ (encodeFields d.fields ++ rest) ∧ recordAll d.prefixes {} = some d.pfx
      ∧ d.operandSize = sizeAttr dOp d.pfx.opsize ∧ d.addressSize = sizeAttr dAddr d.pfx.adsize
      ∧ (∃ b p, (encodeFields d.fields ++ rest).head? = some b ∧ (d.op, p) ∈ find b
        ∧ d.fields.fits (p.choose d.operandSize) d.addressSize = true)
      ∧ d.length = d.prefixes.length + d.fields.length ∧ d.length ≤ Config.maxInstrLen := by
  obtain ⟨pre, r1, hscan, hafter⟩ := Parse.andThen_eq_ok h
  obtain ⟨hbs, hrec, -, b, tail, rfl, -⟩ := scanPrefixes_eq_ok bs {} pre.2 pre.1 r1 hscan
  obtain ⟨row, r2, hfind, hrow⟩ := Parse.andThen_eq_ok (p := findForm b _ (find b) (b :: tail)) hafter
  obtain ⟨x, r3, hparse, hend⟩ := Parse.andThen_eq_ok hrow
  obtain ⟨p, hp, rfl, -⟩ := findForm_eq_ok hfind
  obtain ⟨hfit, hbytes⟩ := parseFields_eq_ok hparse
  dsimp only at hend
  split at hend
  next => cases hend
  next hlen =>
    cases hend
    rw [hbytes] at hbs
    exact ⟨hbs, hrec, rfl, rfl, ⟨b, p.2, by rw [← hbytes]; rfl, hp, hfit⟩, rfl, Nat.not_lt.mp hlen⟩

end

/-- Settles O26: the fields of one form, its digit and its opcode bytes, then the decode procedure in both directions. -/
theorem parsedFieldsEncodeToTheBytes : Obligations.ParsedFieldsEncodeToTheBytes := by
  refine ⟨?fields, fun f as b m d rest hop _ => parseFields_of_digit_ne as rest hop, ?answered, ?found⟩
  case fields =>
    intro f as bs rest x h
    obtain ⟨hfit, hbytes⟩ := parseFields_eq_ok h
    have hop := (selectedBy_iff.mp (fits_iff.mp hfit).1).1
    refine ⟨hfit, hbytes, fun d => digit_of_fits hfit, fun hnone => eq_of_opcodeIs_none (hnone ▸ hop), fun b hreg hb => ?_⟩
    rw [hb] at hop
    obtain ⟨byte, hbyte, hadm⟩ := (opcodeIs_singleton _ _ _).mp hop
    obtain ⟨c, rfl⟩ := (admits_iff hreg b byte).mp hadm
    exact ⟨c, hbyte⟩
  case answered =>
    intro α find dOp dAddr bs rest d h
    obtain ⟨hbytes, hrec, hos, has, hrow, hlen, hmax⟩ := decodeWith_eq_ok h
    refine ⟨hbytes, hrow, (wf_of_recordAll _ {} _ hrec).1, ?_, ?_, hlen, hmax⟩
    · rw [hos, operandSize_eq_default_iff hrec]
    · rw [has, addressSize_eq_default_iff hrec]
  case found =>
    intro α find dOp dAddr os as l x rest r b a f hwf hos has hhead hb hfind hfit
    obtain ⟨q, hrec, -⟩ := recordAll_of_wf l {} hwf (by simp)
    obtain rfl := AttrSize.eq_of_eq_default_iff (hos.trans (operandSize_eq_default_iff hrec dOp).symm)
    obtain rfl := AttrSize.eq_of_eq_default_iff (has.trans (addressSize_eq_default_iff hrec dAddr).symm)
    have hdecode := decodeWith_of_found hrec hhead hb hfind (parseFields_encode rest hfit)
    constructor
    · intro hshort
      rw [if_neg (show ¬ Config.maxInstrLen < l.length + x.length from Nat.not_lt.mpr hshort)] at hdecode
      exact ⟨_, hdecode, rfl, rfl, rfl, rfl, rfl⟩
    · intro hlong
      rw [hdecode]
      exact if_pos hlong

end Sys2Proof

/-!
The effective addresses against Tables 17-2 to 17-4 (41_addressing.md R157, R163 to R170). A sum of words is the sum of their
numbers modulo 2^16 or 2^32, and a displacement enters it as the number it stands for.
-/

namespace Sys2Proof

open Sys2Proof.Machine

/-! ### Sums modulo a power of two -/

theorem toNat_ofInt_eq_emod (w : Nat) (i : Int) : ((BitVec.ofInt w i).toNat : Int) = i % 2 ^ w := by
  have hpos : (0 : Int) < ((2 ^ w : Nat) : Int) := by exact_mod_cast Nat.two_pow_pos w
  rw [BitVec.toNat_ofInt, Int.toNat_of_nonneg (Int.emod_nonneg i hpos.ne'), Nat.cast_pow, Nat.cast_ofNat]

/-- A number of a word plus a signed number, as a word. -/
theorem toNat_ofNat_add_ofInt (w n : Nat) (i : Int) :
    ((BitVec.ofNat w n + BitVec.ofInt w i).toNat : Int) = (n + i) % 2 ^ w := by
  rw [← BitVec.ofInt_natCast, ← BitVec.ofInt_add, toNat_ofInt_eq_emod]

theorem disp16Of_eq (d : Disp) : disp16Of d = BitVec.ofInt 16 (dispValue d) := by
  cases d with
  | none | d8 => rfl
  | d16 v => rw [disp16Of, dispValue, BitVec.ofInt_natCast, BitVec.ofNat_toNat, BitVec.setWidth_eq]
  | d32 v => rw [disp16Of, dispValue, BitVec.ofInt_natCast, BitVec.ofNat_toNat]

theorem disp32Of_eq (d : Disp) : disp32Of d = BitVec.ofInt 32 (dispValue d) := by
  cases d with
  | none | d8 => rfl
  | d16 v => rw [disp32Of, dispValue, BitVec.ofInt_natCast, BitVec.ofNat_toNat]
  | d32 v => rw [disp32Of, dispValue, BitVec.ofInt_natCast, BitVec.ofNat_toNat, BitVec.setWidth_eq]

theorem r16_eq_ofNat (g : Regs) (c : BitVec 3) : g.r16 c = BitVec.ofNat 16 ((g.get (regOfCode c)).toNat % 2 ^ 16) := by
  apply BitVec.eq_of_toNat_eq
  rw [Regs.r16, Regs.r32, BitVec.extractLsb'_toNat, BitVec.toNat_ofNat, Nat.shiftRight_zero, Nat.mod_mod]

theorem r32_eq_ofNat (g : Regs) (c : BitVec 3) : g.r32 c = BitVec.ofNat 32 (g.get (regOfCode c)).toNat := by
  rw [Regs.r32, BitVec.ofNat_toNat, BitVec.setWidth_eq]

/-! ### The cells of the tables -/

theorem ModRM.toByte_toNat (m : ModRM) : m.toByte.toNat = 64 * m.mod.toNat + 8 * m.reg.toNat + m.rm.toNat := by
  rw [ModRM.toNat_eq_fields m.toByte, ModRM.ofByte_toByte]

theorem SIB.toByte_toNat (x : SIB) : x.toByte.toNat = 64 * x.ss.toNat + 8 * x.index.toNat + x.base.toNat := by
  rw [SIB.toNat_eq_fields x.toByte, SIB.ofByte_toByte]

theorem toByte_eq_cell {t : List AddrRow} {m : ModRM} {r : AddrRow} (h : AddrRow.find t m.mod m.rm = some r) :
    m.toByte.toNat = r.cell m.reg := by
  obtain ⟨-, hmod, hrm⟩ := AddrRow.find_eq_some h
  rw [ModRM.toByte_toNat, AddrRow.cell, hmod, hrm]

/-! ### Table 17-2 -/

/-- The registers that R157 adds for a mod and r/m, by name. -/
def regNames16 (mod : BitVec 2) (rm : BitVec 3) : List Reg :=
  match rm.toNat with
  | 0 => [.ebx, .esi]
  | 1 => [.ebx, .edi]
  | 2 => [.ebp, .esi]
  | 3 => [.ebp, .edi]
  | 4 => [.esi]
  | 5 => [.edi]
  | 6 => if mod = 0#2 then [] else [.ebp]
  | _ => [.ebx]

/-- The low halves of some registers, added as numbers. -/
def lowSum (g : Regs) (l : List Reg) : Nat := (l.map fun x => (g.get x).toNat % 2 ^ 16).sum

theorem r16_eq_lowSum (g : Regs) (c : BitVec 3) : g.r16 c = BitVec.ofNat 16 (lowSum g [regOfCode c]) := r16_eq_ofNat g c

theorem r16_add_eq_lowSum (g : Regs) (c d : BitVec 3) :
    g.r16 c + g.r16 d = BitVec.ofNat 16 (lowSum g [regOfCode c, regOfCode d]) := by
  rw [r16_eq_lowSum, r16_eq_lowSum, ← BitVec.ofNat_add]
  rfl

theorem regs16_eq_lowSum (g : Regs) (mod : BitVec 2) (rm : BitVec 3) :
    regs16 g mod rm = BitVec.ofNat 16 (lowSum g (regNames16 mod rm)) := by
  unfold regs16 regNames16
  generalize rm.toNat = n
  match n with
  | 0 => exact r16_add_eq_lowSum g 3#3 6#3
  | 1 => exact r16_add_eq_lowSum g 3#3 7#3
  | 2 => exact r16_add_eq_lowSum g 5#3 6#3
  | 3 => exact r16_add_eq_lowSum g 5#3 7#3
  | 4 => exact r16_eq_lowSum g 6#3
  | 5 => exact r16_eq_lowSum g 7#3
  | 6 =>
    by_cases hmod : mod = 0#2
    · simp only [hmod, if_true]
      rfl
    · simp only [hmod, if_false]
      exact r16_eq_lowSum g 5#3
  | _ + 7 => exact r16_eq_lowSum g 3#3

theorem regs_of_table17_2 : ∀ r ∈ table17_2, r.regs = regNames16 r.mod r.rm := by decide

theorem disp_of_table17_2 : ∀ r ∈ table17_2, ∀ reg,
    dispSize .s16 { mod := r.mod, reg := reg, rm := r.rm } none = r.disp := by decide

/-- Settles O33: the row names the registers that R157 adds. -/
theorem sixteenBitFormsFollowTable17_2 : Obligations.SixteenBitFormsFollowTable17_2 := by
  intro g a
  refine ⟨table17_2_find_isSome_iff _ _, fun r h => ?_⟩
  obtain ⟨hrow, hmod, hrm⟩ := AddrRow.find_eq_some h
  refine ⟨?ea, ?disp, rfl, toByte_eq_cell h⟩
  case ea =>
    rw [ea16, BitVec.toNat_setWidth_of_le (by decide), regs16_eq_lowSum, disp16Of_eq, toNat_ofNat_add_ofInt,
      AddrRow.value16, regs_of_table17_2 r hrow, hmod, hrm, lowSum]
  case disp =>
    have hdisp := disp_of_table17_2 r hrow a.modrm.reg
    rwa [hmod, hrm] at hdisp

/-! ### Table 17-3 -/

theorem sib_of_table17_3 :
    ∀ r ∈ table17_3, ∀ reg, sibFollows .s32 { mod := r.mod, reg := reg, rm := r.rm } = r.sib := by decide

theorem regs_of_table17_3 : ∀ r ∈ table17_3, r.sib = false →
    r.regs = if r.mod = 0#2 ∧ r.rm = 5#3 then [] else [regOfCode r.rm] := by decide

theorem disp_of_table17_3 : ∀ r ∈ table17_3, r.sib = false → ∀ reg,
    dispSize .s32 { mod := r.mod, reg := reg, rm := r.rm } none = r.disp := by decide

theorem seg_of_table17_3 : ∀ r ∈ table17_3, r.sib = false →
    r.seg = if r.rm = 5#3 ∧ r.mod ≠ 0#2 then .ss else .ds := by decide

/-- The registers of a 32-bit form without a SIB byte: the one of r/m, or none (R165). -/
theorem regs32_noSib_eq_sum (g : Regs) {a : AddrSpec} (h : a.sib = none) :
    regs32 g a = BitVec.ofNat 32 (((if a.modrm.mod = 0#2 ∧ a.modrm.rm = 5#3 then [] else [regOfCode a.modrm.rm]).map
      fun x => (g.get x).toNat).sum) := by
  simp only [regs32, h, r32_eq_ofNat]
  split
  · rfl
  · rw [List.map_singleton, List.sum_singleton]

/-- Settles O35: the row names the register of r/m, and R89 its displacement. -/
theorem thirtyTwoBitFormsFollowTable17_3 : Obligations.ThirtyTwoBitFormsFollowTable17_3 := by
  intro g a r h
  obtain ⟨hrow, hmod, hrm⟩ := AddrRow.find_eq_some h
  have hsib : sibFollows .s32 a.modrm = r.sib := by
    have hfollows := sib_of_table17_3 r hrow a.modrm.reg
    rwa [hmod, hrm] at hfollows
  refine ⟨hsib, toByte_eq_cell h, fun hno hfits => ?_⟩
  obtain ⟨hsome, hsize⟩ : a.sib.isSome = sibFollows .s32 a.modrm
      ∧ a.disp.size = dispSize .s32 a.modrm (a.sib.map SIB.base) := by
    simpa only [AddrSpec.fits, Bool.and_eq_true, beq_iff_eq] using hfits
  have hnone : a.sib = none := by
    rw [hsib, hno] at hsome
    exact Option.isNone_iff_eq_none.mp (Option.isSome_eq_false_iff.mp hsome)
  refine ⟨?ea, ?disp, ?seg⟩
  case ea =>
    rw [ea32, regs32_noSib_eq_sum g hnone, disp32Of_eq, toNat_ofNat_add_ofInt, AddrRow.value32, regs_of_table17_3 r hrow hno,
      hmod, hrm]
  case disp =>
    have hdisp := disp_of_table17_3 r hrow hno a.modrm.reg
    rw [hmod, hrm] at hdisp
    rw [hsize, hnone]
    exact hdisp
  case seg =>
    rw [seg_of_table17_3 r hrow hno, defaultSeg32, hnone, hmod, hrm]

/-! ### Table 17-4 -/

theorem baseColumn_eq : ∀ (mod : BitVec 2) (base : BitVec 3),
    baseColumn mod base = if base = 5#3 ∧ mod = 0#2 then none else some (regOfCode base) := by decide

theorem sibBase_eq_ofNat (g : Regs) (mod : BitVec 2) (x : SIB) :
    sibBase g mod x = BitVec.ofNat 32 ((baseColumn mod x.base).elim 0 fun y => (g.get y).toNat) := by
  rw [sibBase, baseColumn_eq, r32_eq_ofNat]
  split <;> rfl

theorem scaledIndex_eq_ofNat (g : Regs) {x : SIB} {r : ScaleRow} (h : ScaleRow.find x.ss x.index = some r) :
    scaledIndex g x = BitVec.ofNat 32 (r.scaled.elim 0 fun p => (g.get p.1).toNat * p.2) := by
  rw [ScaleRow.find_eq] at h
  cases h
  rw [scaledIndex, r32_eq_ofNat, ← BitVec.ofNat_mul]
  split <;> rfl

/-- The columns of ESP and of EBP are the bases that select SS (R166). -/
theorem baseColumn_selects_ss : ∀ (mod : BitVec 2) (base : BitVec 3),
    (baseColumn mod base = some .esp ∨ baseColumn mod base = some .ebp) ↔ base = 4#3 ∨ (base = 5#3 ∧ mod ≠ 0#2) := by
  decide

/-- Settles O36: base column and scaled index are the two registers that R165 adds. -/
theorem scaledIndexFormsFollowTable17_4 : Obligations.ScaledIndexFormsFollowTable17_4 := by
  intro g a x r hx hrow
  refine ⟨?ea, ?cell, ?seg⟩
  case ea =>
    have hregs : regs32 g a = sibBase g a.modrm.mod x + scaledIndex g x := by rw [regs32, hx]
    rw [ea32, hregs, sibBase_eq_ofNat, scaledIndex_eq_ofNat g hrow, ← BitVec.ofNat_add, disp32Of_eq, toNat_ofNat_add_ofInt,
      ScaleRow.value32]
  case cell =>
    rw [ScaleRow.find_eq] at hrow
    cases hrow
    rw [SIB.toByte_toNat, ScaleRow.cell]
  case seg =>
    rw [defaultSeg32, hx]
    exact if_congr (baseColumn_selects_ss _ _).symm rfl rfl

end Sys2Proof

/-!
The byte and word registers inside the doubleword registers (10_state.md R22, R23): a byte register is eight bits of one
doubleword register at offset 0 or 8, and a byte write exchanges those bits alone.
-/

namespace Sys2Proof

open Sys2Proof.Machine

/-- The doubleword register that a byte register is part of. -/
def hostOf (c : BitVec 3) : BitVec 3 := if c.toNat < 4 then c else c - 4#3

/-- The lowest bit of a byte register in its doubleword register. -/
def lowBitOf (c : BitVec 3) : Nat := if c.toNat < 4 then 0 else 8

theorem Machine.Regs.r8_eq_extract (r : Regs) (c : BitVec 3) : r.r8 c = (r.r32 (hostOf c)).extractLsb' (lowBitOf c) 8 := by
  unfold Regs.r8 hostOf lowBitOf
  split <;> rfl

/-- Two byte registers are in different doubleword registers, or are the two bytes of one. -/
theorem hostOf_ne_or_other_byte : ∀ {c d : BitVec 3}, d ≠ c →
    hostOf d ≠ hostOf c ∨ lowBitOf d = 8 - lowBitOf c := by decide

theorem hostOf_lt_four : ∀ c : BitVec 3, (hostOf c).toNat < 4 := by decide

/-- A byte write is a doubleword write that exchanges the byte and keeps the other byte and the high half. -/
theorem Machine.Regs.setR8_eq (r : Regs) (c : BitVec 3) (v : Byte) :
    ∃ w, r.setR8 c v = r.setR32 (hostOf c) w ∧ w.extractLsb' (lowBitOf c) 8 = v
      ∧ w.extractLsb' (8 - lowBitOf c) 8 = (r.r32 (hostOf c)).extractLsb' (8 - lowBitOf c) 8
      ∧ w.extractLsb' 16 16 = (r.r32 (hostOf c)).extractLsb' 16 16 := by
  by_cases hc : c.toNat < 4
  · simp only [Regs.setR8, hostOf, lowBitOf, if_pos hc]
    refine ⟨_, rfl, low_of_append _ v, ?otherByte, ?high⟩
    case otherByte => exact (mid_of_append _ v 0 8).trans (part_of_part (r.r32 c) 8 24 0 8 (by decide))
    case high => exact (mid_of_append _ v 8 16).trans (part_of_part (r.r32 c) 8 24 8 16 (by decide))
  · simp only [Regs.setR8, hostOf, lowBitOf, if_neg hc]
    refine ⟨_, rfl, ?byte, low_of_append _ _, ?high⟩
    case byte => exact (mid_of_append _ _ 0 8).trans (low_of_append _ v)
    case high => exact (mid_of_append _ _ 8 16).trans (high_of_append _ v)

section
variable (r : Regs) (c : BitVec 3) (v : Byte)

theorem Machine.Regs.r8_setR8_same : (r.setR8 c v).r8 c = v := by
  obtain ⟨w, hset, hbyte, -⟩ := r.setR8_eq c v
  rw [Regs.r8_eq_extract, hset, Regs.r32_setR32_same, hbyte]

theorem Machine.Regs.r8_setR8_other {d : BitVec 3} (h : d ≠ c) : (r.setR8 c v).r8 d = r.r8 d := by
  obtain ⟨w, hset, -, hother, -⟩ := r.setR8_eq c v
  rw [Regs.r8_eq_extract, Regs.r8_eq_extract, hset]
  by_cases hhost : hostOf d = hostOf c
  · have hlow := (hostOf_ne_or_other_byte h).resolve_left (not_not_intro hhost)
    rw [hhost, hlow, Regs.r32_setR32_same, hother]
  · rw [Regs.r32_setR32_other _ _ _ _ hhost]

theorem Machine.Regs.high_setR8 (d : BitVec 3) :
    ((r.setR8 c v).r32 d).extractLsb' 16 16 = (r.r32 d).extractLsb' 16 16 := by
  obtain ⟨w, hset, -, -, hhigh⟩ := r.setR8_eq c v
  rw [hset]
  by_cases hd : d = hostOf c
  · rw [hd, Regs.r32_setR32_same, hhigh]
  · rw [Regs.r32_setR32_other _ _ _ _ hd]

/-- ESP, EBP, ESI and EDI hold no byte register. -/
theorem Machine.Regs.r32_setR8_of_four_le {d : BitVec 3} (h : 4 ≤ d.toNat) : (r.setR8 c v).r32 d = r.r32 d := by
  obtain ⟨w, hset, -⟩ := r.setR8_eq c v
  have hlt := hostOf_lt_four c
  rw [hset, Regs.r32_setR32_other _ _ _ _ (by rintro rfl; omega)]

end

/-- Settles O40: byte writes through their doubleword write, word writes by the laws of the register file. -/
theorem narrowWritesLeaveTheOtherBits : Obligations.NarrowWritesLeaveTheOtherBits := by
  intro r c v w
  exact ⟨rfl, fun h => if_pos h, fun h => if_neg (Nat.not_lt.mpr h), r.r8_setR8_same c v, fun d => r.r8_setR8_other c v,
    r.high_setR8 c v, fun d => r.r32_setR8_of_four_le c v, r.r16_setR16_same c w, fun d => r.r32_setR16_other c d w,
    r.high_setR16 c c w⟩

end Sys2Proof

/-!
Where a register code stands (30_encoding.md R91, R94, R101 to R109, R121): the reg field, r/m under mod = 11, SIB base and
index, the last opcode byte; and what the class of an operand says of its width and of the operand size.
-/

namespace Sys2Proof

open Sys2Proof.Machine

/-! ### Operands by code and by class -/

section
variable {s : State} {a : AddrSpec}

theorem readRM_register (w : OpWidth) (h : a.modrm.mod = 3#2) : readRM s w a = .next (s.regs.read w a.modrm.rm) := if_pos h

theorem readRmOf_register {c : RmClass} {w : OpWidth} (hw : c.width = some w) (h : a.modrm.mod = 3#2) :
    readRmOf s c a = .next (valueOf w (s.regs.read w a.modrm.rm)) := by
  rw [readRmOf_of_width hw, readRM_register w h, andThen_next]

theorem readMoffsOf_eq {o : MoffsField} {g : SegName} {off : Word32} (c : MoffsClass)
    (hseg : s.pfx.seg = some g ∨ s.pfx.seg = none ∧ g = .ds) (h16 : ∀ u, o = .o16 u → off.toNat = u.toNat)
    (h32 : ∀ u, o = .o32 u → off = u) :
    readMoffsOf s c o = andThen (segRead s g off c.width.bytes) fun v => .next (valueOf c.width v) := by
  rw [readMoffsOf, readMoffs, segOrOverride_eq hseg, moffsEA_eq h16 h32]

theorem readSreg_of_code {n : SegName} (h : a.modrm.reg = codeOfSeg n) : readSreg s a = .next (s.segs.get n).selector := by
  rw [readSreg, sregRead, h, segOfCode_codeOfSeg]

theorem segOfCode_eq_none : ∀ c : BitVec 3, 6 ≤ c.toNat → segOfCode c = none := by decide

theorem readSreg_unassigned (h : 6 ≤ a.modrm.reg.toNat) : readSreg s a = .refused .sregCodeUnassigned := by
  rw [readSreg, sregRead, segOfCode_eq_none _ h]

end

/-! ### The register code in the opcode byte -/

/-- The code is the difference of the last opcode bytes (R94). -/
theorem opRegCode_eq {f : Form} {x : Fields} {b : Byte} {c : BitVec 3} (hf : f.opcode.getLast? = some b)
    (hx : x.opcode.getLast? = some (b + c.setWidth 8)) : f.opRegCode x = c := by
  rw [Form.opRegCode, hf, hx, Option.getD_some, Option.getD_some, BitVec.add_comm, BitVec.add_sub_cancel,
    BitVec.setWidth_setWidth_of_le c (by decide), BitVec.setWidth_eq]

/-! ### The classes of a form in a well-formed pair -/

section
variable {p : FormPair} {f : Form} {os : AttrSize} {w : OpWidth}

theorem mem_operandWidths : w ∈ f.operandWidths ↔ f.opReg.width = some w ∨ (∃ c, f.regClass = some c ∧ c.width = some w)
    ∨ (∃ c, f.rmClass = some c ∧ c.width = some w) ∨ (∃ c, f.moffs = some c ∧ c.width = w)
    ∨ ∃ c ∈ f.imms, c.width = some w := by
  simp only [Form.operandWidths, List.mem_append, Option.mem_toList, Option.bind_eq_some_iff, Option.map_eq_some_iff,
    List.mem_filterMap, or_assoc]

/-- A class of the width `w`, in any of the places a form has a class. -/
theorem mem_operandWidths_of_class {r : OpReg} {c : RegClass} {m : RmClass} {o : MoffsClass} (hr : r.width = some w)
    (hc : c.width = some w) (hm : m.width = some w) (ho : o.width = w)
    (h : f.opReg = r ∨ f.regClass = some c ∨ f.rmClass = some m ∨ f.moffs = some o ∨ ∃ i ∈ f.imms, i.width = some w) :
    w ∈ f.operandWidths := by
  rw [mem_operandWidths]
  obtain rfl | h | h | h | h := h
  · exact .inl hr
  · exact .inr (.inl ⟨c, h, hc⟩)
  · exact .inr (.inr (.inl ⟨m, h, hm⟩))
  · exact .inr (.inr (.inr (.inl ⟨o, h, ho⟩)))
  · exact .inr (.inr (.inr (.inr h)))

theorem width_eq_w8_iff : f.width os = .w8 ↔ f.size = .byte := by
  unfold Form.width
  cases f.size <;> cases os <;> simp

theorem width_eq_w16_iff : f.width os = .w16 ↔ f.size = .byOperandSize ∧ os = .s16 := by
  unfold Form.width
  cases f.size <;> cases os <;> simp

theorem width_eq_w32_iff : f.width os = .w32 ↔ f.size = .byOperandSize ∧ os = .s32 := by
  unfold Form.width
  cases f.size <;> cases os <;> simp

theorem width_of_pair (hp : p.wf = true) (hw : w ∈ (p.choose os).operandWidths) : (p.choose os).width os = w :=
  (Form.width_of_matchesSize (FormPair.choose_of_wf hp os).2.1 w hw).symm

end

/-- Settles O39, place by place: the files, the fields, the classes, the pairs, the opcode byte, SIB and Sreg. -/
theorem registerCodesNameTheRegisters : Obligations.RegisterCodesNameTheRegisters := by
  refine ⟨fun r => ⟨rfl, rfl, rfl, rfl⟩, ?write, ?fields, ?classes, ?moffs, ?width, ?size,
    fun s f x h => readOpRegOf_of_none h s x, ?opReg, ?sib, ?sreg⟩
  case write =>
    intro r c d v
    split
    next h => rw [h, Regs.r32_setR32_same]
    next h => exact r.r32_setR32_other c d v h
  case fields =>
    intro s a
    exact ⟨rfl, rfl, rfl, fun h => ⟨readRM_register .w32 h, readRM_register .w16 h, readRM_register .w8 h⟩⟩
  case classes =>
    intro s a
    refine ⟨rfl, rfl, rfl, rfl, fun h => ?_, rfl, rfl, rfl⟩
    exact ⟨readRmOf_register (w := .w8) rfl h, readRmOf_register (w := .w16) rfl h, readRmOf_register (w := .w32) rfl h⟩
  case moffs =>
    intro s o g off hseg h16 h32
    exact ⟨readMoffsOf_eq .moffs8 hseg h16 h32, readMoffsOf_eq .moffs16 hseg h16 h32, readMoffsOf_eq .moffs32 hseg h16 h32⟩
  case width =>
    rintro p os f hp rfl
    obtain ⟨-, -, hop, hmodrm, hsize⟩ := FormPair.choose_of_wf hp os
    refine ⟨hop, hmodrm, hsize, fun w hw => ?_⟩
    have hwidth : (p.choose os).width os = w :=
      width_of_pair hp (mem_operandWidths.mpr (hw.imp_right (.imp_right (.imp_right .inl))))
    refine ⟨fun hbyte => ?_, fun hby h16 => ?_, fun hby h32 => ?_⟩
    · rw [← hwidth, width_eq_w8_iff, hbyte]
    · rw [← hwidth, width_eq_w16_iff]
      exact ⟨hby, h16⟩
    · rw [← hwidth, width_eq_w32_iff]
      exact ⟨hby, h32⟩
  case size =>
    rintro p os f hp rfl
    obtain ⟨hrm, hcode⟩ := Form.usedUnder_of_matchesSize (FormPair.choose_of_wf hp os).2.1
    refine ⟨fun h => ?_, fun h => ?_, fun h => ?_, fun h => ?_, fun h => ?_⟩
    · exact width_eq_w8_iff.mp (width_of_pair hp (mem_operandWidths_of_class rfl rfl rfl rfl
        (h.imp_right (.imp_right (.imp_right .inl)))))
    · exact width_eq_w16_iff.mp (width_of_pair hp (mem_operandWidths_of_class rfl rfl rfl rfl
        (h.imp_right (.imp_right (.imp_right (.imp_right fun hi => ⟨_, hi, rfl⟩))))))
    · exact width_eq_w32_iff.mp (width_of_pair hp (mem_operandWidths_of_class rfl rfl rfl rfl
        (h.imp_right (.imp_right (.imp_right (.imp_right fun hi => ⟨_, hi, rfl⟩))))))
    · obtain h | h | h := h
      · exact (hrm _ h .s16 rfl).symm
      · exact (hrm _ h .s16 rfl).symm
      · exact (hcode _ h .s16 rfl).symm
    · obtain h | h | h := h
      · exact (hrm _ h .s32 rfl).symm
      · exact (hrm _ h .s32 rfl).symm
      · exact (hcode _ h .s32 rfl).symm
  case opReg =>
    intro s f x b c hf hx
    have hc := opRegCode_eq hf hx
    subst hc
    refine ⟨rfl, rfl, rfl, rfl, fun h => ?rb, fun h => ?rw, fun h => ?rd, fun hreg hfb hxb => ?selects⟩
    case rb => exact readOpRegOf_of_width (w := .w8) (by rw [h]; rfl) s x
    case rw => exact readOpRegOf_of_width (w := .w16) (by rw [h]; rfl) s x
    case rd => exact readOpRegOf_of_width (w := .w32) (by rw [h]; rfl) s x
    case selects =>
      rw [hfb, hxb, opcodeIs_singleton]
      exact ⟨_, rfl, (admits_iff hreg b _).mpr ⟨_, rfl⟩⟩
  case sib =>
    intro r m x
    refine ⟨fun h => if_neg (by tauto), fun hindex hss => ?_⟩
    rw [scaledIndex_register r hindex, hss]
    exact BitVec.mul_one _
  case sreg =>
    intro s a
    exact ⟨readSreg_of_code (n := .es), readSreg_of_code (n := .cs), readSreg_of_code (n := .ss), readSreg_of_code (n := .ds),
      readSreg_of_code (n := .fs), readSreg_of_code (n := .gs), readSreg_unassigned⟩

end Sys2Proof

/-!
Memory through a segment and through an operand (20_memory.md R53, R57, R58, R68, 41_addressing.md R171, 44_named_instructions.md
R217, R218): a read of what was written, the three outcomes of an access, and the operands made of them.
-/

namespace Sys2Proof

open Sys2Proof.Machine

/-! ### Read after write -/

/-- Bit `i` of a value is bit `i % 8` of its byte `i / 8`. -/
theorem getLsbD_extract_byte {n : Nat} (v : BitVec n) (i : Nat) :
    (v.extractLsb' (8 * (i / 8)) 8).getLsbD (i % 8) = v.getLsbD i := by
  have hi : 8 * (i / 8) + i % 8 = i := Nat.div_add_mod i 8
  rw [BitVec.getLsbD_extractLsb', hi, decide_eq_true (Nat.mod_lt i (by decide)), Bool.true_and]

theorem Machine.Memory.read_write_same (m : Memory) (a : Word32) (n : Nat) (v : BitVec (8 * n)) (hwf : m.wf = true)
    (hn : n ≤ 2 ^ 32) : (m.write a n v).read a n = v := by
  apply BitVec.eq_of_getLsbD_eq
  intro i hi
  rw [Memory.read_getLsbD _ a n i hi, Memory.byteAt_write_same m a n v _ hwf hn (by omega), getLsbD_extract_byte]

/-- Settles O43: every bit read is the bit of the byte that was written there. -/
theorem memReadAfterMemWriteGivesTheValue : Obligations.MemReadAfterMemWriteGivesTheValue := by
  intro m a n v hwf hn
  exact ⟨m.read_write_same a n v hwf (by omega), m.wf_write a n v hwf⟩

/-! ### Segment-relative access -/

section
variable {s : State} {g : SegName} {off : Word32} {n : Nat}

theorem touchesCode_of_inCode {a : Word32} (h : ∃ k, k < n ∧ inCode s (a + BitVec.ofNat 32 k) = true) :
    touchesCode s a n = true := (touchesCode_iff s n a).mpr h

theorem touchesCode_of_not_inCode {a : Word32} (h : ∀ k, k < n → inCode s (a + BitVec.ofNat 32 k) = false) :
    touchesCode s a n = false := by
  rw [← Bool.not_eq_true, touchesCode_iff]
  rintro ⟨k, hk, hcode⟩
  rw [h k hk] at hcode
  cases hcode

theorem segWrite_of_code (v : BitVec (8 * n)) (h : accessCheck s g off n .write = none)
    (hcode : touchesCode s (lin s g off) n = true) : segWrite s g off n v = .refused .storeIntoCode := by
  rw [segWrite, h]
  exact if_pos hcode

end

/-- Settles O44: the check, then the code region, then the access. -/
theorem segmentAccessChecksThenAccesses : Obligations.SegmentAccessChecksThenAccesses := by
  intro s g off n v
  exact ⟨fun e => segRead_of_some, segRead_of_ok, fun e => segWrite_of_some v,
    fun h => ⟨fun hcode => segWrite_of_code v h (touchesCode_of_inCode hcode),
      fun hcode => segWrite_of_ok v h (touchesCode_of_not_inCode hcode)⟩⟩

/-! ### ReadRM and WriteRM -/

section
variable (r : Regs) (w : OpWidth) (c : BitVec 3) (v : BitVec w.bits)

theorem Machine.Regs.read_write_same : (r.write w c v).read w c = v := by
  cases w with
  | w8 => exact r.r8_setR8_same c v
  | w16 => exact r.r16_setR16_same c v
  | w32 => exact r.r32_setR32_same c v

/-- A word or doubleword write reaches the register of its code alone. -/
theorem Machine.Regs.r32_write_other {d : BitVec 3} (hw : w ≠ .w8) (hd : d ≠ c) : (r.write w c v).r32 d = r.r32 d := by
  cases w with
  | w8 => exact absurd rfl hw
  | w16 => exact r.r32_setR16_other c d v hd
  | w32 => exact r.r32_setR32_other c d v hd

/-- A byte or word write leaves every high half. -/
theorem Machine.Regs.high_write (d : BitVec 3) (hw : w ≠ .w32) :
    ((r.write w c v).r32 d).extractLsb' 16 16 = (r.r32 d).extractLsb' 16 16 := by
  cases w with
  | w8 => exact r.high_setR8 c v d
  | w16 => exact r.high_setR16 c d v
  | w32 => exact absurd rfl hw

end

section
variable {s : State} {w : OpWidth} {a : AddrSpec}

theorem writeRM_register (v : BitVec w.bits) (h : a.modrm.mod = 3#2) :
    writeRM s w a v = .next { s with regs := s.regs.write w a.modrm.rm v } := if_pos h

theorem readRM_memory (h : a.modrm.mod ≠ 3#2) :
    readRM s w a = segRead s (segOrOverride s (defaultSeg s a)) (ea s a) w.bytes := if_neg h

theorem writeRM_memory (v : BitVec w.bits) (h : a.modrm.mod ≠ 3#2) :
    writeRM s w a v = segWrite s (segOrOverride s (defaultSeg s a)) (ea s a) w.bytes v := if_neg h

/-- A read through a segment after a write there, both admitted, gives the value. -/
theorem segRead_after_write {g : SegName} {off : Word32} {n : Nat} (v : BitVec (8 * n)) (hwf : s.mem.wf = true)
    (hn : n ≤ 2 ^ 32) (hread : accessCheck s g off n .read = none) :
    segRead { s with mem := s.mem.write (lin s g off) n v } g off n = .next v := by
  have hread' : accessCheck { s with mem := s.mem.write (lin s g off) n v } g off n .read = none := hread
  rw [segRead_of_ok hread']
  exact congrArg _ (s.mem.read_write_same (lin s g off) n v hwf hn)

end

/-- Settles O45: registers by the overlap rules, memory by the read of what was written. -/
theorem readRMAfterWriteRMGivesTheValue : Obligations.ReadRMAfterWriteRMGivesTheValue := by
  intro s w a v
  refine ⟨⟨?_, ?_, ?_⟩, readRM_register w, fun h => ?memory, fun h => ?writeRegister,
    fun h hwf hwrite hread hcode => ?writeMemory⟩
  iterate 3 rintro rfl; rfl
  case memory =>
    exact ⟨readRM_memory h, writeRM_memory v h, fun g hg => segOrOverride_of_some hg _,
      fun hnone => segOrOverride_of_none hnone _⟩
  case writeRegister =>
    refine ⟨_, writeRM_register v h, rfl, ?_, fun hw d => Regs.r32_write_other _ w _ v hw,
      fun hw d => Regs.high_write _ w _ v d hw, ?_⟩
    · rw [readRM_register w h]
      exact congrArg _ (s.regs.read_write_same w a.modrm.rm v)
    · rintro rfl
      exact ⟨fun d => Regs.r8_setR8_other _ _ v, fun d => Regs.r32_setR8_of_four_le _ _ v⟩
  case writeMemory =>
    have hsize : w.bytes ≤ 2 ^ 32 := w.bytes_le_four.trans (by decide)
    refine ⟨_, (writeRM_memory v h).trans (segWrite_of_ok v hwrite hcode), rfl, ?_, fun b hb => ?_⟩
    · rw [readRM_memory h]
      exact segRead_after_write v hwf hsize hread
    · exact s.mem.byteAt_write_other _ b w.bytes v hb

/-! ### LGDT and LIDT -/

section
variable {s : State} {a : AddrSpec} {g : SegName} {off : Word32} {e : Exn}

theorem readTable_register (h : a.modrm.mod = 3#2) : readTable s a = .refused .registerWhereMemoryRequired :=
  andThen_memOperand_register h _

theorem readTable_of_ok (hop : memOperand s a = .next (g, off)) (hlimit : accessCheck s g off 2 .read = none)
    (hbase : accessCheck s g (off + 2#32) 4 .read = none) :
    readTable s a = .next { limit := s.mem.read (lin s g off) 2, base := s.mem.read (lin s g (off + 2#32)) 4 } := by
  rw [readTable, hop, andThen_next, segRead_of_ok hlimit, andThen_next, segRead_of_ok hbase, andThen_next]

/-- The first read that is turned down ends the operand. -/
theorem readTable_of_some (hop : memOperand s a = .next (g, off))
    (h : accessCheck s g off 2 .read = some e
      ∨ accessCheck s g off 2 .read = none ∧ accessCheck s g (off + 2#32) 4 .read = some e) :
    readTable s a = .fault (.exception e.name.number e.code) := by
  rw [readTable, hop, andThen_next]
  obtain hlimit | ⟨hlimit, hbase⟩ := h
  · rw [segRead_of_some hlimit, raise, andThen_fault]
  · rw [segRead_of_ok hlimit, andThen_next, segRead_of_some hbase, raise, andThen_fault]

theorem readRmOf_pair16x32 (s : State) (a : AddrSpec) :
    readRmOf s .pair16x32 a = andThen (readTable s a) fun t => .next (.table t) := rfl

end

/-- Settles O47: the three users of the m16 & 32 operand go as its two reads go. -/
theorem descriptorTableLoadsSetLimitAndBase : Obligations.DescriptorTableLoadsSetLimitAndBase := by
  intro s a
  rw [loadGDTR, loadIDTR, readRmOf_pair16x32]
  refine ⟨fun h => ?register, fun g off hop => ⟨fun hlimit hbase => ?ok, fun e h => ?denied⟩⟩
  case register =>
    simp only [readTable_register h, andThen_refused, and_self]
  case ok =>
    simp only [readTable_of_ok hop hlimit hbase, andThen_next, and_self]
  case denied =>
    simp only [readTable_of_some hop h, andThen_fault, and_self]

/-! ### Relative targets -/

/-- A word plus a signed number, as a number. -/
theorem toNat_add_toInt {n : Nat} (x y : BitVec n) : ((x + y).toNat : Int) = (x.toNat + y.toInt) % 2 ^ n := by
  rw [← toNat_ofNat_add_ofInt, BitVec.ofNat_toNat, BitVec.setWidth_eq, BitVec.ofInt_toInt]

/-- Settles O48: the sum is modulo 2^32, and its low half modulo 2^16. -/
theorem relativeTargetIsSignedFromTheEnd : Obligations.RelativeTargetIsSignedFromTheEnd := by
  intro e rel c w
  have hsum := toNat_add_toInt e rel
  refine ⟨?s32, ?s16, ⟨_, rfl, ?cb⟩, ⟨_, rfl, BitVec.toInt_signExtend_of_le (by decide)⟩, rfl⟩
  case s32 =>
    rw [relTarget, ← hsum, Int.toNat_natCast]
  case s16 =>
    have hlow : ((e.toNat : Int) + rel.toInt) % 2 ^ 16 = ((e + rel).toNat : Int) % 2 ^ 16 := by
      rw [hsum, Int.emod_emod_of_dvd _ (by decide)]
    rw [relTarget, BitVec.toNat_setWidth_of_le (by decide), BitVec.toNat_setWidth, hlow]
    rfl
  case cb =>
    have hc : (c.signExtend 32).toInt = c.toInt := BitVec.toInt_signExtend_of_le (by decide)
    have hlo : -128 ≤ c.toInt := BitVec.le_toInt c
    have hhi : c.toInt < 128 := BitVec.toInt_lt
    rw [hc]
    exact ⟨rfl, hlo, by omega⟩

end Sys2Proof

/-!
The stack (42_operation_primitives.md R194 to R196): the pointer is SP or ESP by the stack address size, a push moves it down and
stores at the new top, a pop loads at the top and moves it up.
-/

namespace Sys2Proof

open Sys2Proof.Machine

section
variable {s t : State} {os : AttrSize}

/-! ### The stack pointer -/

theorem moveStack_s16 (h : s.stackAddrSize = .s16) (d : Word32) :
    moveStack s d = { s with regs := s.regs.setR16 4#3 (s.regs.r16 4#3 + d.setWidth 16) } := by
  rw [moveStack, h]

theorem moveStack_s32 (h : s.stackAddrSize = .s32) (d : Word32) :
    moveStack s d = { s with regs := s.regs.setR32 4#3 (s.regs.r32 4#3 + d) } := by
  rw [moveStack, h]

theorem setWidth_bytes (os : AttrSize) : (BitVec.ofNat 32 os.bytes).setWidth 16 = BitVec.ofNat 16 os.bytes := by
  cases os <;> rfl

theorem setWidth_neg_bytes (os : AttrSize) :
    (0#32 - BitVec.ofNat 32 os.bytes).setWidth 16 = -BitVec.ofNat 16 os.bytes := by
  cases os <;> rfl

theorem stackTop_push_s16 (h : s.stackAddrSize = .s16) :
    stackTop (moveStack s (0#32 - BitVec.ofNat 32 os.bytes)) =
      (s.regs.r16 4#3 - BitVec.ofNat 16 os.bytes).setWidth 32 := by
  rw [stackTop_moveStack, h, setWidth_neg_bytes, BitVec.sub_eq_add_neg (s.regs.r16 4#3)]

theorem stackTop_push_s32 (h : s.stackAddrSize = .s32) :
    stackTop (moveStack s (0#32 - BitVec.ofNat 32 os.bytes)) = s.regs.esp - BitVec.ofNat 32 os.bytes := by
  rw [stackTop_moveStack, h, BitVec.zero_sub, BitVec.sub_eq_add_neg]
  rfl

/-- Moving the pointer changes ESP alone, whatever is then stored. -/
theorem moveStack_withMem_eq (s : State) (d : Word32) (m : Memory) :
    { moveStack s d with mem := m } = { s with regs := { s.regs with esp := (moveStack s d).regs.esp }, mem := m } :=
  congrArg (fun u : State => { u with mem := m }) (moveStack_eq s d)

theorem high_esp_moveStack (h : s.stackAddrSize = .s16) (d : Word32) :
    (moveStack s d).regs.esp.extractLsb' 16 16 = s.regs.esp.extractLsb' 16 16 := by
  rw [moveStack_s16 h]
  exact s.regs.high_setR16 4#3 4#3 _

/-- Up by what it went down: the pointer is back. -/
theorem moveStack_back (s : State) (os : AttrSize) :
    moveStack (moveStack s (0#32 - BitVec.ofNat 32 os.bytes)) (BitVec.ofNat 32 os.bytes) = s := by
  cases h : s.stackAddrSize with
  | s16 =>
    rw [moveStack_s16 (by rw [moveStack_stackAddrSize, h]), moveStack_s16 h]
    simp only [Regs.r16_setR16_same, Regs.setR16_setR16, setWidth_bytes, setWidth_neg_bytes, neg_add_cancel_right,
      Regs.setR16_r16]
  | s32 =>
    rw [moveStack_s32 (by rw [moveStack_stackAddrSize, h]), moveStack_s32 h]
    simp only [Regs.r32_setR32_same, Regs.setR32_setR32, BitVec.zero_sub, neg_add_cancel_right, Regs.setR32_r32]

/-- The pointer does not look at memory. -/
theorem moveStack_withMem (s : State) (d : Word32) (m : Memory) :
    moveStack { s with mem := m } d = { moveStack s d with mem := m } := by
  cases h : s.stackAddrSize <;> simp only [moveStack, h]

/-! ### Push -/

section
variable {v : BitVec os.bits} {top : Word32} (htop : stackTop (moveStack s (0#32 - BitVec.ofNat 32 os.bytes)) = top)
include htop

theorem push_of_some {e : Exn} (h : accessCheck s .ss top os.bytes .write = some e) :
    push s os v = .fault (.exception e.name.number e.code) := by
  rw [push, htop]
  exact segWrite_of_some v (by rwa [accessCheck_moveStack])

theorem push_of_code (h : accessCheck s .ss top os.bytes .write = none)
    (hcode : touchesCode s (lin s .ss top) os.bytes = true) : push s os v = .refused .storeIntoCode := by
  rw [push, htop]
  exact segWrite_of_code v (by rwa [accessCheck_moveStack]) (by rwa [touchesCode_moveStack, lin_moveStack])

theorem push_of_ok (h : accessCheck s .ss top os.bytes .write = none)
    (hcode : touchesCode s (lin s .ss top) os.bytes = false) :
    push s os v = .next { moveStack s (0#32 - BitVec.ofNat 32 os.bytes) with
      mem := s.mem.write (lin s .ss top) os.bytes v } := by
  rw [push, htop]
  have hwrite := segWrite_of_ok (s := moveStack s (0#32 - BitVec.ofNat 32 os.bytes)) (g := .ss) (off := top) v
    (by rwa [accessCheck_moveStack]) (by rwa [touchesCode_moveStack, lin_moveStack])
  rwa [lin_moveStack, moveStack_mem] at hwrite

end

/-! ### Pop -/

theorem pop_of_some {e : Exn} (h : accessCheck s .ss (stackTop s) os.bytes .read = some e) :
    pop s os = .fault (.exception e.name.number e.code) := by
  rw [pop, segRead_of_some h, raise, andThen_fault]

theorem pop_of_ok (h : accessCheck s .ss (stackTop s) os.bytes .read = none) :
    pop s os = .next (s.mem.read (lin s .ss (stackTop s)) os.bytes, moveStack s (BitVec.ofNat 32 os.bytes)) := by
  rw [pop, segRead_of_ok h, andThen_next]

end

/-- Settles O52: the new top by the stack address size, then the store there. -/
theorem pushStoresAtTheNewTop : Obligations.PushStoresAtTheNewTop := by
  intro s os v top htop
  have hpush : stackTop (moveStack s (0#32 - BitVec.ofNat 32 os.bytes)) = top := by
    cases hsize : s.stackAddrSize with
    | s16 => rw [htop, stackTop_push_s16 hsize, hsize]
    | s32 => rw [htop, stackTop_push_s32 hsize, hsize]
  refine ⟨⟨?_, ?_⟩, fun e => push_of_some hpush, push_of_code hpush, fun hok hcode hwf => ?stored⟩
  iterate 2 rintro rfl; rfl
  case stored =>
    refine ⟨_, push_of_ok hpush hok hcode, moveStack_withMem_eq s _ _, hpush, fun hsize => high_esp_moveStack hsize _,
      fun k hk => ?_, fun b hb => ?_⟩
    · have hbytes : os.bytes ≤ 2 ^ 32 := os.bytes_le_four.trans (by decide)
      exact s.mem.byteAt_write_same _ os.bytes v k hwf hbytes hk
    · exact s.mem.byteAt_write_other _ b os.bytes v hb

/-- Settles O53: the load at the top, then the pointer by the stack address size. -/
theorem popReturnsTheTop : Obligations.PopReturnsTheTop := by
  intro s os
  refine ⟨fun e => pop_of_some, fun h => ⟨_, pop_of_ok h, moveStack_eq s _, fun hsize => ?s16, fun hsize => ?s32⟩⟩
  case s16 =>
    refine ⟨?_, high_esp_moveStack hsize _⟩
    rw [moveStack_s16 hsize, ← setWidth_bytes]
    exact s.regs.r16_setR16_same 4#3 _
  case s32 =>
    rw [moveStack_s32 hsize]
    exact s.regs.r32_setR32_same 4#3 _

/-- Settles O54: the pop reads what the push wrote, and the pointer is back. -/
theorem popAfterPushRestoresTheStack : Obligations.PopAfterPushRestoresTheStack := by
  intro s t os v hwf hpush hread
  obtain ⟨u, hu, -, -, rfl⟩ := push_eq_next hpush
  have hbytes : os.bytes ≤ 2 ^ 32 := os.bytes_le_four.trans (by decide)
  have hlin : lin u .ss (stackTop u) = lin s .ss (stackTop u) := by rw [hu, lin_moveStack]
  have hvalue := s.mem.read_write_same (lin u .ss (stackTop u)) os.bytes v hwf hbytes
  rw [pop_of_ok hread, moveStack_withMem, ← hlin, hu, moveStack_back, ← hu]
  exact congrArg (fun x => Host.Outcome.next (x, { s with mem := s.mem.write (lin u .ss (stackTop u)) os.bytes v })) hvalue

end Sys2Proof

/-!
Bit strings, the I/O permission bitmap and raising an exception (42_operation_primitives.md R197 to R203, 60_exceptions.md R231,
R241).
-/

namespace Sys2Proof

open Sys2Proof.Machine

/-! ### Bits of registers and of memory -/

theorem readBit_mem_of_ok {s : State} {g : SegName} {off : Word32} (k : Nat) (h : accessCheck s g off 1 .read = none) :
    readBit s g (.mem off k) = .next ((s.mem.byteAt (lin s g off)).getLsbD k) := by
  rw [readBit, segRead_of_ok h, andThen_next, Memory.read_one]

theorem readBit_mem_of_some {s : State} {g : SegName} {off : Word32} {e : Exn} (k : Nat)
    (h : accessCheck s g off 1 .read = some e) : readBit s g (.mem off k) = .fault (.exception e.name.number e.code) := by
  rw [readBit, segRead_of_some h, raise, andThen_fault]

/-- Settles O56: q and k are DIV and MOD of the offset. -/
theorem bitOfMemoryRoundsDown : Obligations.BitOfMemoryRoundsDown := by
  refine ⟨fun base off => ?address, fun s g off k => ⟨readBit_mem_of_ok k, fun e => readBit_mem_of_some k⟩⟩
  case address =>
    have hdef : bitMod off.toInt 8 = off.toInt - 8 * bitDiv off.toInt 8 := rfl
    have hnonneg := bitMod_nonneg off.toInt (n := 8) (by decide)
    have hlt := bitMod_lt off.toInt (n := 8) (by decide)
    exact ⟨bitDiv off.toInt 8, (bitMod off.toInt 8).toNat, by omega, by omega, rfl, rfl⟩

/-- Settles O57: the two sides of the range. -/
theorem bitOfRegisterIsInRange : Obligations.BitOfRegisterIsInRange :=
  fun _ _ _ _ => ⟨fun h => ⟨if_pos h, fun _ => rfl⟩, fun h => if_neg (Nat.not_lt.mpr h)⟩

/-! ### I-O-Permission -/

/-- A mask of `p` ones moved up by `k` meets no bit of a number exactly when its bits `k` to `k + p - 1` are 0. -/
theorem and_shifted_mask_eq_zero_iff (x p k : Nat) :
    x &&& (2 ^ p - 1) <<< k = 0 ↔ ∀ j, j < p → x.testBit (k + j) = false := by
  constructor
  · intro h j hj
    have hbit := congrArg (fun y => y.testBit (k + j)) h
    simpa [Nat.testBit_and, Nat.testBit_shiftLeft, Nat.testBit_two_pow_sub_one, hj] using hbit
  · intro h
    apply Nat.eq_of_testBit_eq
    intro i
    rw [Nat.testBit_and, Nat.testBit_shiftLeft, Nat.testBit_two_pow_sub_one, Nat.zero_testBit]
    by_cases hi : k ≤ i ∧ i - k < p
    · have hclear := h (i - k) hi.2
      rw [Nat.add_sub_cancel' hi.1] at hclear
      rw [hclear, Bool.false_and]
    · have hmask : (decide (i ≥ k) && decide (i - k < p)) = false := by simpa using hi
      rw [hmask, Bool.and_false]

theorem mask_eq (w : IOWidth) : w.mask = 2 ^ w.ports - 1 := by cases w <;> rfl

theorem ports_le_four (w : IOWidth) : w.ports ≤ 4 := by cases w <;> decide

theorem ioPermission_tss286 {s : State} (h : s.tssType = .tss286) (a : BitVec Config.ioAddrBits) (w : IOWidth) :
    ioPermission s a w = false := by
  rw [ioPermission, h]

/-- The algorithm of R203: no bit of the two bytes that the mask of the ports meets. -/
theorem ioPermission_tss386 {s : State} (h : s.tssType = .tss386) (a : BitVec Config.ioAddrBits) (w : IOWidth) :
    ioPermission s a w = true ↔
      (s.mem.read (s.tssBase + BitVec.ofNat 32
        (a.toNat / 8 + (s.mem.read (s.tssBase + Config.ioMapBaseOffset) 2).toNat)) 2).toNat &&& w.mask <<< (a.toNat % 8) = 0 := by
  rw [ioPermission, h]
  exact beq_iff_eq

/-- The bit of port `a + j` in the two bytes is its bit in the bit string. -/
theorem bit_of_port (m : Memory) (base : Word32) (ptr a j : Nat) (hj : j < 4) :
    (m.read (base + BitVec.ofNat 32 (a / 8 + ptr)) 2).getLsbD (a % 8 + j) =
      (m.byteAt (base + BitVec.ofNat 32 (ptr + (a + j) / 8))).getLsbD ((a + j) % 8) := by
  have hbit : (a % 8 + j) % 8 = (a + j) % 8 := by omega
  have hbyte : a / 8 + ptr + (a % 8 + j) / 8 = ptr + (a + j) / 8 := by omega
  rw [Memory.read_getLsbD m _ 2 _ (by omega), hbit, BitVec.add_assoc, ← BitVec.ofNat_add, hbyte]

/-- Settles O58: the mask is one bit per port, and two bytes hold the bits of four ports. -/
theorem iOPermissionMeansEveryPortBitIsClear : Obligations.IOPermissionMeansEveryPortBitIsClear := by
  intro s a w
  cases htss : s.tssType with
  | tss286 => simp [ioPermission_tss286 htss]
  | tss386 =>
    rw [ioPermission_tss386 htss, mask_eq, and_shifted_mask_eq_zero_iff]
    simp only [true_and]
    refine forall_congr' fun j => imp_congr_right fun hj => ?_
    rw [← bit_of_port s.mem s.tssBase _ _ _ (hj.trans_le (ports_le_four w))]
    rfl

/-! ### Raising an exception -/

/-- Table 17-6 gives no number twice. -/
theorem number_injective {x y : ExnName} (h : x.number = y.number) : x = y := by
  have hlisted := exceptionNumbersFollowTable17_6.2
  have hdistinct : ∀ x ∈ [ExnName.ud, .nm, .df, .ts, .np, .ss, .gp, .pf, .mf],
      ∀ y ∈ [ExnName.ud, .nm, .df, .ts, .np, .ss, .gp, .pf, .mf], x.number = y.number → x = y := by decide
  exact hdistinct x (hlisted x) y (hlisted y) h

/-- Settles O60: the number and the code of the outcome name the exception. -/
theorem raiseIsTheTerminalFault : Obligations.RaiseIsTheTerminalFault := by
  intro e f
  refine ⟨rfl, fun h => ?_⟩
  obtain ⟨hnumber, hcode⟩ : e.name.number = f.name.number ∧ e.code = f.code := by
    simpa only [raise, Host.Outcome.fault.injEq, Fault.exception.injEq] using h
  exact congrArg₂ Exn.mk (number_injective hnumber) hcode

end Sys2Proof
